-- ==== Sys2Proof/Word.lean ====
section
/-!
DEFINITION. The word types of the pap core (00_scope.md R11, R13, R15): bytes, 16-bit words, the two operand widths, and
text as a list of characters.
-/

namespace Sys2Proof

/-- A byte: the unit of both address spaces (20_memory.md R70). -/
abbrev Byte := BitVec 8

/-- A 16-bit word: a general register, the instruction pointer, a data address (00_scope.md R11, R13). -/
abbrev Word := BitVec 16

/-- The operand width W: `byte` is w = 0, `word` is w = 1 (40_execute.md R203). -/
inductive Width where
  | byte
  | word
  deriving DecidableEq, Repr

/-- W in bits (40_execute.md R203). -/
abbrev Width.bits : Width → Nat
  | .byte => 8
  | .word => 16

/-- A line of the listing, the trace or the dump. -/
abbrev Text := List Char

end Sys2Proof
end

