-- ==== Sys2Proof/Config.lean ====
section
/-!
DEFINITION. What is fixed for a run: the parameters of 00_scope.md R12 and the host's two switches (10_state.md R42, R43),
and the one free value of the spec, an oracle draw (20_memory.md R76).
-/

namespace Sys2Proof

/-- `BRANCH_MODEL` (00_scope.md R12): the source's linear advance, or 8086 branching. -/
inductive BranchModel where
  | linear
  | taken
  deriving DecidableEq, Repr

/-- `FLAG_MODEL` (00_scope.md R12): the source's simplified flags, or the full 8086 flags. -/
inductive FlagModel where
  | legacy
  | i8086
  deriving DecidableEq, Repr

/-- `REG8_MODEL` (00_scope.md R12): byte registers are register halves, or a byte write replaces the whole register. -/
inductive Reg8Model where
  | i8086
  | legacy
  deriving DecidableEq, Repr

/-- `MEM_MODEL` (00_scope.md R12): no data memory and free reads, or a 64 KiB byte array. -/
inductive MemModel where
  | oracle
  | array64k
  deriving DecidableEq, Repr

/-- `RESET_STATE` (00_scope.md R12): registers and flags zero, or supplied by the host, at creation. -/
inductive ResetModel where
  | zero
  | free
  deriving DecidableEq, Repr

/-- The launch parameters of a run; none of them changes during the run (70_reset_and_hazards.md R361,
log 3). -/
structure Params where
  execute    : Bool
  traceIp    : Bool
  branch     : BranchModel
  flagModel  : FlagModel
  reg8       : Reg8Model
  memModel   : MemModel
  resetState : ResetModel
  deriving DecidableEq, Repr

/-- The defaults of 00_scope.md R12. DESIGN CHOICE (log 1): R12 leaves `EXECUTE` and `TRACE_IP` to the host per run; the
values here are those 95_test_vectors.md takes where a vector says nothing else. -/
def Params.default : Params :=
  { execute := true, traceIp := false, branch := .linear, flagModel := .legacy, reg8 := .i8086,
    memModel := .oracle, resetState := .zero }

/-- The longest instruction buffer (00_scope.md R13, D19). -/
def Config.maxBuffer : Nat := 65535

/-- The `k`-th oracle draw, a free value (20_memory.md R76; log 4): no body, so nothing can be proved of it. A 1-byte read
takes its low byte. -/
opaque Config.draw (k : Nat) : Word

/-- What a byte of data memory that the list does not hold reads as. DESIGN CHOICE (log 5): the contents at launch are
inputs (20_memory.md R79), and every contents is some list over this byte. -/
def Config.unlistedByte : Byte := 0x00#8

end Sys2Proof
end

