-- ==== Sys2Proof/Syntax.lean ====
section
/-!
DEFINITION. The abstract syntax: register codes, operands, and the 34 instruction kinds of 00_scope.md R4 with the record
fields of 30_encoding.md R125.
-/

namespace Sys2Proof

/-- A 3-bit register code, named by the 16-bit register it selects (10_state.md R31). In a byte operand the same code names
a byte register (10_state.md R33). -/
inductive Reg where
  | ax | cx | dx | bx | sp | bp | si | di
  deriving DecidableEq, Repr

/-- The byte registers (10_state.md R33). -/
inductive ByteReg where
  | al | cl | dl | bl | ah | ch | dh | bh
  deriving DecidableEq, Repr

/-- The base expression of a memory operand (30_encoding.md R114). -/
inductive Base where
  | bxSi | bxDi | bpSi | bpDi | si | di | bp | bx
  deriving DecidableEq, Repr

/-- The displacement of a memory operand as it is encoded: absent (mod = 00), one byte (mod = 01) or two (mod = 10)
(30_encoding.md R103). -/
inductive Disp where
  | d0
  | d8 (b : Byte)
  | d16 (v : Word)
  deriving DecidableEq, Repr

/-- The `r/m` operand of a record (30_encoding.md R115). It holds the fields `mod`, `rm` and `rmop` of 30_encoding.md R125
without repeating them (log 11): `RmOp.modField`, `RmOp.rmField` and `RmOp.place` read them back. -/
inductive RmOp where
  | reg (r : Reg)
  | mem (base : Base) (disp : Disp)
  | direct (addr : Word)
  deriving DecidableEq, Repr

/-- A place an operand can be read from or written to: the three shapes of 30_encoding.md R115, the displacement as a
16-bit pattern. -/
inductive Place where
  | reg (r : Reg)
  | mem (base : Base) (disp : Word)
  | direct (addr : Word)
  deriving DecidableEq, Repr

/-- A source operand: a place or an immediate (40_execute.md R204). -/
inductive Source where
  | place (p : Place)
  | imm (data : Word)
  deriving DecidableEq, Repr

/-- The three operations of the ALU (42_arith.md R240). -/
inductive AluOp where
  | add | sub | cmp
  deriving DecidableEq, Repr

/-- The twenty short jumps and loops (30_encoding.md R119). -/
inductive JumpOp where
  | jo | jno | jb | jnb | je | jne | jbe | ja | js | jns | jp | jnp | jl | jnl | jle | jg
  | loopnz | loopz | loop | jcxz
  deriving DecidableEq, Repr

/-- One constructor per row of spec/opcode_table.json (00_scope.md R4), with the fields of 30_encoding.md R125. `d` is the
direction bit, `s` the sign-extend bit, `w` the width bit, `data` the immediate (an 8-bit immediate stands zero-extended in
its 16 bits, log 12), `addr` the direct address, `ipInc` the biased jump offset. -/
inductive Instr where
  | movRegMemToReg (d : Bool) (w : Width) (reg : Reg) (rm : RmOp)
  | movImmToRegMem (w : Width) (rm : RmOp) (data : Word)
  | movImmToReg (w : Width) (reg : Reg) (data : Word)
  | movMemToAcc (w : Width) (addr : Word)
  | movAccToMem (w : Width) (addr : Word)
  | add (d : Bool) (w : Width) (reg : Reg) (rm : RmOp)
  | addImmToRegMem (s : Bool) (w : Width) (rm : RmOp) (data : Word)
  | addImmToAcc (w : Width) (data : Word)
  | sub (d : Bool) (w : Width) (reg : Reg) (rm : RmOp)
  | subImmToRegMem (s : Bool) (w : Width) (rm : RmOp) (data : Word)
  | subImmToAcc (w : Width) (data : Word)
  | cmp (d : Bool) (w : Width) (reg : Reg) (rm : RmOp)
  | cmpImmToRegMem (s : Bool) (w : Width) (rm : RmOp) (data : Word)
  | cmpImmToAcc (w : Width) (data : Word)
  | jo (ipInc : Int)
  | jno (ipInc : Int)
  | jb (ipInc : Int)
  | jnb (ipInc : Int)
  | je (ipInc : Int)
  | jne (ipInc : Int)
  | jbe (ipInc : Int)
  | ja (ipInc : Int)
  | js (ipInc : Int)
  | jns (ipInc : Int)
  | jp (ipInc : Int)
  | jnp (ipInc : Int)
  | jl (ipInc : Int)
  | jnl (ipInc : Int)
  | jle (ipInc : Int)
  | jg (ipInc : Int)
  | loopnz (ipInc : Int)
  | loopz (ipInc : Int)
  | loop (ipInc : Int)
  | jcxz (ipInc : Int)
  deriving DecidableEq, Repr

end Sys2Proof
end

