-- ==== Sys2Proof/WellFormed.lean ====
section
/-!
DEFINITION. Which instruction terms the encoding can represent (30_encoding.md R103 to R111, R125).
-/

namespace Sys2Proof

/-- `[bp]` without a displacement has no encoding: mod = 00 with r/m = 110 is a direct address (30_encoding.md R104). -/
def RmOp.wf (o : RmOp) : Bool :=
  o ≠ .mem .bp .d0

/-- An immediate has W bits: with w = 0 its high byte is zero (30_encoding.md R106, log 12). -/
def dataWf (w : Width) (data : Word) : Bool :=
  match w with
  | .byte => data.toNat < 256
  | .word => true

/-- The immediate of the group 0x80-0x83: with s = 1 and w = 1 it is a sign-extended byte (30_encoding.md R106). -/
def groupDataWf (s : Bool) (w : Width) (data : Word) : Bool :=
  match w, s with
  | .byte, _ => data.toNat < 256
  | .word, false => true
  | .word, true => data = (data.setWidth 8).signExtend 16

/-- `ip_inc` is an integer in -126 .. +129 (30_encoding.md R111). -/
def ipIncWf (ipInc : Int) : Bool :=
  -126 ≤ ipInc ∧ ipInc ≤ 129

/-- The instruction is one that some byte sequence decodes to. -/
def Instr.wf : Instr → Bool
  | .movRegMemToReg _ _ _ rm => rm.wf
  | .movImmToRegMem w rm data => rm.wf && dataWf w data
  | .movImmToReg w _ data => dataWf w data
  | .movMemToAcc _ _ => true
  | .movAccToMem _ _ => true
  | .add _ _ _ rm => rm.wf
  | .addImmToRegMem s w rm data => rm.wf && groupDataWf s w data
  | .addImmToAcc w data => dataWf w data
  | .sub _ _ _ rm => rm.wf
  | .subImmToRegMem s w rm data => rm.wf && groupDataWf s w data
  | .subImmToAcc w data => dataWf w data
  | .cmp _ _ _ rm => rm.wf
  | .cmpImmToRegMem s w rm data => rm.wf && groupDataWf s w data
  | .cmpImmToAcc w data => dataWf w data
  | .jo k | .jno k | .jb k | .jnb k | .je k | .jne k | .jbe k | .ja k | .js k | .jns k
  | .jp k | .jnp k | .jl k | .jnl k | .jle k | .jg k
  | .loopnz k | .loopz k | .loop k | .jcxz k => ipIncWf k

end Sys2Proof
end

