-- ==== Sys2Proof/Decode.lean ====
section
/-!
DEFINITION. The Decoder (30_encoding.md): field extraction, the opcode map, decoding of one instruction from the bytes that
remain in the buffer, and the encoder that writes an instruction's fields back.
-/

namespace Sys2Proof

/-! ### Fields of a byte (30_encoding.md R101, R102) -/

/-- Two bytes of the stream, low byte first, as a 16-bit value (20_memory.md R72). -/
def wordOfBytes (lo hi : Byte) : Word := hi ++ lo

/-- Bits 7:0. -/
def lowByte (v : Word) : Byte := v.extractLsb' 0 8

/-- Bits 15:8. -/
def highByte (v : Word) : Byte := v.extractLsb' 8 8

/-- A width from its `w` bit (40_execute.md R203). -/
def Width.ofBit (w : Bool) : Width := if w then .word else .byte

/-- The `w` bit of a width. -/
def Width.bit (w : Width) : Bool := w = .word

/-- The `d` or `s` bit of an opcode byte, bit 1 (30_encoding.md R101). -/
def bit1Of (b : Byte) : Bool := b.getLsbD 1

/-- The width an opcode byte gives by its `w` bit, bit 0 (30_encoding.md R101). -/
def widthOf (b : Byte) : Width := Width.ofBit (b.getLsbD 0)

/-- The width of `1011wreg`, whose `w` bit is bit 3 (30_encoding.md R101). -/
def regImmWidthOf (b : Byte) : Width := Width.ofBit (b.getLsbD 3)

/-- `m[7:6]`. -/
def modOf (m : Byte) : BitVec 2 := m.extractLsb' 6 2

/-- `m[5:3]`. -/
def regOf (m : Byte) : BitVec 3 := m.extractLsb' 3 3

/-- `m[2:0]`. -/
def rmOf (m : Byte) : BitVec 3 := m.extractLsb' 0 3

/-! ### Register and base codes -/

/-- The register code table (10_state.md R31). -/
def Reg.ofCode (c : BitVec 3) : Reg :=
  match c.toNat with
  | 0 => .ax
  | 1 => .cx
  | 2 => .dx
  | 3 => .bx
  | 4 => .sp
  | 5 => .bp
  | 6 => .si
  | _ => .di

/-- The code of a register (10_state.md R31). -/
def Reg.code : Reg → BitVec 3
  | .ax => 0b000
  | .cx => 0b001
  | .dx => 0b010
  | .bx => 0b011
  | .sp => 0b100
  | .bp => 0b101
  | .si => 0b110
  | .di => 0b111

/-- The base expression table (30_encoding.md R114). -/
def Base.ofCode (c : BitVec 3) : Base :=
  match c.toNat with
  | 0 => .bxSi
  | 1 => .bxDi
  | 2 => .bpSi
  | 3 => .bpDi
  | 4 => .si
  | 5 => .di
  | 6 => .bp
  | _ => .bx

/-- The `r/m` code of a base expression (30_encoding.md R114). -/
def Base.code : Base → BitVec 3
  | .bxSi => 0b000
  | .bxDi => 0b001
  | .bpSi => 0b010
  | .bpDi => 0b011
  | .si => 0b100
  | .di => 0b101
  | .bp => 0b110
  | .bx => 0b111

/-- The displacement as a 16-bit pattern (30_encoding.md R105). -/
def Disp.value : Disp → Word
  | .d0 => 0x0000
  | .d8 b => b.signExtend 16
  | .d16 v => v

/-- The field `rmop` of a record (30_encoding.md R115, R125). -/
def RmOp.place : RmOp → Place
  | .reg r => .reg r
  | .mem b d => .mem b d.value
  | .direct a => .direct a

/-- The field `mod` of a record (30_encoding.md R103). -/
def RmOp.modField : RmOp → BitVec 2
  | .reg _ => 0b11
  | .mem _ .d0 => 0b00
  | .mem _ (.d8 _) => 0b01
  | .mem _ (.d16 _) => 0b10
  | .direct _ => 0b00

/-- The field `rm` of a record (30_encoding.md R104, R113, R114). -/
def RmOp.rmField : RmOp → BitVec 3
  | .reg r => r.code
  | .mem b _ => b.code
  | .direct _ => 0b110

/-! ### The opcode map (30_encoding.md R116, R119) -/

/-- What a first byte selects (30_encoding.md R112, R116). -/
inductive OpClass where
  | rmMov
  | rmAlu (op : AluOp)
  | accImm (op : AluOp)
  | group
  | movMemToAcc
  | movAccToMem
  | movImmToReg
  | movImmToRegMem
  | jmp (j : JumpOp)
  deriving DecidableEq, Repr

/-- A row of the opcode map: the bytes `b` with `b & mask = pattern`. -/
structure OpRow where
  mask    : Byte
  pattern : Byte
  cls     : OpClass
  deriving DecidableEq, Repr

/-- The opcode map, in the order of 30_encoding.md R116 and R119. -/
def opcodeMap : List OpRow :=
  [ ⟨0xFC, 0x00, .rmAlu .add⟩,
    ⟨0xFE, 0x04, .accImm .add⟩,
    ⟨0xFC, 0x28, .rmAlu .sub⟩,
    ⟨0xFE, 0x2C, .accImm .sub⟩,
    ⟨0xFC, 0x38, .rmAlu .cmp⟩,
    ⟨0xFE, 0x3C, .accImm .cmp⟩,
    ⟨0xFF, 0x70, .jmp .jo⟩,
    ⟨0xFF, 0x71, .jmp .jno⟩,
    ⟨0xFF, 0x72, .jmp .jb⟩,
    ⟨0xFF, 0x73, .jmp .jnb⟩,
    ⟨0xFF, 0x74, .jmp .je⟩,
    ⟨0xFF, 0x75, .jmp .jne⟩,
    ⟨0xFF, 0x76, .jmp .jbe⟩,
    ⟨0xFF, 0x77, .jmp .ja⟩ ] ++
  [ ⟨0xFF, 0x78, .jmp .js⟩,
    ⟨0xFF, 0x79, .jmp .jns⟩,
    ⟨0xFF, 0x7A, .jmp .jp⟩,
    ⟨0xFF, 0x7B, .jmp .jnp⟩,
    ⟨0xFF, 0x7C, .jmp .jl⟩,
    ⟨0xFF, 0x7D, .jmp .jnl⟩,
    ⟨0xFF, 0x7E, .jmp .jle⟩,
    ⟨0xFF, 0x7F, .jmp .jg⟩,
    ⟨0xFC, 0x80, .group⟩,
    ⟨0xFC, 0x88, .rmMov⟩,
    ⟨0xFE, 0xA0, .movMemToAcc⟩,
    ⟨0xFE, 0xA2, .movAccToMem⟩,
    ⟨0xF0, 0xB0, .movImmToReg⟩,
    ⟨0xFE, 0xC6, .movImmToRegMem⟩,
    ⟨0xFF, 0xE0, .jmp .loopnz⟩,
    ⟨0xFF, 0xE1, .jmp .loopz⟩,
    ⟨0xFF, 0xE2, .jmp .loop⟩,
    ⟨0xFF, 0xE3, .jmp .jcxz⟩ ]

/-- The row matches the byte. -/
def OpRow.matchesByte (r : OpRow) (b : Byte) : Bool := b &&& r.mask = r.pattern

/-- `Classify(b0)` (30_encoding.md R116, R121); `none` is a malformed first byte (R122). -/
def classify (b : Byte) : Option OpClass :=
  (opcodeMap.find? (·.matchesByte b)).map OpRow.cls

/-- The kind a group `reg` field selects (30_encoding.md R117); `none` is malformed. -/
def groupOp (reg : BitVec 3) : Option AluOp :=
  match reg.toNat with
  | 0 => some .add
  | 5 => some .sub
  | 7 => some .cmp
  | _ => none

/-- The group `reg` field of an operation (30_encoding.md R117). -/
def AluOp.groupCode : AluOp → BitVec 3
  | .add => 0b000
  | .sub => 0b101
  | .cmp => 0b111

/-- The RM-format kind of an ALU operation. -/
def AluOp.rmInstr : AluOp → Bool → Width → Reg → RmOp → Instr
  | .add => .add
  | .sub => .sub
  | .cmp => .cmp

/-- The immediate-to-register/memory kind of an ALU operation. -/
def AluOp.groupInstr : AluOp → Bool → Width → RmOp → Word → Instr
  | .add => .addImmToRegMem
  | .sub => .subImmToRegMem
  | .cmp => .cmpImmToRegMem

/-- The immediate-to-accumulator kind of an ALU operation. -/
def AluOp.accInstr : AluOp → Width → Word → Instr
  | .add => .addImmToAcc
  | .sub => .subImmToAcc
  | .cmp => .cmpImmToAcc

/-- The kind of a jump opcode (30_encoding.md R119). -/
def JumpOp.instr : JumpOp → Int → Instr
  | .jo => .jo
  | .jno => .jno
  | .jb => .jb
  | .jnb => .jnb
  | .je => .je
  | .jne => .jne
  | .jbe => .jbe
  | .ja => .ja
  | .js => .js
  | .jns => .jns
  | .jp => .jp
  | .jnp => .jnp
  | .jl => .jl
  | .jnl => .jnl
  | .jle => .jle
  | .jg => .jg
  | .loopnz => .loopnz
  | .loopz => .loopz
  | .loop => .loop
  | .jcxz => .jcxz

/-! ### The decoder (30_encoding.md R121) -/

/-- What decoding the remaining bytes gives. `malformed` says how many bytes were fetched before the error; `truncated`
fetched all that remained (00_scope.md R17, 60_exceptions.md R331, R332). -/
inductive Decoded where
  | ok (i : Instr) (rest : List Byte)
  | malformed (fetched : Nat)
  | truncated
  deriving DecidableEq, Repr

/-- `none` is a `Fetch()` at the end of the buffer. -/
def Decoded.ofFields : Option (Instr × List Byte) → Decoded
  | some (i, rest) => .ok i rest
  | none => .truncated

/-- Two fetches, low byte first (20_memory.md R72). -/
def readWord : List Byte → Option (Word × List Byte)
  | lo :: hi :: rest => some (wordOfBytes lo hi, rest)
  | _ => none

/-- `DecodeRM(mod, rm)` (30_encoding.md R115). -/
def decodeRm (md : BitVec 2) (rm : BitVec 3) (bs : List Byte) : Option (RmOp × List Byte) :=
  match md.toNat with
  | 0 =>
    if rm = 0b110#3 then (readWord bs).map fun (a, rest) => (.direct a, rest)
    else some (.mem (Base.ofCode rm) .d0, bs)
  | 1 =>
    match bs with
    | b :: rest => some (.mem (Base.ofCode rm) (.d8 b), rest)
    | [] => none
  | 2 => (readWord bs).map fun (v, rest) => (.mem (Base.ofCode rm) (.d16 v), rest)
  | _ => some (.reg (Reg.ofCode rm), bs)

/-- `ReadData(w, s)` (30_encoding.md R106). -/
def readData (w : Width) (s : Bool) (bs : List Byte) : Option (Word × List Byte) :=
  match w, s with
  | .word, false => readWord bs
  | .word, true =>
    match bs with
    | lo :: rest => some (lo.signExtend 16, rest)
    | [] => none
  | .byte, _ =>
    match bs with
    | lo :: rest => some (lo.setWidth 16, rest)
    | [] => none

/-- The RM format after the opcode byte (30_encoding.md R121). -/
def decodeRmFormat (mk : Bool → Width → Reg → RmOp → Instr) (b0 : Byte) (bs : List Byte) : Decoded :=
  match bs with
  | [] => .truncated
  | m :: tl =>
    .ofFields <| (decodeRm (modOf m) (rmOf m) tl).map fun (o, rest) =>
      (mk (bit1Of b0) (widthOf b0) (Reg.ofCode (regOf m)) o, rest)

/-- The displacement, then the data, of the RM_IMM formats (30_encoding.md R121). -/
def decodeRmData (w : Width) (s : Bool) (m : Byte) (bs : List Byte) : Option (RmOp × Word × List Byte) :=
  (decodeRm (modOf m) (rmOf m) bs).bind fun (o, tl) =>
    (readData w s tl).map fun (data, rest) => (o, data, rest)

/-- The group 0x80-0x83 after the opcode byte: the `reg` field is checked once the ModRM byte is read, before any
displacement or data byte (30_encoding.md R117, R121). -/
def decodeGroup (b0 : Byte) (bs : List Byte) : Decoded :=
  match bs with
  | [] => .truncated
  | m :: tl =>
    match groupOp (regOf m) with
    | none => .malformed 2
    | some op =>
      let s := bit1Of b0
      let w := widthOf b0
      .ofFields <| (decodeRmData w s m tl).map fun (o, data, rest) => (op.groupInstr s w o data, rest)

/-- 0xC6 and 0xC7 after the opcode byte; the `reg` field is ignored (30_encoding.md R118). -/
def decodeMovImmToRegMem (b0 : Byte) (bs : List Byte) : Decoded :=
  match bs with
  | [] => .truncated
  | m :: tl =>
    let w := widthOf b0
    .ofFields <| (decodeRmData w false m tl).map fun (o, data, rest) => (.movImmToRegMem w o data, rest)

/-- The JMP format: `ip_inc = sint_8(b1) + 2` (30_encoding.md R111). -/
def decodeJump (j : JumpOp) (bs : List Byte) : Decoded :=
  match bs with
  | [] => .truncated
  | b1 :: rest => .ok (j.instr (b1.toInt + 2)) rest

/-- `Decode()` on the bytes that remain in the buffer (30_encoding.md R121). The instruction's length is how much of `bs`
it took; the first fetch cannot fail where the core decodes, and reads as truncated on no bytes. -/
def decode (bs : List Byte) : Decoded :=
  match bs with
  | [] => .truncated
  | b0 :: tl =>
    match classify b0 with
    | none => .malformed 1
    | some .rmMov => decodeRmFormat .movRegMemToReg b0 tl
    | some (.rmAlu op) => decodeRmFormat op.rmInstr b0 tl
    | some .movImmToRegMem => decodeMovImmToRegMem b0 tl
    | some .group => decodeGroup b0 tl
    | some .movImmToReg =>
      let w := regImmWidthOf b0
      .ofFields <| (readData w false tl).map fun (data, rest) => (.movImmToReg w (Reg.ofCode (rmOf b0)) data, rest)
    | some .movMemToAcc =>
      .ofFields <| (readWord tl).map fun (a, rest) => (.movMemToAcc (widthOf b0) a, rest)
    | some .movAccToMem =>
      .ofFields <| (readWord tl).map fun (a, rest) => (.movAccToMem (widthOf b0) a, rest)
    | some (.accImm op) =>
      let w := widthOf b0
      .ofFields <| (readData w false tl).map fun (data, rest) => (op.accInstr w data, rest)
    | some (.jmp j) => decodeJump j tl

/-! ### The encoder (30_encoding.md R112, R126) -/

/-- A 16-bit field, low byte first (20_memory.md R72). -/
def wordBytes (v : Word) : List Byte := [lowByte v, highByte v]

/-- The ModRM byte (30_encoding.md R102). -/
def modRm (md : BitVec 2) (reg rm : BitVec 3) : Byte := md ++ reg ++ rm

/-- The displacement or direct address bytes (30_encoding.md R103). -/
def RmOp.dispBytes : RmOp → List Byte
  | .reg _ => []
  | .mem _ .d0 => []
  | .mem _ (.d8 b) => [b]
  | .mem _ (.d16 v) => wordBytes v
  | .direct a => wordBytes a

/-- The ModRM byte with a given middle field, then the displacement. -/
def RmOp.encode (o : RmOp) (mid : BitVec 3) : List Byte :=
  modRm o.modField mid o.rmField :: o.dispBytes

/-- The data bytes (30_encoding.md R106). -/
def encodeData (w : Width) (s : Bool) (data : Word) : List Byte :=
  match w, s with
  | .word, false => wordBytes data
  | _, _ => [lowByte data]

/-- An opcode byte `oooooodw` or `oooooosw`. -/
def opcodeDw (pattern : BitVec 6) (d : Bool) (w : Width) : Byte :=
  pattern ++ BitVec.ofBool d ++ BitVec.ofBool w.bit

/-- An opcode byte `ooooooow`. -/
def opcodeW (pattern : BitVec 7) (w : Width) : Byte := pattern ++ BitVec.ofBool w.bit

/-- The opcode byte of a jump (30_encoding.md R119). -/
def JumpOp.opcode : JumpOp → Byte
  | .jo => 0x70
  | .jno => 0x71
  | .jb => 0x72
  | .jnb => 0x73
  | .je => 0x74
  | .jne => 0x75
  | .jbe => 0x76
  | .ja => 0x77
  | .js => 0x78
  | .jns => 0x79
  | .jp => 0x7A
  | .jnp => 0x7B
  | .jl => 0x7C
  | .jnl => 0x7D
  | .jle => 0x7E
  | .jg => 0x7F
  | .loopnz => 0xE0
  | .loopz => 0xE1
  | .loop => 0xE2
  | .jcxz => 0xE3

/-- A jump's two bytes: the second holds `ip_inc - 2` (30_encoding.md R111). -/
def encodeJump (j : JumpOp) (ipInc : Int) : List Byte := [j.opcode, BitVec.ofInt 8 (ipInc - 2)]

/-- The bytes of an instruction in the layout of 30_encoding.md R112. The ignored `reg` field of 0xC6 and 0xC7 is written
as 000, the one field a record does not hold (R126). -/
def encode : Instr → List Byte
  | .movRegMemToReg d w reg rm => opcodeDw 0b100010 d w :: rm.encode reg.code
  | .movImmToRegMem w rm data => opcodeW 0b1100011 w :: rm.encode 0b000 ++ encodeData w false data
  | .movImmToReg w reg data => ((0b1011#4 ++ BitVec.ofBool w.bit ++ reg.code : Byte)) :: encodeData w false data
  | .movMemToAcc w addr => opcodeW 0b1010000 w :: wordBytes addr
  | .movAccToMem w addr => opcodeW 0b1010001 w :: wordBytes addr
  | .add d w reg rm => opcodeDw 0b000000 d w :: rm.encode reg.code
  | .addImmToRegMem s w rm data => opcodeDw 0b100000 s w :: rm.encode 0b000 ++ encodeData w s data
  | .addImmToAcc w data => opcodeW 0b0000010 w :: encodeData w false data
  | .sub d w reg rm => opcodeDw 0b001010 d w :: rm.encode reg.code
  | .subImmToRegMem s w rm data => opcodeDw 0b100000 s w :: rm.encode 0b101 ++ encodeData w s data
  | .subImmToAcc w data => opcodeW 0b0010110 w :: encodeData w false data
  | .cmp d w reg rm => opcodeDw 0b001110 d w :: rm.encode reg.code
  | .cmpImmToRegMem s w rm data => opcodeDw 0b100000 s w :: rm.encode 0b111 ++ encodeData w s data
  | .cmpImmToAcc w data => opcodeW 0b0011110 w :: encodeData w false data
  | .jo k => encodeJump .jo k
  | .jno k => encodeJump .jno k
  | .jb k => encodeJump .jb k
  | .jnb k => encodeJump .jnb k
  | .je k => encodeJump .je k
  | .jne k => encodeJump .jne k
  | .jbe k => encodeJump .jbe k
  | .ja k => encodeJump .ja k
  | .js k => encodeJump .js k
  | .jns k => encodeJump .jns k
  | .jp k => encodeJump .jp k
  | .jnp k => encodeJump .jnp k
  | .jl k => encodeJump .jl k
  | .jnl k => encodeJump .jnl k
  | .jle k => encodeJump .jle k
  | .jg k => encodeJump .jg k
  | .loopnz k => encodeJump .loopnz k
  | .loopz k => encodeJump .loopz k
  | .loop k => encodeJump .loop k
  | .jcxz k => encodeJump .jcxz k

/-! ### The opcode table's words -/

/-- Byte `k` of an opcode-table word of `nbits` bits; zero above them. -/
def tableByte (nbits w k : Nat) : Byte :=
  if 8 * k < nbits then BitVec.ofNat 8 ((w % 2 ^ nbits) / 2 ^ (8 * k)) else 0

/-- The six bytes of an opcode-table word: the first byte in its low 8 bits, zeros above `nbits`, up to the longest
instruction (30_encoding.md R100). -/
def tableBytes (nbits w : Nat) : List Byte :=
  [tableByte nbits w 0, tableByte nbits w 1, tableByte nbits w 2, tableByte nbits w 3, tableByte nbits w 4,
    tableByte nbits w 5]

/-- The instruction the decoder reads from an opcode-table word. -/
def decodeTableWord (nbits w : Nat) : Option Instr :=
  match decode (tableBytes nbits w) with
  | .ok i _ => some i
  | .malformed _ => none
  | .truncated => none

end Sys2Proof
end

