-- ==== Sys2Proof/Machine/State.lean ====
section
/-!
DEFINITION. The state of the pap core (10_state.md R30) as plain data, the transactions it has handed to the host
(70_reset_and_hazards.md R369), the reasons a step can stop, and the state at creation.
-/

namespace Sys2Proof.Machine

/-- The register file (10_state.md R31). -/
structure Regs where
  ax : Word
  cx : Word
  dx : Word
  bx : Word
  sp : Word
  bp : Word
  si : Word
  di : Word
  deriving DecidableEq, Repr

/-- The six flags CARRY, PARITY, AUX_CARRY, ZERO, SIGN, OVERFLOW (10_state.md R39). -/
structure Flags where
  c : Bool
  p : Bool
  a : Bool
  z : Bool
  s : Bool
  o : Bool
  deriving DecidableEq, Repr

/-- The kinds of 60_exceptions.md R330. -/
inductive ErrorKind where
  | malformedOpcode
  | truncatedStream
  | unmodelledReg8High
  | branchOutOfBuffer
  deriving DecidableEq, Repr

/-- An error: its kind and the buffer offset of the instruction's first byte (60_exceptions.md R330). -/
structure RunError where
  kind   : ErrorKind
  offset : Nat
  deriving DecidableEq, Repr

/-- The run state (10_state.md R47). -/
inductive RunState where
  | decoding
  | halted
  | failed (e : RunError)
  deriving DecidableEq, Repr

/-- A memory event: `Read(start, addr, n, value)` or `Write(start, addr, n, v)`; the width gives `n`, and a byte stands
zero-extended (20_memory.md R76, R77). -/
inductive Event where
  | read (start : Nat) (addr : Word) (w : Width) (value : Word)
  | write (start : Nat) (addr : Word) (w : Width) (value : Word)
  deriving DecidableEq, Repr

/-- A decoded record: the kind with its fields, `start` and `len` (30_encoding.md R125). -/
structure Record where
  start : Nat
  len   : Nat
  instr : Instr
  deriving DecidableEq, Repr

/-- Data memory: the bytes that differ from `Config.unlistedByte`, by rising address (20_memory.md R78, log 5). -/
abbrev Memory := List Host.Cell

/-- The state of the core. -/
structure State where
  /-- `EXECUTE`, `TRACE_IP` and the models, fixed for the run (10_state.md R42, R43; 70_reset_and_hazards.md R361). -/
  params : Params
  /-- `x[0..7]` (10_state.md R31). -/
  regs : Regs
  /-- `F.C F.P F.A F.Z F.S F.O` (10_state.md R39). -/
  flags : Flags
  /-- The instruction pointer (10_state.md R37). -/
  pc : Word
  /-- The decoder cursor, an offset 0..L (10_state.md R45). -/
  cur : Nat
  /-- The run state (10_state.md R47). -/
  run : RunState
  /-- The read-only instruction buffer; its length is L (20_memory.md R71, log 19). -/
  buf : List Byte
  /-- Data memory, in use under `MEM_MODEL = array64k` only (20_memory.md R76, R78). -/
  mem : Memory
  /-- The records handed to the host, oldest first (60_exceptions.md R333, 70_reset_and_hazards.md R369). -/
  records : List Record
  /-- The lines emitted, oldest first (70_reset_and_hazards.md R364, R365). -/
  lines : List Text
  /-- The memory event history, oldest first (20_memory.md R76 to R78). -/
  events : List Event
  /-- How many oracle draws have been taken: the model's own field (20_memory.md R76, log 4). -/
  draws : Nat
  deriving DecidableEq, Repr

/-- Why a step stops. Both say that no step is enabled (10_state.md R47, 40_execute.md R201; log 6): safe, since the run is
over and the model claims nothing of a further step. -/
inductive Fault where
  /-- Raised by `step` in run state `halted`. Safe: the run is over. -/
  | runHalted
  /-- Raised by `step` in run state `failed(e)`, `e` an error or fault of 60_exceptions.md R330. Safe: the run is over. -/
  | runFailed (e : RunError)
  deriving DecidableEq, Repr

/-- What the model declines to say. -/
inductive Refusal where
  /-- Raised by `exec` for an instruction without a meaning: none is left. Safe. -/
  | notModelled (mnemonic : String)
  /-- Raised by `step` in run state `failed(Unmodelled(Reg8High))`: nothing is claimed after it (60_exceptions.md R338).
  Safe. -/
  | reg8High (offset : Nat)
  /-- Raised by `create` for a buffer of more than 65,535 bytes (00_scope.md R13, I13). Safe. -/
  | bufferTooLong (length : Nat)
  deriving DecidableEq, Repr

/-- All registers zero (10_state.md R48). -/
def Regs.zero : Regs :=
  { ax := 0, cx := 0, dx := 0, bx := 0, sp := 0, bp := 0, si := 0, di := 0 }

/-- All flags clear (10_state.md R48). -/
def Flags.clear : Flags :=
  { c := false, p := false, a := false, z := false, s := false, o := false }

/-- The core at creation with the default parameters and an empty buffer (10_state.md R48): no program is part of reset, so
L = 0 and the run state is `halted` (log 2). -/
def State.reset : State :=
  { params := Params.default, regs := Regs.zero, flags := Flags.clear, pc := 0, cur := 0, run := .halted,
    buf := [], mem := [], records := [], lines := [], events := [], draws := 0 }

end Sys2Proof.Machine
end

