-- ==== Sys2Proof/Machine/Flags.lean ====
section
/-!
DEFINITION. The ALU and its flags (42_arith.md R240 to R244), at any width.
-/

namespace Sys2Proof.Machine

/-- The result, modulo 2^W (42_arith.md R241). -/
def aluResult {n : Nat} (op : AluOp) (a b : BitVec n) : BitVec n :=
  match op with
  | .add => a + b
  | .sub => a - b
  | .cmp => a - b

/-- Bits `k-1:0` as an unsigned number (00_scope.md R14). -/
def lowBits {n : Nat} (k : Nat) (v : BitVec n) : Nat := v.toNat % 2 ^ k

/-- The nibble carry or borrow: `F.A` under both flag models (42_arith.md R243, R244). -/
def nibbleCarry {n : Nat} (op : AluOp) (a b : BitVec n) : Bool :=
  match op with
  | .add => lowBits 4 a + lowBits 4 b > 15
  | .sub => lowBits 4 a < lowBits 4 b
  | .cmp => lowBits 4 a < lowBits 4 b

/-- `ALUFlagsLegacy` (42_arith.md R243): `F.C` is the borrow of the low byte, for SUB and CMP only; `F.O` is not written. -/
def aluFlagsLegacy {n : Nat} (op : AluOp) (a b r : BitVec n) (f : Flags) : Flags :=
  { s := r.msb
    z := r = 0
    p := r = 0
    a := nibbleCarry op a b
    c := match op with
      | .add => f.c
      | .sub => lowBits 8 a < lowBits 8 b
      | .cmp => lowBits 8 a < lowBits 8 b
    o := f.o }

/-- The number of 1 bits in `r[7:0]`. -/
def onesLow8 {n : Nat} (r : BitVec n) : Nat :=
  (r.getLsbD 0).toNat + (r.getLsbD 1).toNat + (r.getLsbD 2).toNat + (r.getLsbD 3).toNat +
  (r.getLsbD 4).toNat + (r.getLsbD 5).toNat + (r.getLsbD 6).toNat + (r.getLsbD 7).toNat

/-- `ALUFlags8086` (42_arith.md R244): all six flags. -/
def aluFlags8086 {n : Nat} (op : AluOp) (a b r : BitVec n) : Flags :=
  { c := match op with
      | .add => a.toNat + b.toNat ≥ 2 ^ n
      | .sub => a.toNat < b.toNat
      | .cmp => a.toNat < b.toNat
    a := nibbleCarry op a b
    o := match op with
      | .add => a.msb = b.msb ∧ r.msb ≠ a.msb
      | .sub => a.msb ≠ b.msb ∧ r.msb ≠ a.msb
      | .cmp => a.msb ≠ b.msb ∧ r.msb ≠ a.msb
    s := r.msb
    z := r = 0
    p := onesLow8 r % 2 = 0 }

/-- `ALUFlags` (42_arith.md section 3). -/
def aluFlags {n : Nat} (m : FlagModel) (op : AluOp) (a b r : BitVec n) (f : Flags) : Flags :=
  match m with
  | .legacy => aluFlagsLegacy op a b r f
  | .i8086 => aluFlags8086 op a b r

end Sys2Proof.Machine
end

