-- ==== Sys2Proof/Machine/Ops.lean ====
section
/-!
DEFINITION. The named operations over registers, data memory, the cursor and the run state (10_state.md R34 to R38,
20_memory.md R76 to R78, 60_exceptions.md R335).
-/

namespace Sys2Proof.Machine

/-! ### Registers -/

/-- `x[r]` (00_scope.md R16). -/
def Regs.get (g : Regs) : Reg → Word
  | .ax => g.ax
  | .cx => g.cx
  | .dx => g.dx
  | .bx => g.bx
  | .sp => g.sp
  | .bp => g.bp
  | .si => g.si
  | .di => g.di

/-- `x[r] <- v` (00_scope.md R16). -/
def Regs.set (g : Regs) (r : Reg) (v : Word) : Regs :=
  match r with
  | .ax => { g with ax := v }
  | .cx => { g with cx := v }
  | .dx => { g with dx := v }
  | .bx => { g with bx := v }
  | .sp => { g with sp := v }
  | .bp => { g with bp := v }
  | .si => { g with si := v }
  | .di => { g with di := v }

/-- `x[r]`. -/
def State.reg (s : State) (r : Reg) : Word := s.regs.get r

/-- `x[r] <- v`. -/
def State.setReg (s : State) (r : Reg) (v : Word) : State := { s with regs := s.regs.set r v }

/-- The byte register a code names (10_state.md R33). -/
def byteReg : Reg → ByteReg
  | .ax => .al
  | .cx => .cl
  | .dx => .dl
  | .bx => .bl
  | .sp => .ah
  | .bp => .ch
  | .si => .dh
  | .di => .bh

/-- The 16-bit register that holds a byte register (10_state.md R33). -/
def byteHolder : ByteReg → Reg
  | .al | .ah => .ax
  | .cl | .ch => .cx
  | .dl | .dh => .dx
  | .bl | .bh => .bx

/-- AH, CH, DH and BH are the high halves (10_state.md R33). -/
def byteIsHigh : ByteReg → Bool
  | .al | .cl | .dl | .bl => false
  | .ah | .ch | .dh | .bh => true

/-- `x8[r]` (10_state.md R34); under `REG8_MODEL = legacy` the codes 000 to 011 read the low byte too (R35). -/
def readByteReg (r : Reg) (s : State) : Byte :=
  let b := byteReg r
  if byteIsHigh b then highByte (s.reg (byteHolder b)) else lowByte (s.reg (byteHolder b))

/-- `x8[r] <- v` (10_state.md R34). Under `REG8_MODEL = legacy` the codes 000 to 011 write `zext_16(v)` (R35); no
instruction reaches the codes 100 to 111 there, since it is refused first (40_execute.md R208). -/
def writeByteReg (r : Reg) (v : Byte) (s : State) : State :=
  let b := byteReg r
  let h := byteHolder b
  match s.params.reg8, byteIsHigh b with
  | .i8086, false => s.setReg h (highByte (s.reg h) ++ v)
  | .i8086, true => s.setReg h (v ++ lowByte (s.reg h))
  | .legacy, false => s.setReg h (v.setWidth 16)
  | .legacy, true => s

/-- `RegRead(W, r)` (10_state.md R36). -/
def regRead (w : Width) (r : Reg) (s : State) : BitVec w.bits :=
  match w with
  | .byte => readByteReg r s
  | .word => s.reg r

/-- `RegWrite(W, r, v)` (10_state.md R36). -/
def regWrite (w : Width) (r : Reg) (v : BitVec w.bits) (s : State) : State :=
  match w with
  | .byte => writeByteReg r v s
  | .word => s.setReg r v

/-- The 16-bit register that an access of width W to code `r` reaches (40_execute.md R209). -/
def regHolder (w : Width) (r : Reg) : Reg :=
  match w with
  | .byte => byteHolder (byteReg r)
  | .word => r

/-- A register access the spec refuses: AH, CH, DH or BH under `REG8_MODEL = legacy` (40_execute.md R208). -/
def regRefused (w : Width) (r : Reg) (s : State) : Bool :=
  match s.params.reg8, w with
  | .legacy, .byte => byteIsHigh (byteReg r)
  | _, _ => false

/-! ### Data memory -/

/-- The byte at an address. -/
def Memory.read : Memory → Nat → Byte
  | [], _ => Config.unlistedByte
  | (k, b) :: rest, a => if k = a then b else Memory.read rest a

/-- Set the byte at an address, keeping the canonical form. -/
def Memory.write : Memory → Nat → Byte → Memory
  | [], a, v => if v = Config.unlistedByte then [] else [(a, v)]
  | (k, b) :: rest, a, v =>
    if a < k then
      if v = Config.unlistedByte then (k, b) :: rest else (a, v) :: (k, b) :: rest
    else if a = k then
      if v = Config.unlistedByte then rest else (a, v) :: rest
    else (k, b) :: Memory.write rest a v

/-- The canonical form: addresses strictly rising and below 2^16, no entry equal to what an unlisted address reads as. -/
abbrev Memory.wf (m : Memory) : Prop :=
  m.Pairwise (fun x y => x.1 < y.1) ∧ ∀ c ∈ m, c.1 < 65536 ∧ c.2 ≠ Config.unlistedByte

/-- The memory that holds the given bytes, later entries over earlier ones, addresses modulo 2^16 (log 20). -/
def Memory.ofCells (cells : List Host.Cell) : Memory :=
  cells.foldl (fun m c => Memory.write m (c.1 % 65536) c.2) []

/-- `M[addr]`, or the two bytes at `addr` and `addr + 1 mod 2^16`, low byte first (20_memory.md R78). -/
def Memory.load (m : Memory) (w : Width) (addr : Word) : BitVec w.bits :=
  match w with
  | .byte => m.read addr.toNat
  | .word => wordOfBytes (m.read addr.toNat) (m.read (addr + 1).toNat)

/-- Store one byte, or two with the low byte at `addr` and the high byte at `addr + 1 mod 2^16` (20_memory.md R78). -/
def Memory.store (m : Memory) (w : Width) (addr : Word) (v : BitVec w.bits) : Memory :=
  match w, v with
  | .byte, v => m.write addr.toNat v
  | .word, v => (m.write addr.toNat (lowByte v)).write (addr + 1).toNat (highByte v)

/-- The addresses a store of width W at `addr` writes (20_memory.md R78). -/
def storedAddrs (w : Width) (addr : Word) : List Nat :=
  match w with
  | .byte => [addr.toNat]
  | .word => [addr.toNat, (addr + 1).toNat]

/-- The value a read of width W at `addr` returns: the next draw under `oracle` (20_memory.md R76, log 4), the bytes of `M`
under `array64k` (R78). -/
def memValue (w : Width) (addr : Word) (s : State) : BitVec w.bits :=
  match s.params.memModel with
  | .oracle => (Config.draw s.draws).setWidth w.bits
  | .array64k => s.mem.load w addr

/-- `MemRead(addr, W/8)` and the state after it: the event is recorded and, under `oracle`, a draw is taken
(20_memory.md R76, R78). `pc` is the reading instruction's offset (10_state.md R37). -/
def memRead (w : Width) (addr : Word) (s : State) : BitVec w.bits × State :=
  let v := memValue w addr s
  let draws := match s.params.memModel with
    | .oracle => s.draws + 1
    | .array64k => s.draws
  (v, { s with draws := draws, events := s.events ++ [.read s.pc.toNat addr w (v.setWidth 16)] })

/-- `MemWrite(addr, W/8, v)`: the event is recorded; the bytes change under `array64k` only (20_memory.md R77, R78). -/
def memWrite (w : Width) (addr : Word) (v : BitVec w.bits) (s : State) : State :=
  let mem := match s.params.memModel with
    | .oracle => s.mem
    | .array64k => s.mem.store w addr v
  { s with mem := mem, events := s.events ++ [.write s.pc.toNat addr w (v.setWidth 16)] }

/-! ### The cursor, the instruction pointer and the run state -/

/-- The run follows branches: `BRANCH_MODEL = taken` in execute mode (40_execute.md R201). -/
def State.branching (s : State) : Bool := s.params.branch = .taken && s.params.execute

/-- The position of the next decode: `pc` where the run follows branches, else `cur` (40_execute.md R201). -/
def State.fetchPos (s : State) : Nat := if s.branching then s.pc.toNat else s.cur

/-- `pc <- cur` (10_state.md R37). -/
def advance (s : State) : State := { s with pc := BitVec.ofNat 16 s.cur }

/-- The entry of every error, fault and refusal of the spec: the run state becomes `failed(e)` and nothing else is written
(60_exceptions.md R335). No rule returns from it: `failed` is final (R336). -/
def fail (k : ErrorKind) (offset : Nat) (s : State) : State := { s with run := .failed ⟨k, offset⟩ }

end Sys2Proof.Machine
end

