-- ==== Sys2Proof/Machine/Operands.lean ====
section
/-!
DEFINITION. Operand access (40_execute.md R203 to R208, 20_memory.md R75).
-/

namespace Sys2Proof.Machine

/-- `BaseValue(base)` (20_memory.md R75). -/
def baseValue (b : Base) (s : State) : Word :=
  match b with
  | .bxSi => s.reg .bx + s.reg .si
  | .bxDi => s.reg .bx + s.reg .di
  | .bpSi => s.reg .bp + s.reg .si
  | .bpDi => s.reg .bp + s.reg .di
  | .si => s.reg .si
  | .di => s.reg .di
  | .bp => s.reg .bp
  | .bx => s.reg .bx

/-- The effective address of a memory operand, modulo 2^16; a register operand has none (20_memory.md R75). -/
def placeAddr (p : Place) (s : State) : Option Word :=
  match p with
  | .reg _ => none
  | .mem b disp => some (baseValue b s + disp)
  | .direct a => some a

/-- `ReadOp(op, W)` for a place, and the state after it (40_execute.md R204). -/
def readPlace (w : Width) (p : Place) (s : State) : BitVec w.bits × State :=
  match p with
  | .reg r => (regRead w r s, s)
  | .mem b disp => memRead w (baseValue b s + disp) s
  | .direct a => memRead w a s

/-- `ReadOp(op, W)`, and the state after it (40_execute.md R204). -/
def readSource (w : Width) (src : Source) (s : State) : BitVec w.bits × State :=
  match src with
  | .place p => readPlace w p s
  | .imm data => (data.setWidth w.bits, s)

/-- `WriteOp(op, W, v)` (40_execute.md R205). A read before it changes no register, so the address is the one computed at
the read. -/
def writePlace (w : Width) (p : Place) (v : BitVec w.bits) (s : State) : State :=
  match p with
  | .reg r => regWrite w r v s
  | .mem b disp => memWrite w (baseValue b s + disp) v s
  | .direct a => memWrite w a v s

/-- `(dst, src)` of the RM format (30_encoding.md R120, 40_execute.md R206). -/
def rmOperands (d : Bool) (reg : Reg) (rm : RmOp) : Place × Source :=
  if d then (.reg reg, .place rm.place) else (rm.place, .place (.reg reg))

/-- The operand is a byte register the spec refuses (40_execute.md R208). -/
def placeRefused (w : Width) (p : Place) (s : State) : Bool :=
  match p with
  | .reg r => regRefused w r s
  | .mem _ _ => false
  | .direct _ => false

/-- The operand is a byte register the spec refuses (40_execute.md R208). -/
def sourceRefused (w : Width) (src : Source) (s : State) : Bool :=
  match src with
  | .place p => placeRefused w p s
  | .imm _ => false

/-- Either operand is refused (60_exceptions.md R338). -/
def operandsRefused (w : Width) (dst : Place) (src : Source) (s : State) : Bool :=
  placeRefused w dst s || sourceRefused w src s

/-- The 16-bit register a write to the place reaches (40_execute.md R209). -/
def placeHolder (w : Width) (p : Place) : Option Reg :=
  match p with
  | .reg r => some (regHolder w r)
  | .mem _ _ => none
  | .direct _ => none

end Sys2Proof.Machine
end

