-- ==== Sys2Proof/Machine/Arith.lean ====
section
/-!
DEFINITION. The accumulator ALU's instructions (42_arith.md R245 to R253).
-/

namespace Sys2Proof.Machine

/-- `cmp` discards its result (42_arith.md R242). -/
def writesResult : AluOp → Bool
  | .add => true
  | .sub => true
  | .cmp => false

/-- What the nine forms share (42_arith.md R245 to R253): refuse, read the destination, then the source, compute, write the
flags, write the result unless the operation is `cmp`, and let `pc` follow the cursor. -/
def arith (op : AluOp) (w : Width) (dst : Place) (src : Source) (s : State) : Host.Outcome State Fault Refusal :=
  if operandsRefused w dst src s then .next (fail .unmodelledReg8High s.pc.toNat s)
  else
    let (a, s1) := readPlace w dst s
    let (b, s2) := readSource w src s1
    let r := aluResult op a b
    let s3 := { s2 with flags := aluFlags s2.params.flagModel op a b r s2.flags }
    let s4 := if writesResult op then writePlace w dst r s3 else s3
    .next (advance s4)

/-- `Add` (42_arith.md R245). -/
def execAdd (d : Bool) (w : Width) (reg : Reg) (rm : RmOp) (s : State) : Host.Outcome State Fault Refusal :=
  arith .add w (rmOperands d reg rm).1 (rmOperands d reg rm).2 s

/-- `AddImmToRegMem` (42_arith.md R246). -/
def execAddImmToRegMem (_s : Bool) (w : Width) (rm : RmOp) (data : Word) (s : State) :
    Host.Outcome State Fault Refusal :=
  arith .add w rm.place (.imm data) s

/-- `AddImmToAcc` (42_arith.md R247). -/
def execAddImmToAcc (w : Width) (data : Word) (s : State) : Host.Outcome State Fault Refusal :=
  arith .add w (.reg .ax) (.imm data) s

/-- `Sub` (42_arith.md R248). -/
def execSub (d : Bool) (w : Width) (reg : Reg) (rm : RmOp) (s : State) : Host.Outcome State Fault Refusal :=
  arith .sub w (rmOperands d reg rm).1 (rmOperands d reg rm).2 s

/-- `SubImmToRegMem` (42_arith.md R249). -/
def execSubImmToRegMem (_s : Bool) (w : Width) (rm : RmOp) (data : Word) (s : State) :
    Host.Outcome State Fault Refusal :=
  arith .sub w rm.place (.imm data) s

/-- `SubImmToAcc` (42_arith.md R250). -/
def execSubImmToAcc (w : Width) (data : Word) (s : State) : Host.Outcome State Fault Refusal :=
  arith .sub w (.reg .ax) (.imm data) s

/-- `Cmp` (42_arith.md R251). -/
def execCmp (d : Bool) (w : Width) (reg : Reg) (rm : RmOp) (s : State) : Host.Outcome State Fault Refusal :=
  arith .cmp w (rmOperands d reg rm).1 (rmOperands d reg rm).2 s

/-- `CmpImmToRegMem` (42_arith.md R252). -/
def execCmpImmToRegMem (_s : Bool) (w : Width) (rm : RmOp) (data : Word) (s : State) :
    Host.Outcome State Fault Refusal :=
  arith .cmp w rm.place (.imm data) s

/-- `CmpImmToAcc` (42_arith.md R253). -/
def execCmpImmToAcc (w : Width) (data : Word) (s : State) : Host.Outcome State Fault Refusal :=
  arith .cmp w (.reg .ax) (.imm data) s

end Sys2Proof.Machine
end

