-- ==== Sys2Proof/Machine/Jumps.lean ====
section
/-!
DEFINITION. Conditional jumps and loops (43_jumps.md R290 to R312).
-/

namespace Sys2Proof.Machine

/-- `rec.start + rec.ip_inc`, an exact integer (43_jumps.md R291); `pc` is the instruction's offset (10_state.md R37). -/
def jumpTarget (ipInc : Int) (s : State) : Int := (s.pc.toNat : Int) + ipInc

/-- The target is an offset 0..L (43_jumps.md R291). -/
def targetInBuffer (ipInc : Int) (s : State) : Bool :=
  0 ≤ jumpTarget ipInc s ∧ jumpTarget ipInc s ≤ (s.buf.length : Int)

/-- `Jump(rec, c)` (43_jumps.md R290, R291). Under `linear` nothing is evaluated and `pc` follows the cursor. Under `taken`
`done` holds the instruction's own writes, which a fault discards. -/
def jump (ipInc : Int) (c : Bool) (done s : State) : Host.Outcome State Fault Refusal :=
  match s.params.branch with
  | .linear => .next (advance s)
  | .taken =>
    if c then
      if targetInBuffer ipInc s then .next { done with pc := BitVec.ofInt 16 (jumpTarget ipInc s) }
      else .next (fail .branchOutOfBuffer s.pc.toNat s)
    else .next (advance done)

/-- `CX' = (x[1] - 1) mod 2^16` (43_jumps.md R309 to R311). -/
def loopCount (s : State) : Word := s.reg .cx - 1

/-- A loop: CX is written whether or not the jump is taken, and not on a fault (43_jumps.md R309 to R311, R291). -/
def loopJump (ipInc : Int) (c : Bool) (s : State) : Host.Outcome State Fault Refusal :=
  jump ipInc c (s.setReg .cx (loopCount s)) s

/-- `jo` (43_jumps.md R293). -/
def execJo (ipInc : Int) (s : State) : Host.Outcome State Fault Refusal :=
  jump ipInc (s.flags.o) s s

/-- `jno` (43_jumps.md R294). -/
def execJno (ipInc : Int) (s : State) : Host.Outcome State Fault Refusal :=
  jump ipInc (!s.flags.o) s s

/-- `jb` (43_jumps.md R295). -/
def execJb (ipInc : Int) (s : State) : Host.Outcome State Fault Refusal :=
  jump ipInc (s.flags.c) s s

/-- `jnb` (43_jumps.md R296). -/
def execJnb (ipInc : Int) (s : State) : Host.Outcome State Fault Refusal :=
  jump ipInc (!s.flags.c) s s

/-- `je` (43_jumps.md R297). -/
def execJe (ipInc : Int) (s : State) : Host.Outcome State Fault Refusal :=
  jump ipInc (s.flags.z) s s

/-- `jne` (43_jumps.md R298). -/
def execJne (ipInc : Int) (s : State) : Host.Outcome State Fault Refusal :=
  jump ipInc (!s.flags.z) s s

/-- `jbe` (43_jumps.md R299). -/
def execJbe (ipInc : Int) (s : State) : Host.Outcome State Fault Refusal :=
  jump ipInc (s.flags.c || s.flags.z) s s

/-- `ja` (43_jumps.md R300). -/
def execJa (ipInc : Int) (s : State) : Host.Outcome State Fault Refusal :=
  jump ipInc (!s.flags.c && !s.flags.z) s s

/-- `js` (43_jumps.md R301). -/
def execJs (ipInc : Int) (s : State) : Host.Outcome State Fault Refusal :=
  jump ipInc (s.flags.s) s s

/-- `jns` (43_jumps.md R302). -/
def execJns (ipInc : Int) (s : State) : Host.Outcome State Fault Refusal :=
  jump ipInc (!s.flags.s) s s

/-- `jp` (43_jumps.md R303). -/
def execJp (ipInc : Int) (s : State) : Host.Outcome State Fault Refusal :=
  jump ipInc (s.flags.p) s s

/-- `jnp` (43_jumps.md R304). -/
def execJnp (ipInc : Int) (s : State) : Host.Outcome State Fault Refusal :=
  jump ipInc (!s.flags.p) s s

/-- `jl` (43_jumps.md R305). -/
def execJl (ipInc : Int) (s : State) : Host.Outcome State Fault Refusal :=
  jump ipInc (s.flags.s != s.flags.o) s s

/-- `jnl` (43_jumps.md R306). -/
def execJnl (ipInc : Int) (s : State) : Host.Outcome State Fault Refusal :=
  jump ipInc (s.flags.s == s.flags.o) s s

/-- `jle` (43_jumps.md R307). -/
def execJle (ipInc : Int) (s : State) : Host.Outcome State Fault Refusal :=
  jump ipInc (s.flags.z || s.flags.s != s.flags.o) s s

/-- `jg` (43_jumps.md R308). -/
def execJg (ipInc : Int) (s : State) : Host.Outcome State Fault Refusal :=
  jump ipInc (!s.flags.z && s.flags.s == s.flags.o) s s

/-- `loopnz` (43_jumps.md R309). -/
def execLoopnz (ipInc : Int) (s : State) : Host.Outcome State Fault Refusal :=
  loopJump ipInc (loopCount s != 0 && !s.flags.z) s

/-- `loopz` (43_jumps.md R310). -/
def execLoopz (ipInc : Int) (s : State) : Host.Outcome State Fault Refusal :=
  loopJump ipInc (loopCount s != 0 && s.flags.z) s

/-- `loop` (43_jumps.md R311). -/
def execLoop (ipInc : Int) (s : State) : Host.Outcome State Fault Refusal :=
  loopJump ipInc (loopCount s != 0) s

/-- `jcxz` (43_jumps.md R312): CX is read, not written. -/
def execJcxz (ipInc : Int) (s : State) : Host.Outcome State Fault Refusal :=
  jump ipInc (s.reg .cx == 0) s s

end Sys2Proof.Machine
end

