-- ==== Sys2Proof/Machine/Mov.lean ====
section
/-!
DEFINITION. Data transfer (41_mov.md R220 to R224).
-/

namespace Sys2Proof.Machine

/-- What the five forms share: refuse a byte register the model has no storage for (40_execute.md R208), read the source,
write the destination, and let `pc` follow the cursor (40_execute.md R201). -/
def mov (w : Width) (dst : Place) (src : Source) (s : State) : Host.Outcome State Fault Refusal :=
  if operandsRefused w dst src s then .next (fail .unmodelledReg8High s.pc.toNat s)
  else
    let (v, s1) := readSource w src s
    .next (advance (writePlace w dst v s1))

/-- `MovRegMemToReg` (41_mov.md R220). -/
def execMovRegMemToReg (d : Bool) (w : Width) (reg : Reg) (rm : RmOp) (s : State) :
    Host.Outcome State Fault Refusal :=
  mov w (rmOperands d reg rm).1 (rmOperands d reg rm).2 s

/-- `MovImmToRegMem` (41_mov.md R221). -/
def execMovImmToRegMem (w : Width) (rm : RmOp) (data : Word) (s : State) : Host.Outcome State Fault Refusal :=
  mov w rm.place (.imm data) s

/-- `MovImmToReg` (41_mov.md R222). -/
def execMovImmToReg (w : Width) (reg : Reg) (data : Word) (s : State) : Host.Outcome State Fault Refusal :=
  mov w (.reg reg) (.imm data) s

/-- `MovMemToAcc` (41_mov.md R223). -/
def execMovMemToAcc (w : Width) (addr : Word) (s : State) : Host.Outcome State Fault Refusal :=
  mov w (.reg .ax) (.place (.direct addr)) s

/-- `MovAccToMem` (41_mov.md R224). -/
def execMovAccToMem (w : Width) (addr : Word) (s : State) : Host.Outcome State Fault Refusal :=
  mov w (.direct addr) (.place (.reg .ax)) s

end Sys2Proof.Machine
end

