-- ==== Sys2Proof/Machine/Dispatch.lean ====
section
/-!
DEFINITION. `Exec(rec)` with its `pc <- NextPc(rec)` (40_execute.md R201): one arm per instruction kind. It runs in execute
mode only (R202), with `pc` at the instruction's first byte and `cur` past its last (10_state.md R37, log 7). It answers on
ill-formed terms too, which no bytes decode to (log 18).
-/

namespace Sys2Proof.Machine

def exec (i : Instr) (s : State) : Host.Outcome State Fault Refusal :=
  match i with
  | .movRegMemToReg d w reg rm => Sys2Proof.Machine.execMovRegMemToReg d w reg rm s
  | .movImmToRegMem w rm data => Sys2Proof.Machine.execMovImmToRegMem w rm data s
  | .movImmToReg w reg data => Sys2Proof.Machine.execMovImmToReg w reg data s
  | .movMemToAcc w addr => Sys2Proof.Machine.execMovMemToAcc w addr s
  | .movAccToMem w addr => Sys2Proof.Machine.execMovAccToMem w addr s
  | .add d w reg rm => Sys2Proof.Machine.execAdd d w reg rm s
  | .addImmToRegMem sx w rm data => Sys2Proof.Machine.execAddImmToRegMem sx w rm data s
  | .addImmToAcc w data => Sys2Proof.Machine.execAddImmToAcc w data s
  | .sub d w reg rm => Sys2Proof.Machine.execSub d w reg rm s
  | .subImmToRegMem sx w rm data => Sys2Proof.Machine.execSubImmToRegMem sx w rm data s
  | .subImmToAcc w data => Sys2Proof.Machine.execSubImmToAcc w data s
  | .cmp d w reg rm => Sys2Proof.Machine.execCmp d w reg rm s
  | .cmpImmToRegMem sx w rm data => Sys2Proof.Machine.execCmpImmToRegMem sx w rm data s
  | .cmpImmToAcc w data => Sys2Proof.Machine.execCmpImmToAcc w data s
  | .jo ipInc => Sys2Proof.Machine.execJo ipInc s
  | .jno ipInc => Sys2Proof.Machine.execJno ipInc s
  | .jb ipInc => Sys2Proof.Machine.execJb ipInc s
  | .jnb ipInc => Sys2Proof.Machine.execJnb ipInc s
  | .je ipInc => Sys2Proof.Machine.execJe ipInc s
  | .jne ipInc => Sys2Proof.Machine.execJne ipInc s
  | .jbe ipInc => Sys2Proof.Machine.execJbe ipInc s
  | .ja ipInc => Sys2Proof.Machine.execJa ipInc s
  | .js ipInc => Sys2Proof.Machine.execJs ipInc s
  | .jns ipInc => Sys2Proof.Machine.execJns ipInc s
  | .jp ipInc => Sys2Proof.Machine.execJp ipInc s
  | .jnp ipInc => Sys2Proof.Machine.execJnp ipInc s
  | .jl ipInc => Sys2Proof.Machine.execJl ipInc s
  | .jnl ipInc => Sys2Proof.Machine.execJnl ipInc s
  | .jle ipInc => Sys2Proof.Machine.execJle ipInc s
  | .jg ipInc => Sys2Proof.Machine.execJg ipInc s
  | .loopnz ipInc => Sys2Proof.Machine.execLoopnz ipInc s
  | .loopz ipInc => Sys2Proof.Machine.execLoopz ipInc s
  | .loop ipInc => Sys2Proof.Machine.execLoop ipInc s
  | .jcxz ipInc => Sys2Proof.Machine.execJcxz ipInc s

end Sys2Proof.Machine
end

