-- ==== Sys2Proof/Machine/Listing.lean ====
section
/-!
DEFINITION. The listing text of an instruction (30_encoding.md R130 to R136).
-/

namespace Sys2Proof.Machine

/-! ### Numbers -/

/-- A digit in lower-case hexadecimal (70_reset_and_hazards.md R366). -/
def digitChar (d : Nat) : Char := "0123456789abcdef".toList.getD d '0'

/-- `n` in the given base without leading zeros, at most `fuel` digits (log 21). -/
def digits (base : Nat) : Nat → Nat → Text
  | 0, _ => []
  | fuel + 1, n =>
    if n < base then [digitChar n] else digits base fuel (n / base) ++ [digitChar (n % base)]

/-- An unsigned number in decimal (30_encoding.md R132). -/
def decimal (n : Nat) : Text := digits 10 20 n

/-- A signed number in decimal, with a leading `-` when negative (30_encoding.md R133). -/
def signedDecimal (k : Int) : Text := if k < 0 then '-' :: decimal k.natAbs else decimal k.natAbs

/-- A word in lower-case hexadecimal without leading zeros (70_reset_and_hazards.md R366). -/
def hex (v : Word) : Text := digits 16 4 v.toNat

/-- A word as four hexadecimal digits (70_reset_and_hazards.md R368). -/
def hex4 (v : Word) : Text := List.replicate (4 - (hex v).length) '0' ++ hex v

/-! ### Operands -/

/-- The 16-bit register names (30_encoding.md R131). -/
def name16 : Reg → Text
  | .ax => "ax".toList
  | .cx => "cx".toList
  | .dx => "dx".toList
  | .bx => "bx".toList
  | .sp => "sp".toList
  | .bp => "bp".toList
  | .si => "si".toList
  | .di => "di".toList

/-- The byte register names (30_encoding.md R131). -/
def name8 : ByteReg → Text
  | .al => "al".toList
  | .cl => "cl".toList
  | .dl => "dl".toList
  | .bl => "bl".toList
  | .ah => "ah".toList
  | .ch => "ch".toList
  | .dh => "dh".toList
  | .bh => "bh".toList

/-- A register operand (30_encoding.md R131). -/
def regText (w : Width) (r : Reg) : Text :=
  match w with
  | .byte => name8 (byteReg r)
  | .word => name16 r

/-- The text of a base expression (30_encoding.md R114). -/
def baseText : Base → Text
  | .bxSi => "bx + si".toList
  | .bxDi => "bx + di".toList
  | .bpSi => "bp + si".toList
  | .bpDi => "bp + di".toList
  | .si => "si".toList
  | .di => "di".toList
  | .bp => "bp".toList
  | .bx => "bx".toList

/-- A displacement: empty when zero, else ` + N` or ` - N` (30_encoding.md R132). -/
def dispText (disp : Word) : Text :=
  if disp.toInt = 0 then []
  else if disp.toInt < 0 then " - ".toList ++ decimal disp.toInt.natAbs
  else " + ".toList ++ decimal disp.toInt.natAbs

/-- A direct address (30_encoding.md R132). -/
def directText (a : Word) : Text := "[".toList ++ decimal a.toNat ++ "]".toList

/-- A register or memory operand (30_encoding.md R131, R132). -/
def placeText (w : Width) (p : Place) : Text :=
  match p with
  | .reg r => regText w r
  | .mem b disp => "[".toList ++ baseText b ++ dispText disp ++ "]".toList
  | .direct a => directText a

/-- `sint_W(data)` in decimal (30_encoding.md R133). -/
def immText (w : Width) (data : Word) : Text := signedDecimal (data.setWidth w.bits).toInt

/-- The size keyword of an immediate to memory, with its space; none for a register (30_encoding.md R133). -/
def sizeKeyword (w : Width) (dst : Place) : Text :=
  match dst, w with
  | .reg _, _ => []
  | _, .byte => "byte ".toList
  | _, .word => "word ".toList

/-- A source operand beside its destination (30_encoding.md R131 to R133). -/
def sourceText (w : Width) (dst : Place) (src : Source) : Text :=
  match src with
  | .place p => placeText w p
  | .imm data => sizeKeyword w dst ++ immText w data

/-- A line with a destination and a source (30_encoding.md R130). -/
def twoOperandText (mnemonic : Text) (w : Width) (dst : Place) (src : Source) : Text :=
  mnemonic ++ " ".toList ++ placeText w dst ++ ", ".toList ++ sourceText w dst src

/-- A jump's line: the target as a signed offset from its first byte (30_encoding.md R135). -/
def jumpText (mnemonic : Text) (ipInc : Int) : Text :=
  mnemonic ++ (if ipInc < 0 then " $-".toList else " $+".toList) ++ decimal ipInc.natAbs

/-- `Text(rec)`: the listing line of an instruction (30_encoding.md R130 to R136). -/
def instrText : Instr → Text
  | .movRegMemToReg d w reg rm => twoOperandText "mov".toList w (rmOperands d reg rm).1 (rmOperands d reg rm).2
  | .movImmToRegMem w rm data => twoOperandText "mov".toList w rm.place (.imm data)
  | .movImmToReg w reg data => twoOperandText "mov".toList w (.reg reg) (.imm data)
  | .movMemToAcc w addr => twoOperandText "mov".toList w (.reg .ax) (.place (.direct addr))
  | .movAccToMem w addr => twoOperandText "mov".toList w (.direct addr) (.place (.reg .ax))
  | .add d w reg rm => twoOperandText "add".toList w (rmOperands d reg rm).1 (rmOperands d reg rm).2
  | .addImmToRegMem _ w rm data => twoOperandText "add".toList w rm.place (.imm data)
  | .addImmToAcc w data => twoOperandText "add".toList w (.reg .ax) (.imm data)
  | .sub d w reg rm => twoOperandText "sub".toList w (rmOperands d reg rm).1 (rmOperands d reg rm).2
  | .subImmToRegMem _ w rm data => twoOperandText "sub".toList w rm.place (.imm data)
  | .subImmToAcc w data => twoOperandText "sub".toList w (.reg .ax) (.imm data)
  | .cmp d w reg rm => twoOperandText "cmp".toList w (rmOperands d reg rm).1 (rmOperands d reg rm).2
  | .cmpImmToRegMem _ w rm data => twoOperandText "cmp".toList w rm.place (.imm data)
  | .cmpImmToAcc w data => twoOperandText "cmp".toList w (.reg .ax) (.imm data)
  | .jo k => jumpText "jo".toList k
  | .jno k => jumpText "jno".toList k
  | .jb k => jumpText "jb".toList k
  | .jnb k => jumpText "jnb".toList k
  | .je k => jumpText "je".toList k
  | .jne k => jumpText "jne".toList k
  | .jbe k => jumpText "jbe".toList k
  | .ja k => jumpText "ja".toList k
  | .js k => jumpText "js".toList k
  | .jns k => jumpText "jns".toList k
  | .jp k => jumpText "jp".toList k
  | .jnp k => jumpText "jnp".toList k
  | .jl k => jumpText "jl".toList k
  | .jnl k => jumpText "jnl".toList k
  | .jle k => jumpText "jle".toList k
  | .jg k => jumpText "jg".toList k
  | .loopnz k => jumpText "loopnz".toList k
  | .loopz k => jumpText "loopz".toList k
  | .loop k => jumpText "loop".toList k
  | .jcxz k => jumpText "jcxz".toList k

end Sys2Proof.Machine
end

