-- ==== Sys2Proof/Machine/Report.lean ====
section
/-!
DEFINITION. What a step reports (40_execute.md R209): the trace line, the final dump and the run's outcome
(70_reset_and_hazards.md R363 to R368).
-/

namespace Sys2Proof.Machine

/-- The register a `mov` form writes: the 16-bit register of its destination (40_execute.md R209). -/
def reportedMov (w : Width) (dst : Place) : Option Reg := placeHolder w dst

/-- The register an ALU form writes; `cmp` writes none (42_arith.md R242). -/
def reportedArith (op : AluOp) (w : Width) (dst : Place) : Option Reg :=
  if writesResult op then placeHolder w dst else none

/-- The register a loop writes: CX, under `taken` only (43_jumps.md R290, R309 to R311). -/
def reportedLoop (m : BranchModel) : Option Reg :=
  match m with
  | .linear => none
  | .taken => some .cx

/-- The general register that an instruction writes when it completes; no instruction writes more than one
(40_execute.md R209, 70_reset_and_hazards.md R366). -/
def reportedReg (m : BranchModel) : Instr → Option Reg
  | .movRegMemToReg d w reg rm => reportedMov w (rmOperands d reg rm).1
  | .movImmToRegMem w rm _ => reportedMov w rm.place
  | .movImmToReg w reg _ => reportedMov w (.reg reg)
  | .movMemToAcc w _ => reportedMov w (.reg .ax)
  | .movAccToMem w addr => reportedMov w (.direct addr)
  | .add d w reg rm => reportedArith .add w (rmOperands d reg rm).1
  | .addImmToRegMem _ w rm _ => reportedArith .add w rm.place
  | .addImmToAcc w _ => reportedArith .add w (.reg .ax)
  | .sub d w reg rm => reportedArith .sub w (rmOperands d reg rm).1
  | .subImmToRegMem _ w rm _ => reportedArith .sub w rm.place
  | .subImmToAcc w _ => reportedArith .sub w (.reg .ax)
  | .cmp d w reg rm => reportedArith .cmp w (rmOperands d reg rm).1
  | .cmpImmToRegMem _ w rm _ => reportedArith .cmp w rm.place
  | .cmpImmToAcc w _ => reportedArith .cmp w (.reg .ax)
  | .jo _ | .jno _ | .jb _ | .jnb _ | .je _ | .jne _ | .jbe _ | .ja _ | .js _ | .jns _ | .jp _ | .jnp _ | .jl _
  | .jnl _ | .jle _ | .jg _ | .jcxz _ => none
  | .loopnz _ | .loopz _ | .loop _ => reportedLoop m

/-- The letters of the set flags in the order C, P, A, Z, S, O (70_reset_and_hazards.md R366). -/
def flagLetters (f : Flags) : Text :=
  (if f.c then "C".toList else []) ++ (if f.p then "P".toList else []) ++ (if f.a then "A".toList else []) ++
  (if f.z then "Z".toList else []) ++ (if f.s then "S".toList else []) ++ (if f.o then "O".toList else [])

/-- ` name:0xOLD->0xNEW` (70_reset_and_hazards.md R366, R367). -/
def changeField (name : Text) (old new : Word) : Text :=
  " ".toList ++ name ++ ":0x".toList ++ hex old ++ "->0x".toList ++ hex new

/-- The register field of a trace line: present for every register written, changed or not (70_reset_and_hazards.md R366). -/
def regField (r : Option Reg) (s t : State) : Text :=
  match r with
  | none => []
  | some r => changeField (name16 r) (s.reg r) (t.reg r)

/-- The `ip` field, with `TRACE_IP` only (70_reset_and_hazards.md R367). -/
def ipField (s t : State) : Text :=
  if s.params.traceIp then changeField "ip".toList s.pc t.pc else []

/-- The flags field, when a flag changed (70_reset_and_hazards.md R366). -/
def flagsField (s t : State) : Text :=
  if s.flags = t.flags then []
  else " flags:".toList ++ flagLetters s.flags ++ "->".toList ++ flagLetters t.flags

/-- `TraceLine(rec)` for a step from `s` to `t` (70_reset_and_hazards.md R366). -/
def traceLine (i : Instr) (s t : State) : Text :=
  instrText i ++ " ;".toList ++ regField (reportedReg s.params.branch i) s t ++ ipField s t ++ flagsField s t

/-- The line a step emits: the listing line in decode-only mode, the trace line in execute mode
(70_reset_and_hazards.md R364, R365). -/
def emittedLine (i : Instr) (s t : State) : Text :=
  if s.params.execute then traceLine i s t else instrText i

/-- The registers in code order (10_state.md R31). -/
def allRegs : List Reg := [.ax, .cx, .dx, .bx, .sp, .bp, .si, .di]

/-- `      <name>: 0x<hhhh> (<decimal>)` (70_reset_and_hazards.md R368). -/
def dumpValue (name : Text) (v : Word) : Text :=
  "      ".toList ++ name ++ ": 0x".toList ++ hex4 v ++ " (".toList ++ decimal v.toNat ++ ")".toList

/-- The dump's lines (70_reset_and_hazards.md R368). -/
def dumpLines (s : State) : List Text :=
  ["Final registers:".toList] ++
  (allRegs.filter fun r => s.reg r ≠ 0).map (fun r => dumpValue (name16 r) (s.reg r)) ++
  (if s.params.traceIp && s.pc ≠ 0 then [dumpValue "ip".toList s.pc] else []) ++
  (if s.flags = Flags.clear then [] else ["   flags: ".toList ++ flagLetters s.flags])

/-- The final dump: in execute mode, of a run that ended in `halted` (70_reset_and_hazards.md R365, R368). It is a function
of the final state, so it is computed and not stored (log 10). -/
def finalDump (s : State) : Option (List Text) :=
  match s.run with
  | .decoding => none
  | .halted => if s.params.execute then some (dumpLines s) else none
  | .failed _ => none

/-- The outcome handed to the host when the run state leaves `decoding` (70_reset_and_hazards.md R363): the error if any,
the records (all of them, or the prefix), the lines, the dump, the memory events and the final state. -/
structure RunOutcome where
  error   : Option RunError
  records : List Record
  lines   : List Text
  dump    : Option (List Text)
  events  : List Event
  final   : State
  deriving DecidableEq, Repr

/-- The error of a failed run (60_exceptions.md R330). -/
def runError (s : State) : Option RunError :=
  match s.run with
  | .decoding => none
  | .halted => none
  | .failed e => some e

/-- The run's outcome; none while it is decoding (70_reset_and_hazards.md R363). -/
def runOutcome (s : State) : Option RunOutcome :=
  match s.run with
  | .decoding => none
  | _ =>
    some { error := runError s, records := s.records, lines := s.lines, dump := finalDump s, events := s.events,
           final := s }

end Sys2Proof.Machine
end

