-- ==== Sys2Proof/Machine/Cycle.lean ====
section
/-!
DEFINITION. One step of the core while the run is decoding (40_execute.md R201), and what a step answers once the run has
ended (10_state.md R47).
-/

namespace Sys2Proof.Machine

/-- The bytes from the position of the next decode to the end of the buffer. -/
def fetchBytes (s : State) : List Byte := s.buf.drop s.fetchPos

/-- The cursor at an offset past the position of the next decode (00_scope.md R17). -/
def fetched (n : Nat) (s : State) : State := { s with cur := s.fetchPos + n }

/-- The run state after a step that completed: `halted` when the next decode would be at L (40_execute.md R201). -/
def haltAtEnd (s : State) : State := if s.fetchPos = s.buf.length then { s with run := .halted } else s

/-- The end of a step that completed: the record and the line go to the host, and the run halts at the end of the buffer
(40_execute.md R201, 70_reset_and_hazards.md R369). `s` is the state after decoding, `t` the state after execution. -/
def finish (rec : Record) (s t : State) : State :=
  haltAtEnd { t with
    records := t.records ++ [rec]
    lines := t.lines ++ [emittedLine rec.instr s t] }

/-- The end of a step whose instruction was executed: one that failed emits nothing (60_exceptions.md R333). -/
def finishExec (rec : Record) (s t : State) : State :=
  match t.run with
  | .failed _ => t
  | _ => finish rec s t

/-- Execute a decoded instruction (40_execute.md R201), or in decode-only mode let `pc` follow the cursor and change nothing
else (R202). -/
def execute (rec : Record) (s : State) : Host.Outcome State Fault Refusal :=
  if s.params.execute then
    match exec rec.instr s with
    | .next t => .next (finishExec rec s t)
    | .fault f => .fault f
    | .refused r => .refused r
  else .next (finish rec s (advance s))

/-- `Step()` while the run state is `decoding` (40_execute.md R201). A decode error leaves the cursor where the fetches
stopped and ends the run (log 8). -/
def cycle (s : State) : Host.Outcome State Fault Refusal :=
  match decode (fetchBytes s) with
  | .malformed n => .next (fail .malformedOpcode s.fetchPos (fetched n s))
  | .truncated => .next (fail .truncatedStream s.fetchPos (fetched (fetchBytes s).length s))
  | .ok i rest =>
    let len := (fetchBytes s).length - rest.length
    execute ⟨s.fetchPos, len, i⟩ (fetched len s)

/-- A step that is not enabled, because the run has failed: a refusal after `Unmodelled`, of which the spec claims nothing
(60_exceptions.md R338), else a fault (log 6). -/
def stepFailed (e : RunError) : Host.Outcome State Fault Refusal :=
  match e.kind with
  | .unmodelledReg8High => .refused (.reg8High e.offset)
  | .malformedOpcode => .fault (.runFailed e)
  | .truncatedStream => .fault (.runFailed e)
  | .branchOutOfBuffer => .fault (.runFailed e)

/-- One step from any run state (40_execute.md R201, 10_state.md R47). -/
def anyStep (s : State) : Host.Outcome State Fault Refusal :=
  match s.run with
  | .decoding => cycle s
  | .halted => .fault .runHalted
  | .failed e => stepFailed e

end Sys2Proof.Machine
end

