-- ==== Sys2Proof/Machine/Launch.lean ====
section
/-!
DEFINITION. Creation of the core from the host's launch inputs (70_reset_and_hazards.md R360, R361), and the load that the
fixed name `State.withFetchWord` stands for.
-/

namespace Sys2Proof.Machine

/-- The launch inputs (70_reset_and_hazards.md R361). `regs` and `flags` count under `RESET_STATE = free`, `cells` under
`MEM_MODEL = array64k`. -/
structure Launch where
  params : Params
  buf    : List Byte
  regs   : Regs
  flags  : Flags
  cells  : List Host.Cell
  deriving DecidableEq, Repr

/-- The registers at creation (10_state.md R48, R49). -/
def launchRegs (l : Launch) : Regs :=
  match l.params.resetState with
  | .zero => Regs.zero
  | .free => l.regs

/-- The flags at creation (10_state.md R48, R49). -/
def launchFlags (l : Launch) : Flags :=
  match l.params.resetState with
  | .zero => Flags.clear
  | .free => l.flags

/-- Data memory at creation: none under `oracle`, the launch bytes under `array64k` (20_memory.md R76, R79). -/
def launchMem (l : Launch) : Memory :=
  match l.params.memModel with
  | .oracle => []
  | .array64k => Memory.ofCells l.cells

/-- The state at creation (10_state.md R48, R49; 70_reset_and_hazards.md R360). -/
def launched (l : Launch) : State :=
  { params := l.params, regs := launchRegs l, flags := launchFlags l, pc := 0, cur := 0,
    run := if l.buf.length = 0 then .halted else .decoding,
    buf := l.buf, mem := launchMem l, records := [], lines := [], events := [], draws := 0 }

/-- The host's `create` transaction (70_reset_and_hazards.md R369): a buffer over 65,535 bytes is refused
(00_scope.md R13, 93_implementation_defined.md I13; log 22). -/
def create (l : Launch) : Host.Outcome State Fault Refusal :=
  if l.buf.length ≤ Config.maxBuffer then .next (launched l) else .refused (.bufferTooLong l.buf.length)

/-- `bytes` written over `buf` at `pos`; a gap before `pos` is filled with zeros (log 17). -/
def overlay (buf : List Byte) (pos : Nat) (bytes : List Byte) : List Byte :=
  buf.take pos ++ List.replicate (pos - buf.length) 0 ++ bytes ++ buf.drop (pos + bytes.length)

/-- The state with the bytes at the position of the next decode and the run decoding: it stands for a host that created the
core with such a buffer (log 2). -/
def loadAtFetch (s : State) (bytes : List Byte) : State :=
  { s with buf := overlay s.buf s.fetchPos bytes, run := .decoding }

end Sys2Proof.Machine
end

