-- ==== Sys2Proof/Machine/Step.lean ====
section
/-!
DEFINITION. The step (40_execute.md R201) and the placement of one instruction where it fetches.
-/

namespace Sys2Proof.Machine

/-- One step of the core (40_execute.md R201). -/
def step (s : State) : Host.Outcome State Fault Refusal := anyStep s

/-- `s` with the instruction of an opcode-table word where the next step fetches (log 2). -/
def State.withFetchWord (s : State) (nbits w : Nat) : State := loadAtFetch s (tableBytes nbits w)

end Sys2Proof.Machine
end

