-- ==== Sys2Proof/Safety.lean ====
section
/-!
DEFINITION. What counts as a legal state, and the vocabulary in which the obligations speak of an instruction: what it reads,
where it writes, when it is refused, and when it jumps. Each is written from the spec's rules, beside the meanings and not
from them.
-/

namespace Sys2Proof.Machine

/-! ### Legal states -/

/-- The legal states of the core: the bounds of 00_scope.md R13 and 10_state.md R45, `pc` as bytes consumed (R37), the run
state's positions (R47, 60_exceptions.md R333, R330), memory in its canonical form and absent under `oracle`
(20_memory.md R76), and one line per record (70_reset_and_hazards.md R369). -/
structure State.Inv (s : State) : Prop where
  /-- 00_scope.md R13. -/
  bufLe : s.buf.length ≤ Config.maxBuffer
  /-- 10_state.md R45. -/
  curLe : s.cur ≤ s.buf.length
  /-- 10_state.md R37, R38; 43_jumps.md R291. -/
  pcLe : s.pc.toNat ≤ s.buf.length
  /-- Where the run does not follow branches, `pc` is the number of bytes consumed (10_state.md R37). -/
  pcEqCur : s.branching = false → (∀ e, s.run ≠ .failed e) → s.pc.toNat = s.cur
  /-- `decoding`: the cursor has remaining bytes (10_state.md R47). -/
  decodingAt : s.run = .decoding → s.fetchPos < s.buf.length
  /-- `halted`: the cursor is exhausted (10_state.md R47). -/
  haltedAt : s.run = .halted → s.fetchPos = s.buf.length
  /-- `failed(e)`: `pc` equals `e.offset`, which is inside the buffer (60_exceptions.md R333). -/
  failedAt : ∀ e, s.run = .failed e → e.offset = s.pc.toNat ∧ e.offset < s.buf.length
  /-- Where `Unmodelled(Reg8High)` can be produced (60_exceptions.md R330). -/
  reg8HighIn : ∀ o, s.run = .failed ⟨.unmodelledReg8High, o⟩ → s.params.execute = true ∧ s.params.reg8 = .legacy
  /-- Where `BranchOutOfBuffer` can be produced (60_exceptions.md R330). -/
  branchOutIn : ∀ o, s.run = .failed ⟨.branchOutOfBuffer, o⟩ → s.branching = true
  /-- The memory list is in its canonical form. -/
  memWf : s.mem.wf
  /-- Under `oracle` there is no data memory (20_memory.md R76). -/
  memOracle : s.params.memModel = .oracle → s.mem = []
  /-- One line for each record (70_reset_and_hazards.md R369). -/
  linesEq : s.lines.length = s.records.length
  /-- In decode-only mode no access is recorded (20_memory.md R81). -/
  decodeOnlyEvents : s.params.execute = false → s.events = []

/-- Every record handed over is what the buffer decodes to at its `start`, and its `len` is how far that decoding reads
(30_encoding.md R121, R125). -/
def RecordsDecode (s : State) : Prop :=
  ∀ r ∈ s.records, decode (s.buf.drop r.start) = .ok r.instr (s.buf.drop (r.start + r.len))

/-- The event is a read (20_memory.md R76). -/
def Event.isRead : Event → Bool
  | .read _ _ _ _ => true
  | .write _ _ _ _ => false

/-! ### Encoding -/

/-- The bytes with the ignored `reg` field of 0xC6 and 0xC7 set to 000 (30_encoding.md R118, R126). -/
def ignoredRegCleared : List Byte → List Byte
  | b0 :: m :: tl => if b0 = 0xC6 ∨ b0 = 0xC7 then b0 :: (m &&& 0xC7) :: tl else b0 :: m :: tl
  | bs => bs

/-- The malformed first bytes (30_encoding.md R122, 60_exceptions.md R331). -/
def malformedFirst (b : Byte) : Bool :=
  let n := b.toNat
  (0x06 ≤ n ∧ n ≤ 0x27) ∨ (0x2E ≤ n ∧ n ≤ 0x37) ∨ (0x3E ≤ n ∧ n ≤ 0x6F) ∨ (0x84 ≤ n ∧ n ≤ 0x87) ∨
  (0x8C ≤ n ∧ n ≤ 0x9F) ∨ (0xA4 ≤ n ∧ n ≤ 0xAF) ∨ (0xC0 ≤ n ∧ n ≤ 0xC5) ∨ (0xC8 ≤ n ∧ n ≤ 0xDF) ∨ 0xE4 ≤ n

/-- The malformed `reg` values after 0x80-0x83 (30_encoding.md R117). -/
def malformedGroupReg (reg : BitVec 3) : Bool :=
  reg = 0b001 ∨ reg = 0b010 ∨ reg = 0b011 ∨ reg = 0b100 ∨ reg = 0b110

/-! ### What an instruction touches -/

/-- Codes 100 to 111 (60_exceptions.md R338). -/
def highCode (r : Reg) : Bool := r.code.toNat ≥ 4

/-- The `r/m` operand is a register (mod = 11) with code 100 to 111. -/
def rmHighCode (rm : RmOp) : Bool :=
  match rm with
  | .reg r => highCode r
  | .mem _ _ => false
  | .direct _ => false

/-- W = 8 and a register operand has code 100 to 111: the `reg` field, `rm` with mod = 11, or bits 2:0 of 0xB4-0xB7
(60_exceptions.md R338). -/
def usesHighByte : Instr → Bool
  | .movRegMemToReg _ w reg rm | .add _ w reg rm | .sub _ w reg rm | .cmp _ w reg rm =>
    w = .byte && (highCode reg || rmHighCode rm)
  | .movImmToRegMem w rm _ | .addImmToRegMem _ w rm _ | .subImmToRegMem _ w rm _ | .cmpImmToRegMem _ w rm _ =>
    w = .byte && rmHighCode rm
  | .movImmToReg w reg _ => w = .byte && highCode reg
  | .movMemToAcc _ _ | .movAccToMem _ _ => false
  | .addImmToAcc _ _ | .subImmToAcc _ _ | .cmpImmToAcc _ _ => false
  | .jo _ | .jno _ | .jb _ | .jnb _ | .je _ | .jne _ | .jbe _ | .ja _ | .js _ | .jns _ | .jp _ | .jnp _ | .jl _
  | .jnl _ | .jle _ | .jg _ | .loopnz _ | .loopz _ | .loop _ | .jcxz _ => false

/-- The instruction is refused in this state (40_execute.md R208). -/
def refusedIn (i : Instr) (s : State) : Bool := s.params.reg8 = .legacy && usesHighByte i

/-- The destination of the RM format (30_encoding.md R120). -/
def rmDst (d : Bool) (reg : Reg) (rm : RmOp) : Place := if d then .reg reg else rm.place

/-- The source of the RM format (30_encoding.md R120). -/
def rmSrc (d : Bool) (reg : Reg) (rm : RmOp) : Place := if d then rm.place else .reg reg

/-- The operand an instruction writes its result to, with its width; `cmp`, the jumps and the loops have none
(41_mov.md R220 to R224, 42_arith.md R242 to R253, 43_jumps.md R290). -/
def destination : Instr → Option (Width × Place)
  | .movRegMemToReg d w reg rm | .add d w reg rm | .sub d w reg rm => some (w, rmDst d reg rm)
  | .movImmToRegMem w rm _ | .addImmToRegMem _ w rm _ | .subImmToRegMem _ w rm _ => some (w, rm.place)
  | .movImmToReg w reg _ => some (w, .reg reg)
  | .movMemToAcc w _ | .addImmToAcc w _ | .subImmToAcc w _ => some (w, .reg .ax)
  | .movAccToMem w addr => some (w, .direct addr)
  | .cmp _ _ _ _ | .cmpImmToRegMem _ _ _ _ | .cmpImmToAcc _ _ => none
  | .jo _ | .jno _ | .jb _ | .jnb _ | .je _ | .jne _ | .jbe _ | .ja _ | .js _ | .jns _ | .jp _ | .jnp _ | .jl _
  | .jnl _ | .jle _ | .jg _ | .loopnz _ | .loopz _ | .loop _ | .jcxz _ => none

/-- The instruction is one of the ALU's nine kinds, the only ones that write flags (10_state.md R41). -/
def isAlu : Instr → Bool
  | .add _ _ _ _ | .addImmToRegMem _ _ _ _ | .addImmToAcc _ _ => true
  | .sub _ _ _ _ | .subImmToRegMem _ _ _ _ | .subImmToAcc _ _ => true
  | .cmp _ _ _ _ | .cmpImmToRegMem _ _ _ _ | .cmpImmToAcc _ _ => true
  | .movRegMemToReg _ _ _ _ | .movImmToRegMem _ _ _ | .movImmToReg _ _ _ | .movMemToAcc _ _ | .movAccToMem _ _ => false
  | .jo _ | .jno _ | .jb _ | .jnb _ | .je _ | .jne _ | .jbe _ | .ja _ | .js _ | .jns _ | .jp _ | .jnp _ | .jl _
  | .jnl _ | .jle _ | .jg _ | .loopnz _ | .loopz _ | .loop _ | .jcxz _ => false

/-- The instruction decrements CX under `BRANCH_MODEL = taken` (43_jumps.md R309 to R311). -/
def isLoop : Instr → Bool
  | .loopnz _ | .loopz _ | .loop _ => true
  | .movRegMemToReg _ _ _ _ | .movImmToRegMem _ _ _ | .movImmToReg _ _ _ | .movMemToAcc _ _ | .movAccToMem _ _ => false
  | .add _ _ _ _ | .addImmToRegMem _ _ _ _ | .addImmToAcc _ _ => false
  | .sub _ _ _ _ | .subImmToRegMem _ _ _ _ | .subImmToAcc _ _ => false
  | .cmp _ _ _ _ | .cmpImmToRegMem _ _ _ _ | .cmpImmToAcc _ _ => false
  | .jo _ | .jno _ | .jb _ | .jnb _ | .je _ | .jne _ | .jbe _ | .ja _ | .js _ | .jns _ | .jp _ | .jnp _ | .jl _
  | .jnl _ | .jle _ | .jg _ | .jcxz _ => false

/-- The value `ReadOp` gives for a place (40_execute.md R204). -/
def placeValue (w : Width) (p : Place) (s : State) : BitVec w.bits :=
  match p with
  | .reg r => regRead w r s
  | .mem b disp => memValue w (baseValue b s + disp) s
  | .direct a => memValue w a s

/-- The events of a place read: none for a register, one read for memory (20_memory.md R76, R78). -/
def placeReads (w : Width) (p : Place) (s : State) : List Event :=
  match placeAddr p s with
  | none => []
  | some a => [.read s.pc.toNat a w ((memValue w a s).setWidth 16)]

/-- The events of a place write: none for a register, one write for memory (20_memory.md R77, R78). -/
def placeWrites (w : Width) (p : Place) (v : BitVec w.bits) (s : State) : List Event :=
  match placeAddr p s with
  | none => []
  | some a => [.write s.pc.toNat a w (v.setWidth 16)]

/-- From `s` to `t` exactly these data accesses were made: their events were recorded, the reads first (20_memory.md R81),
and under `oracle` each read took one draw (R76, log 4). -/
def Accessed (reads writes : List Event) (s t : State) : Prop :=
  t.events = s.events ++ reads ++ writes ∧
  t.draws = s.draws + (if s.params.memModel = .oracle then reads.length else 0)

/-- What `WriteOp(dst, W, v)` leaves of registers and memory, from `s` to `t` (40_execute.md R205). A register destination is
written by `RegWrite` (10_state.md R34 to R36), reads as `v` and memory is unchanged; for a memory destination the registers
are unchanged, under `oracle` memory is too (20_memory.md R77), and under `array64k` `v` is stored at the effective address of
`s` and loaded from there (R78). -/
def Stored (w : Width) (dst : Place) (v : BitVec w.bits) (s t : State) : Prop :=
  (∀ r, dst = .reg r → t.regs = (regWrite w r v s).regs ∧ regRead w r t = v ∧ t.mem = s.mem) ∧
  ∀ a, placeAddr dst s = some a →
    t.regs = s.regs ∧ (s.params.memModel = .oracle → t.mem = s.mem) ∧
    (s.params.memModel = .array64k → t.mem = s.mem.store w a v ∧ t.mem.load w a = v)

/-- The 16-bit register an instruction writes when it completes, changed or not: the holder of a register destination, CX for a
loop under `taken` (40_execute.md R209, 43_jumps.md R309 to R311). -/
def writtenReg (i : Instr) (s : State) : Option Reg :=
  match destination i with
  | some (w, .reg r) => some (regHolder w r)
  | some (_, .mem _ _) => none
  | some (_, .direct _) => none
  | none => if isLoop i = true ∧ s.params.branch = .taken then some .cx else none

/-! ### Jumps -/

/-- The condition of a jump or loop, evaluated before it writes anything (43_jumps.md R293 to R312). -/
def jumpCond (j : JumpOp) (s : State) : Bool :=
  let f := s.flags
  let cx := s.reg .cx
  match j with
  | .jo => f.o
  | .jno => !f.o
  | .jb => f.c
  | .jnb => !f.c
  | .je => f.z
  | .jne => !f.z
  | .jbe => f.c || f.z
  | .ja => !f.c && !f.z
  | .js => f.s
  | .jns => !f.s
  | .jp => f.p
  | .jnp => !f.p
  | .jl => f.s ^^ f.o
  | .jnl => !(f.s ^^ f.o)
  | .jle => f.z || (f.s ^^ f.o)
  | .jg => !f.z && !(f.s ^^ f.o)
  | .loopnz => cx - 1 ≠ 0 ∧ f.z = false
  | .loopz => cx - 1 ≠ 0 ∧ f.z = true
  | .loop => cx - 1 ≠ 0
  | .jcxz => cx = 0

/-- The jump decrements CX (43_jumps.md R309 to R312). -/
def jumpIsLoop : JumpOp → Bool
  | .loopnz | .loopz | .loop => true
  | .jo | .jno | .jb | .jnb | .je | .jne | .jbe | .ja | .js | .jns | .jp | .jnp | .jl | .jnl | .jle | .jg | .jcxz => false

/-- CX after a jump under `taken`: the loops decrement it modulo 2^16 (43_jumps.md R309 to R312). -/
def cxAfter (j : JumpOp) (s : State) : Word := if jumpIsLoop j then s.reg .cx - 1 else s.reg .cx

/-! ### Text -/

/-- A number in decimal, without leading zeros (30_encoding.md R132). -/
def decimalDigits (n : Nat) : Text := Nat.toDigits 10 n

/-- `hex(v)`: lower-case hexadecimal without leading zeros (70_reset_and_hazards.md R366). -/
def hexDigits (v : Word) : Text := Nat.toDigits 16 v.toNat

/-- `hhhh`: four lower-case hexadecimal digits (70_reset_and_hazards.md R368). -/
def fourHexDigits (v : Word) : Text :=
  [v.toNat / 4096, v.toNat / 256 % 16, v.toNat / 16 % 16, v.toNat % 16].map Nat.digitChar

/-- `letters(f)`: the letters of the set flags in the order C, P, A, Z, S, O (70_reset_and_hazards.md R366). -/
def lettersOf (f : Flags) : Text :=
  ([(f.c, 'C'), (f.p, 'P'), (f.a, 'A'), (f.z, 'Z'), (f.s, 'S'), (f.o, 'O')].filter (·.1)).map (·.2)

/-- The register field of a trace line (70_reset_and_hazards.md R366). -/
def regFieldOf (r : Option Reg) (s t : State) : Text :=
  match r with
  | none => []
  | some r => " ".toList ++ name16 r ++ ":0x".toList ++ hexDigits (s.reg r) ++ "->0x".toList ++ hexDigits (t.reg r)

/-- A value line of the dump (70_reset_and_hazards.md R368). -/
def dumpLineOf (name : Text) (v : Word) : Text :=
  "      ".toList ++ name ++ ": 0x".toList ++ fourHexDigits v ++ " (".toList ++ decimalDigits v.toNat ++ ")".toList

/-- The lines after one step; none where the run takes no step. -/
def linesAfter (s : State) : List Text :=
  match step s with
  | .next t => t.lines
  | .fault _ => []
  | .refused _ => []

end Sys2Proof.Machine
end

