-- ==== Sys2Proof/Certificates/Slice0/Obligations.lean ====
section
/-!
DEFINITION. The statements for the provers: what the decoder, the instructions and the step of the pap core do, over all
states and all values of the model parameters. Each docstring names the rule of spec/ it formalises.
-/

open Sys2Proof Sys2Proof.Machine

/-! ### The decoder -/

/-- 30_encoding.md R126: decoding what the encoder writes gives the instruction back, and writing back what was
decoded gives the bytes, the ignored `reg` field of 0xC6 and 0xC7 excepted. Its second half is the spec's own
inference from R118 and R125. -/
def Obligations.EncodeDecodeRoundTrip : Prop :=
  (∀ (i : Instr) (rest : List Byte), i.wf = true → decode (encode i ++ rest) = .ok i rest) ∧
  ∀ (bs : List Byte) (i : Instr) (rest : List Byte), decode bs = .ok i rest →
    i.wf = true ∧ encode i ++ rest = ignoredRegCleared bs

/-- 30_encoding.md R116: a first byte matches at most one row of the opcode map. The spec's own inference from the
pattern column; the rows are its decisions D2, D3 (log 14). -/
def Obligations.OpcodeRowsDisjoint : Prop :=
  opcodeMap.Pairwise fun r q => ∀ b : Byte, ¬ (r.matchesByte b = true ∧ q.matchesByte b = true)

/-- 60_exceptions.md R331: the two causes of `MalformedOpcode`, and no other. The second cause is the spec's decision
D13. -/
def Obligations.MalformedOpcodeCauses : Prop :=
  ∀ (b0 : Byte) (tl : List Byte) (n : Nat), decode (b0 :: tl) = .malformed n ↔
    (n = 1 ∧ malformedFirst b0 = true) ∨
    (n = 2 ∧ 0x80 ≤ b0.toNat ∧ b0.toNat ≤ 0x83 ∧ ∃ m rest, tl = m :: rest ∧ malformedGroupReg (regOf m) = true)

/-- 60_exceptions.md R332: wherever an instruction is cut short, decoding it runs out of bytes. The rule's decision is
D16. -/
def Obligations.CutInstructionIsTruncated : Prop :=
  ∀ (i : Instr) (p : List Byte), i.wf = true → p <+: encode i → p ≠ encode i → decode p = .truncated

/-- 30_encoding.md R121: decoding looks at the instruction's own bytes only. -/
def Obligations.DecodeReadsOnlyItsBytes : Prop :=
  ∀ (bs ext : List Byte) (i : Instr) (rest : List Byte), decode bs = .ok i rest →
    decode (bs ++ ext) = .ok i (rest ++ ext)

/-- 30_encoding.md R100: a decoded instruction took 2 to 6 bytes from the front. That none is one byte long is the
spec's own inference from R112. -/
def Obligations.DecodedLengthTwoToSix : Prop :=
  ∀ (bs : List Byte) (i : Instr) (rest : List Byte), decode bs = .ok i rest →
    ∃ taken, bs = taken ++ rest ∧ 2 ≤ taken.length ∧ taken.length ≤ 6

/-- 30_encoding.md R106: the immediate is one byte, or two low byte first where w = 1 and s = 0; one byte is sign-extended
where w = 1 and s = 1, and is the 8-bit pattern where w = 0, whatever s is. A missing byte stops it. -/
def Obligations.ImmediateAssembly : Prop :=
  ∀ (lo hi : Byte) (rest : List Byte),
    readData .word false (lo :: hi :: rest) = some (hi ++ lo, rest) ∧
    readData .word true (lo :: rest) = some (lo.signExtend 16, rest) ∧
    (∀ x, ∃ data, readData .byte x (lo :: rest) = some (data, rest) ∧ data.setWidth Width.byte.bits = lo) ∧
    (∀ w x, readData w x [] = none) ∧ readData .word false [lo] = none

/-- 30_encoding.md R118: after 0xC6 and 0xC7 the `reg` field does not matter, and the instruction is `MovImmToRegMem`.
The spec's decision D15. -/
def Obligations.MovImmIgnoresRegField : Prop :=
  ∀ (b0 m m' : Byte) (tl : List Byte), b0 = 0xC6 ∨ b0 = 0xC7 → modOf m = modOf m' → rmOf m = rmOf m' →
    decode (b0 :: m :: tl) = decode (b0 :: m' :: tl) ∧
    (∀ n, decode (b0 :: m :: tl) ≠ .malformed n) ∧
    ∀ i rest, decode (b0 :: m :: tl) = .ok i rest → ∃ w o data, i = .movImmToRegMem w o data

/-- 30_encoding.md R102, R106, R111, R117, R120 on single words: the encodings of the source's examples and one of
every other format, as the rules spell them. The `reg` values after 0x80 to 0x83 and the condition bytes are its
decisions D2, D3 (log 14). -/
def Obligations.SampleEncodingsDecode : Prop :=
  decode [0x89, 0xD9] = .ok (.movRegMemToReg false .word .bx (.reg .cx)) [] ∧
  decode [0xB8, 0x05, 0x00] = .ok (.movImmToReg .word .ax 5) [] ∧
  decode [0x83, 0xC0, 0x02] = .ok (.addImmToRegMem true .word (.reg .ax) 2) [] ∧
  decode [0x3D, 0x00, 0x00] = .ok (.cmpImmToAcc .word 0) [] ∧
  decode [0x2A, 0x40, 0x80] = .ok (.sub true .byte .ax (.mem .bxSi (.d8 0x80))) [] ∧
  decode [0xA1, 0xE8, 0x03] = .ok (.movMemToAcc .word 1000) [] ∧
  decode [0xC7, 0x06, 0x10, 0x00, 0xFF, 0xFF] = .ok (.movImmToRegMem .word (.direct 16) 0xFFFF) [] ∧
  decode [0x75, 0x80] = .ok (.jne (-126)) [] ∧
  decode [0xE2, 0x7F] = .ok (.loop 129) []

/-! ### The step and the run -/

/-- 40_execute.md R201: in execute mode a step runs the decoded instruction, with the cursor past its bytes; if it completes,
the record and the trace line are handed over and the run halts when the next decode would be at L. -/
def Obligations.StepRunsDecodedInstruction : Prop :=
  ∀ (s : State) (i : Instr) (rest : List Byte), s.run = .decoding → s.params.execute = true →
    decode (s.buf.drop s.fetchPos) = .ok i rest →
    let s1 := { s with cur := s.buf.length - rest.length }
    ∃ u, exec i s1 = .next u ∧
      ((∃ e, u.run = .failed e) → step s = .next u) ∧
      ((∀ e, u.run ≠ .failed e) → step s = .next { u with
        records := u.records ++ [⟨s.fetchPos, s.buf.length - rest.length - s.fetchPos, i⟩]
        lines := u.lines ++ [traceLine i s1 u]
        run := if u.fetchPos = u.buf.length then .halted else u.run })

/-- 40_execute.md R202: a decode-only step reads and writes no register, flag or memory and records no event, whatever
`BRANCH_MODEL` is; the cursor and `pc` advance linearly, and the record and the listing line are handed over. The
spec's decision D23. -/
def Obligations.DecodeOnlyStepChangesNothing : Prop :=
  ∀ (s : State) (i : Instr) (rest : List Byte), s.run = .decoding → s.params.execute = false →
    decode (s.buf.drop s.cur) = .ok i rest →
    let past := s.buf.length - rest.length
    step s = .next { s with
      cur := past
      pc := BitVec.ofNat 16 past
      records := s.records ++ [⟨s.cur, past - s.cur, i⟩]
      lines := s.lines ++ [instrText i]
      run := if past = s.buf.length then .halted else .decoding }

/-- 60_exceptions.md R335: when a step ends the run in `failed(e)`, nothing but the cursor and the run state changed. Where
the cursor stands is log 8. -/
def Obligations.FailureWritesNothing : Prop :=
  ∀ (s t : State) (e : RunError), step s = .next t → t.run = .failed e →
    t = { s with cur := t.cur, run := .failed e }

/-- 60_exceptions.md R330 to R333, 40_execute.md R201: a decode error ends the run with its own kind, at the first byte of the
failing instruction, and changes nothing else but the cursor (log 8); and in a legal state, whatever error a step records, its
offset is that byte, `pc` equals it, and its kind is the one whose cause holds there. The spec's decisions D9, D16, D21,
D37. -/
def Obligations.FailureOffsetIsStart : Prop :=
  ∀ (s : State), s.run = .decoding →
    let start := s.fetchPos
    let bs := s.buf.drop start
    (∀ n, decode bs = .malformed n →
      step s = .next { s with cur := start + n, run := .failed ⟨.malformedOpcode, start⟩ }) ∧
    (decode bs = .truncated →
      step s = .next { s with cur := start + bs.length, run := .failed ⟨.truncatedStream, start⟩ }) ∧
    ∀ t e, s.Inv → step s = .next t → t.run = .failed e →
      e.offset = start ∧ t.pc.toNat = e.offset ∧
      (e.kind = .malformedOpcode ↔ ∃ n, decode bs = .malformed n) ∧
      (e.kind = .truncatedStream ↔ decode bs = .truncated) ∧
      (e.kind = .unmodelledReg8High ↔
        s.params.execute = true ∧ ∃ i rest, decode bs = .ok i rest ∧ refusedIn i s = true) ∧
      (e.kind = .branchOutOfBuffer ↔
        s.branching = true ∧ ∃ j k rest, decode bs = .ok (JumpOp.instr j k) rest ∧ jumpCond j s = true ∧
          ((start : Int) + k < 0 ∨ (s.buf.length : Int) < start + k))

/-- 10_state.md R47, 60_exceptions.md R336: a run that has ended takes no step (log 6). The spec's decision D21; that
`step` answers a fault or a refusal there is log 6. -/
def Obligations.EndedRunTakesNoStep : Prop :=
  ∀ (s : State), (s.run = .halted → step s = .fault .runHalted) ∧
    (∀ o, s.run = .failed ⟨.unmodelledReg8High, o⟩ → step s = .refused (.reg8High o)) ∧
    ∀ e, s.run = .failed e → e.kind ≠ .unmodelledReg8High → step s = .fault (.runFailed e)

/-- 40_execute.md R201, 10_state.md R47: a step is enabled exactly where the run is decoding. The spec's decision D21. -/
def Obligations.StepEnabledWhileDecoding : Prop :=
  ∀ (s : State), (∃ t, step s = .next t) ↔ s.run = .decoding

/-- Every step keeps the legal states: the bounds of the cursor and `pc`, `pc` as bytes consumed, the run state's
positions, the error's offset, the memory's form, one line per record (10_state.md R37, R45, R47; 60_exceptions.md
R330, R333). It gathers the spec's decisions D4, D11, D18, D19, D21 and the model's logs 5, 8, 9. -/
def Obligations.StepKeepsLegalState : Prop :=
  ∀ (s t : State), s.Inv → step s = .next t → t.Inv

/-- The state at reset is legal (10_state.md R48). The values are the spec's decision D18 and logs 1, 2. -/
def Obligations.ResetIsLegal : Prop :=
  State.reset.Inv

/-- 10_state.md R48 for an empty buffer: the state at reset is the one the host creates with the default parameters and no
program (the choice of the switches and of an empty buffer is the model's, logs 1 and 2). -/
def Obligations.ResetIsEmptyCreation : Prop :=
  ∀ (g : Regs) (f : Flags) (cells : List Host.Cell),
    create { params := Params.default, buf := [], regs := g, flags := f, cells := cells } = .next State.reset ∧
    (∀ r, State.reset.reg r = 0) ∧ State.reset.pc = 0 ∧ State.reset.cur = 0 ∧ State.reset.run = .halted

/-- Every state the host can create is legal (70_reset_and_hazards.md R360, R361). The spec's decisions D18, D19. -/
def Obligations.CreatedStateIsLegal : Prop :=
  ∀ (l : Launch) (t : State), create l = .next t → t.Inv ∧ RecordsDecode t

/-- Every step keeps this: each record handed over is what the buffer decodes to at its `start`, for its `len` bytes
(30_encoding.md R121, R125; 60_exceptions.md R333). The spec's decision D35; that records stand in the state is log 9. -/
def Obligations.StepKeepsRecordsDecode : Prop :=
  ∀ (s t : State), RecordsDecode s → step s = .next t → RecordsDecode t

/-- 20_memory.md R71: the host loads the instruction buffer at creation, and no step writes it. -/
def Obligations.BufferIsNeverWritten : Prop :=
  (∀ (l : Launch) (t : State), create l = .next t → t.buf = l.buf) ∧ ∀ (s t : State), step s = .next t → t.buf = s.buf

/-- 70_reset_and_hazards.md R361, 10_state.md R42, R43: no step changes a launch parameter. -/
def Obligations.ParamsAreFixed : Prop :=
  ∀ (s t : State), step s = .next t → t.params = s.params

/-- 70_reset_and_hazards.md R362: where the run does not follow branches, a step fails or moves the cursor forward by
2 to 6 bytes. The spec's own inference from R201 and R100. -/
def Obligations.LinearStepMovesCursor : Prop :=
  ∀ (s t : State), s.branching = false → step s = .next t →
    (∃ e, t.run = .failed e) ∨ (s.cur + 2 ≤ t.cur ∧ t.cur ≤ s.cur + 6 ∧ t.cur ≤ s.buf.length)

/-- 70_reset_and_hazards.md R362: a run that does not follow branches ends. One that ends in `halted` takes at most half as
many steps as bytes remain, rounded down, as R362 says; only one that ends in `failed` can take one more, since its last step
may fail on a single byte: half, rounded up (log 13). The bounds are the spec's own inference. -/
def Obligations.LinearRunEnds : Prop :=
  ∀ (s : State), s.Inv → s.run = .decoding → s.branching = false →
    let left := s.buf.length - s.cur
    ∃ n t, core.run n s = .next t ∧
      ((t.run = .halted ∧ n ≤ left / 2) ∨ ((∃ e, t.run = .failed e) ∧ n ≤ (left + 1) / 2))

/-- 10_state.md R43: `TRACE_IP` is set at creation, never changes during a run, and changes only the text. -/
def Obligations.TraceIpChangesOnlyText : Prop :=
  (∀ (l : Launch) (t : State), create l = .next t → t.params.traceIp = l.params.traceIp) ∧
  ∀ (s t : State) (b : Bool), step s = .next t → t.params.traceIp = s.params.traceIp ∧
    ∃ u, step { s with params := { s.params with traceIp := b } } = .next u ∧
      { u with params := t.params, lines := t.lines } = t

/-- 70_reset_and_hazards.md R364: in decode-only mode every step keeps this: the lines emitted are the listing lines of the
records, in order. The text is the spec's decision D24 (log 16). -/
def Obligations.ListingIsTextOfRecords : Prop :=
  ∀ (s t : State), s.params.execute = false → s.lines = s.records.map (fun r => instrText r.instr) → step s = .next t →
    t.lines = t.records.map (fun r => instrText r.instr)

/-- 10_state.md R46: where the run does not follow branches, what a step decodes and where it leaves the cursor depend on the
buffer and the cursor alone, not on registers, flags, memory or draws; so does the run state. Under `REG8_MODEL = legacy`,
where an executed step can refuse an instruction (60_exceptions.md R338), this is said of two legal states with one value of
`EXECUTE`: the refusal depends on the instruction and the parameters only. The spec's own inference from R45, with its decision
D9. -/
def Obligations.ListingIgnoresData : Prop :=
  ∀ (s1 s2 t1 t2 : State), s1.run = .decoding → s2.run = .decoding → s1.buf = s2.buf → s1.cur = s2.cur →
    s1.branching = false → s2.branching = false → s1.params.reg8 = s2.params.reg8 →
    (s1.params.reg8 = .legacy → s1.params.execute = s2.params.execute ∧ s1.Inv ∧ s2.Inv) →
    step s1 = .next t1 → step s2 = .next t2 →
    t1.cur = t2.cur ∧ t1.run = t2.run ∧ ∃ rs, t1.records = s1.records ++ rs ∧ t2.records = s2.records ++ rs

/-- 10_state.md R48, R49; 20_memory.md R79; 70_reset_and_hazards.md R361; 00_scope.md R13: the state the host creates, under
both values of `RESET_STATE` and of `MEM_MODEL`; a longer buffer is refused. Under `array64k` each byte of data memory is the
one the launch inputs give for its address, and every contents can be given: that they are pairs, a later one over an earlier
one, is log 20, and a byte that none gives is log 5. The spec's decisions D11, D18, D19. -/
def Obligations.CreatedState : Prop :=
  (∀ (l : Launch),
    (l.buf.length ≤ 65535 → ∃ t, create l = .next t ∧
      (l.params.resetState = .zero → (∀ r, t.reg r = 0) ∧
        t.flags = { c := false, p := false, a := false, z := false, s := false, o := false }) ∧
      (l.params.resetState = .free → t.regs = l.regs ∧ t.flags = l.flags) ∧
      t.pc = 0 ∧ t.cur = 0 ∧ t.run = (if l.buf = [] then .halted else .decoding) ∧ t.params = l.params ∧ t.buf = l.buf ∧
      t.records = [] ∧ t.lines = [] ∧ t.events = [] ∧
      (l.params.memModel = .oracle → t.mem = []) ∧
      (l.params.memModel = .array64k → ∀ a, a < 65536 →
        (∀ v, (l.cells.reverse.find? fun c => c.1 % 65536 == a) = some v → t.mem.read a = v.2) ∧
        ((∀ c ∈ l.cells, c.1 % 65536 ≠ a) → t.mem.read a = Config.unlistedByte))) ∧
    (65535 < l.buf.length → create l = .refused (.bufferTooLong l.buf.length))) ∧
  ∀ (l : Launch) (m : Nat → Byte), l.buf.length ≤ 65535 → l.params.memModel = .array64k →
    ∃ cells t, create { l with cells := cells } = .next t ∧ ∀ a, a < 65536 → t.mem.read a = m a

/-! ### Refusals and branches -/

/-- 40_execute.md R208, 60_exceptions.md R338: under `REG8_MODEL = legacy` an instruction with a byte operand AH, CH,
DH or BH is refused before it reads or writes anything, and nothing else is. The spec's decision D9. -/
def Obligations.HighByteRefused : Prop :=
  ∀ (i : Instr) (s : State),
    (refusedIn i s = true → exec i s = .next { s with run := .failed ⟨.unmodelledReg8High, s.pc.toNat⟩ }) ∧
    (refusedIn i s = false → s.run = .decoding → ∀ t o, exec i s = .next t → t.run ≠ .failed ⟨.unmodelledReg8High, o⟩)

/-- 43_jumps.md R290: under `linear` a jump or loop writes nothing, and `pc` follows the cursor. The spec's decision
D22. -/
def Obligations.LinearJumpWritesNothing : Prop :=
  ∀ (j : JumpOp) (k : Int) (s : State), s.params.branch = .linear →
    exec (j.instr k) s = .next { s with pc := BitVec.ofNat 16 s.cur }

/-- 43_jumps.md R291, R293 to R312: under `taken` a jump or loop whose condition holds goes to `start + ip_inc`, an
offset 0..L; a loop decrements CX, and nothing else changes. The spec's decisions D4, D22; the conditions are log 14. -/
def Obligations.TakenJumpReachesTarget : Prop :=
  ∀ (j : JumpOp) (k : Int) (s : State), s.params.branch = .taken → s.buf.length ≤ 65535 → jumpCond j s = true →
    0 ≤ (s.pc.toNat : Int) + k → (s.pc.toNat : Int) + k ≤ s.buf.length →
    ∃ t, exec (j.instr k) s = .next t ∧ (t.pc.toNat : Int) = s.pc.toNat + k ∧
      t.reg .cx = cxAfter j s ∧ (∀ r, r ≠ .cx → t.reg r = s.reg r) ∧
      t = { s with pc := t.pc, regs := t.regs }

/-- 43_jumps.md R291, R293 to R312: under `taken` a jump or loop whose condition does not hold falls through; a loop
decrements CX, and nothing else changes. The spec's decisions D4, D22; the conditions are log 14. -/
def Obligations.UntakenJumpFallsThrough : Prop :=
  ∀ (j : JumpOp) (k : Int) (s : State), s.params.branch = .taken → jumpCond j s = false →
    ∃ t, exec (j.instr k) s = .next t ∧ t.pc = BitVec.ofNat 16 s.cur ∧
      t.reg .cx = cxAfter j s ∧ (∀ r, r ≠ .cx → t.reg r = s.reg r) ∧
      t = { s with pc := t.pc, regs := t.regs }

/-- 60_exceptions.md R339: `BranchOutOfBuffer` is raised exactly by a branch under `taken` whose condition holds and
whose target is below 0 or above L; it writes nothing, CX included. The spec's decision D21. -/
def Obligations.BranchOutOfBufferExactly : Prop :=
  ∀ (j : JumpOp) (k : Int) (s : State),
    (s.params.branch = .taken → jumpCond j s = true →
      (s.pc.toNat : Int) + k < 0 ∨ (s.buf.length : Int) < s.pc.toNat + k →
      exec (j.instr k) s = .next { s with run := .failed ⟨.branchOutOfBuffer, s.pc.toNat⟩ }) ∧
    ∀ t o, s.run = .decoding → exec (j.instr k) s = .next t → t.run = .failed ⟨.branchOutOfBuffer, o⟩ →
      s.params.branch = .taken ∧ jumpCond j s = true ∧
      ((s.pc.toNat : Int) + k < 0 ∨ (s.buf.length : Int) < s.pc.toNat + k)

/-- 60_exceptions.md R339, 40_execute.md R201: a taken branch to exactly L is no fault; the step ends the run in
`halted`. The spec's decision D21. -/
def Obligations.BranchToEndHalts : Prop :=
  ∀ (s : State) (j : JumpOp) (k : Int) (rest : List Byte), s.Inv → s.run = .decoding → s.branching = true →
    decode (s.buf.drop s.pc.toNat) = .ok (j.instr k) rest → jumpCond j s = true →
    (s.pc.toNat : Int) + k = s.buf.length →
    ∃ t, step s = .next t ∧ t.run = .halted ∧ t.pc.toNat = s.buf.length

/-! ### Data transfer -/

/-- 41_mov.md R220: `MovRegMemToReg` completes in every form that is not refused, and leaves in its destination, by
`d`, the W-bit value its source had; a memory source is read at its effective address and a memory destination written
there, and no other access is made. Byte width, memory and refusals are its decisions D9, D10, D11. -/
def Obligations.MovRegMemToRegCopies : Prop :=
  ∀ (d : Bool) (w : Width) (reg : Reg) (rm : RmOp) (s : State), s.mem.wf →
    refusedIn (.movRegMemToReg d w reg rm) s = false →
    let v := placeValue w (rmSrc d reg rm) s
    ∃ t, exec (.movRegMemToReg d w reg rm) s = .next t ∧ Stored w (rmDst d reg rm) v s t ∧
      Accessed (placeReads w (rmSrc d reg rm) s) (placeWrites w (rmDst d reg rm) v s) s t ∧
      t.flags = s.flags ∧ t.pc = BitVec.ofNat 16 s.cur ∧ t.run = s.run

/-- 41_mov.md R221, R222: `MovImmToRegMem` and `MovImmToReg` complete in every form that is not refused, and leave the
W-bit immediate in their destination; no read is made, and a write for a memory destination only. Byte width, memory and
refusals are its decisions D9, D10, D11. -/
def Obligations.MovImmediateLoads : Prop :=
  ∀ (w : Width) (rm : RmOp) (reg : Reg) (data : Word) (s : State), s.mem.wf →
    let v := data.setWidth w.bits
    (refusedIn (.movImmToRegMem w rm data) s = false →
      ∃ t, exec (.movImmToRegMem w rm data) s = .next t ∧ Stored w rm.place v s t ∧
        Accessed [] (placeWrites w rm.place v s) s t ∧
        t.flags = s.flags ∧ t.pc = BitVec.ofNat 16 s.cur ∧ t.run = s.run) ∧
    (refusedIn (.movImmToReg w reg data) s = false →
      ∃ t, exec (.movImmToReg w reg data) s = .next t ∧ Stored w (.reg reg) v s t ∧ Accessed [] [] s t ∧
        t.flags = s.flags ∧ t.pc = BitVec.ofNat 16 s.cur ∧ t.run = s.run)

/-- 41_mov.md R223, R224: `MovMemToAcc` loads AX or AL from the direct address, and `MovAccToMem` stores it there, in
every state, each with that one access. Byte width and memory are its decisions D9, D10, D11. -/
def Obligations.MovAccumulatorMemory : Prop :=
  ∀ (w : Width) (addr : Word) (s : State), s.mem.wf →
    (∃ t, exec (.movMemToAcc w addr) s = .next t ∧ Stored w (.reg .ax) (memValue w addr s) s t ∧
      Accessed [.read s.pc.toNat addr w ((memValue w addr s).setWidth 16)] [] s t ∧
      t.flags = s.flags ∧ t.pc = BitVec.ofNat 16 s.cur ∧ t.run = s.run) ∧
    (∃ t, exec (.movAccToMem w addr) s = .next t ∧ Stored w (.direct addr) (regRead w .ax s) s t ∧
      Accessed [] [.write s.pc.toNat addr w ((regRead w .ax s).setWidth 16)] s t ∧
      t.flags = s.flags ∧ t.pc = BitVec.ofNat 16 s.cur ∧ t.run = s.run)

/-! ### Arithmetic -/

/-- 42_arith.md R245, R248, R251: `Add`, `Sub` and `Cmp` complete in every form that is not refused; `add` and `sub`
leave the sum or difference of destination and source in the destination, `cmp` writes nothing but flags, and the
flags are those of the operands and the result. A memory operand is read at its effective address, and one that `add` or
`sub` writes is then written there; `cmp` makes no write. Width, memory, order and refusals are its decisions D9, D10, D11,
D33. -/
def Obligations.AluRegMemResult : Prop :=
  ∀ (op : AluOp) (d : Bool) (w : Width) (reg : Reg) (rm : RmOp) (s : State), s.mem.wf →
    refusedIn (op.rmInstr d w reg rm) s = false →
    let dst := rmDst d reg rm
    let a := placeValue w dst s
    let b := placeValue w (rmSrc d reg rm) s
    let r := if op = .add then a + b else a - b
    ∃ t, exec (op.rmInstr d w reg rm) s = .next t ∧
      (op ≠ .cmp → Stored w dst r s t) ∧ (op = .cmp → t.regs = s.regs ∧ t.mem = s.mem) ∧
      Accessed (placeReads w rm.place s) (if op = .cmp then [] else placeWrites w dst r s) s t ∧
      t.flags = aluFlags s.params.flagModel op a b r s.flags ∧ t.pc = BitVec.ofNat 16 s.cur ∧ t.run = s.run

/-- 42_arith.md R246, R249, R252: the same for `AddImmToRegMem`, `SubImmToRegMem` and `CmpImmToRegMem`, whatever `s`
is. Width, memory and refusals are its decisions D9, D10, D11, D14. -/
def Obligations.AluImmToRegMemResult : Prop :=
  ∀ (op : AluOp) (x : Bool) (w : Width) (rm : RmOp) (data : Word) (s : State), s.mem.wf →
    refusedIn (op.groupInstr x w rm data) s = false →
    let a := placeValue w rm.place s
    let b := data.setWidth w.bits
    let r := if op = .add then a + b else a - b
    ∃ t, exec (op.groupInstr x w rm data) s = .next t ∧
      (op ≠ .cmp → Stored w rm.place r s t) ∧ (op = .cmp → t.regs = s.regs ∧ t.mem = s.mem) ∧
      Accessed (placeReads w rm.place s) (if op = .cmp then [] else placeWrites w rm.place r s) s t ∧
      t.flags = aluFlags s.params.flagModel op a b r s.flags ∧ t.pc = BitVec.ofNat 16 s.cur ∧ t.run = s.run

/-- 42_arith.md R247, R250, R253: the same for `AddImmToAcc`, `SubImmToAcc` and `CmpImmToAcc` on AX or AL, in every
state, without a memory access. The width is its decision D10; what a byte write leaves is its decisions D9, D34. -/
def Obligations.AluImmToAccResult : Prop :=
  ∀ (op : AluOp) (w : Width) (data : Word) (s : State),
    let a := regRead w .ax s
    let b := data.setWidth w.bits
    let r := if op = .add then a + b else a - b
    ∃ t, exec (op.accInstr w data) s = .next t ∧
      (op ≠ .cmp → Stored w (.reg .ax) r s t) ∧ (op = .cmp → t.regs = s.regs ∧ t.mem = s.mem) ∧
      Accessed [] [] s t ∧
      t.flags = aluFlags s.params.flagModel op a b r s.flags ∧ t.pc = BitVec.ofNat 16 s.cur ∧ t.run = s.run

/-- 42_arith.md R243: the flags under `FLAG_MODEL = legacy`, in integer terms. The comparisons are the spec's
decisions D6, D7, D8 (log 15). -/
def Obligations.LegacyFlagFormulas : Prop :=
  ∀ (n : Nat) (op : AluOp) (a b r : BitVec n) (f : Flags),
    let g := aluFlags .legacy op a b r f
    g.s = r.msb ∧ g.z = decide (r.toNat = 0) ∧ g.p = g.z ∧
    g.a = (if op = .add then decide (15 < a.toNat % 16 + b.toNat % 16) else decide (a.toNat % 16 < b.toNat % 16)) ∧
    g.c = (if op = .add then f.c else decide (a.toNat % 256 < b.toNat % 256)) ∧ g.o = f.o

/-- 42_arith.md R244: the flags under `FLAG_MODEL = i8086`, against exact integers: carry or borrow out of the width,
the nibble's, signed overflow, sign, zero, and even parity of the low byte. The spec's decision D5 (log 15). -/
def Obligations.I8086FlagsAreExact : Prop :=
  ∀ (w : Width) (op : AluOp) (a b : BitVec w.bits) (f : Flags),
    let r := if op = .add then a + b else a - b
    let exact : Int := if op = .add then a.toInt + b.toInt else a.toInt - b.toInt
    let g := aluFlags .i8086 op a b r f
    (g.c = true ↔ if op = .add then r.toNat ≠ a.toNat + b.toNat else a.toNat < b.toNat) ∧
    (g.a = true ↔ if op = .add then 15 < a.toNat % 16 + b.toNat % 16 else a.toNat % 16 < b.toNat % 16) ∧
    (g.o = true ↔ r.toInt ≠ exact) ∧ (g.s = true ↔ r.toInt < 0) ∧ (g.z = true ↔ r.toNat = 0) ∧
    (g.p = true ↔ ((List.range 8).filter fun k => r.getLsbD k).length % 2 = 0)

/-- 42_arith.md R244, 43_jumps.md R295 to R308: under `i8086`, after `cmp` the conditions compare the two operands, as
unsigned numbers (`jb`, `jnb`, `jbe`, `ja`), as signed numbers (`jl`, `jnl`, `jle`, `jg`) and for equality. It follows
from the spec's decision D5 and the conditions of log 14. -/
def Obligations.CompareThenCondition : Prop :=
  ∀ (d : Bool) (w : Width) (reg : Reg) (rm : RmOp) (s : State), s.params.flagModel = .i8086 →
    refusedIn (.cmp d w reg rm) s = false →
    let a := placeValue w (rmDst d reg rm) s
    let b := placeValue w (rmSrc d reg rm) s
    ∃ t, exec (.cmp d w reg rm) s = .next t ∧
      (jumpCond .je t = true ↔ a = b) ∧ (jumpCond .jne t = true ↔ a ≠ b) ∧
      (jumpCond .jb t = true ↔ a.toNat < b.toNat) ∧ (jumpCond .jnb t = true ↔ b.toNat ≤ a.toNat) ∧
      (jumpCond .jbe t = true ↔ a.toNat ≤ b.toNat) ∧ (jumpCond .ja t = true ↔ b.toNat < a.toNat) ∧
      (jumpCond .jl t = true ↔ a.toInt < b.toInt) ∧ (jumpCond .jnl t = true ↔ b.toInt ≤ a.toInt) ∧
      (jumpCond .jle t = true ↔ a.toInt ≤ b.toInt) ∧ (jumpCond .jg t = true ↔ b.toInt < a.toInt)

/-- 42_arith.md R254: the laws both flag models share, and `F.O`, which no run under `legacy` changes. The spec's own
inference from R241, R243, R244. -/
def Obligations.ArithmeticLaws : Prop :=
  (∀ (n : Nat) (a b : BitVec n), aluResult .add a b = aluResult .add b a) ∧
  (∀ (w : Width) (m : FlagModel) (x : BitVec w.bits) (f : Flags),
    aluResult .sub x x = 0 ∧
    let g := aluFlags m .sub x x (aluResult .sub x x) f
    g.z = true ∧ g.s = false ∧ g.a = false ∧ g.c = false) ∧
  (∀ (i : Instr) (s t : State), isAlu i = true → destination i = none → exec i s = .next t →
    t.regs = s.regs ∧ t.mem = s.mem) ∧
  ∀ (n : Nat) (s t : State), s.params.flagModel = .legacy → core.run n s = .next t → t.flags.o = s.flags.o

/-! ### Registers and addresses -/

/-- 10_state.md R34: under `REG8_MODEL = i8086` the codes 000 to 011 are bits 7:0 of AX, CX, DX, BX and the codes 100
to 111 their bits 15:8; a byte write changes the named half, leaves the other half, and no other register. The spec's
decision D9. -/
def Obligations.ByteRegistersAliasHalves : Prop :=
  ∀ (s : State) (v : Byte), s.params.reg8 = .i8086 →
    let halves := fun (x hi : Reg) =>
      (regRead .byte x s).toNat = (s.reg x).toNat % 256 ∧ (regRead .byte hi s).toNat = (s.reg x).toNat / 256 ∧
      ((regWrite .byte x v s).reg x).toNat = (s.reg x).toNat / 256 * 256 + v.toNat ∧
      ((regWrite .byte hi v s).reg x).toNat = v.toNat * 256 + (s.reg x).toNat % 256 ∧
      ∀ q, q ≠ x → (regWrite .byte x v s).reg q = s.reg q ∧ (regWrite .byte hi v s).reg q = s.reg q
    halves .ax .sp ∧ halves .cx .bp ∧ halves .dx .si ∧ halves .bx .di

/-- 10_state.md R35: under `REG8_MODEL = legacy` a byte write to AL, CL, DL or BL replaces the whole register by the
zero-extended byte, and a byte read takes the low byte. The spec's decisions D9, D34. -/
def Obligations.LegacyByteWriteReplaces : Prop :=
  ∀ (r : Reg) (v : Byte) (s : State), s.params.reg8 = .legacy → r = .ax ∨ r = .cx ∨ r = .dx ∨ r = .bx →
    let t := regWrite .byte r v s
    (t.reg r).toNat = v.toNat ∧ (∀ q, q ≠ r → t.reg q = s.reg q) ∧
    (regRead .byte r s).toNat = (s.reg r).toNat % 256

/-- 20_memory.md R75: the effective address of every memory operand, modulo 2^16, with no segment base. The spec's
decision D12. -/
def Obligations.EffectiveAddress : Prop :=
  ∀ (s : State) (disp : Word),
    let x := fun r => (s.reg r).toNat
    let ea := fun b n => ∃ a, placeAddr (.mem b disp) s = some a ∧ a.toNat = (n + disp.toNat) % 65536
    ea .bxSi (x .bx + x .si) ∧ ea .bxDi (x .bx + x .di) ∧ ea .bpSi (x .bp + x .si) ∧ ea .bpDi (x .bp + x .di) ∧
    ea .si (x .si) ∧ ea .di (x .di) ∧ ea .bp (x .bp) ∧ ea .bx (x .bx) ∧
    placeAddr (.direct disp) s = some disp

/-! ### Data memory -/

/-- 20_memory.md R76: under `oracle` an instruction that reads memory, in each of the four forms that do, takes the next
draw, records it as `Read(start, EA, w, value)`, and takes no other; the two `mov` forms leave the draw in their register
(log 4: the draw counter is the model's). The spec's decisions D9, D11, D32. -/
def Obligations.OracleReadTakesDraw : Prop :=
  ∀ (w : Width) (rm : RmOp) (addr : Word) (s : State), s.params.memModel = .oracle →
    placeAddr rm.place s = some addr →
    let v := (Config.draw s.draws).setWidth w.bits
    let rd := fun a => Event.read s.pc.toNat a w (v.setWidth 16)
    (∃ t, exec (.movMemToAcc w addr) s = .next t ∧ t.regs = (regWrite w .ax v s).regs ∧
      t.draws = s.draws + 1 ∧ t.mem = s.mem ∧ t.events = s.events ++ [rd addr]) ∧
    (∀ reg, refusedIn (.movRegMemToReg true w reg rm) s = false →
      ∃ t, exec (.movRegMemToReg true w reg rm) s = .next t ∧ t.regs = (regWrite w reg v s).regs ∧
        t.draws = s.draws + 1 ∧ t.mem = s.mem ∧ t.events = s.events ++ [rd addr]) ∧
    (∀ op d reg, refusedIn (AluOp.rmInstr op d w reg rm) s = false →
      let a := if d then regRead w reg s else v
      let b := if d then v else regRead w reg s
      let r := if op = .add then a + b else a - b
      ∃ t, exec (AluOp.rmInstr op d w reg rm) s = .next t ∧
        t.flags = aluFlags s.params.flagModel op a b r s.flags ∧ t.draws = s.draws + 1 ∧ t.mem = s.mem ∧
        t.events = s.events ++ [rd addr] ++
          (if op = .cmp ∨ d = true then [] else [.write s.pc.toNat addr w (r.setWidth 16)])) ∧
    ∀ op x data,
      let b := BitVec.setWidth w.bits data
      let r := if op = .add then v + b else v - b
      ∃ t, exec (AluOp.groupInstr op x w rm data) s = .next t ∧
        t.flags = aluFlags s.params.flagModel op v b r s.flags ∧ t.draws = s.draws + 1 ∧ t.mem = s.mem ∧
        t.events = s.events ++ [rd addr] ++ (if op = .cmp then [] else [.write s.pc.toNat addr w (r.setWidth 16)])

/-- 20_memory.md R77: under `oracle` a write changes no state and is recorded as an event; no instruction changes the
data memory. The spec's decision D11. -/
def Obligations.OracleWriteOnlyRecords : Prop :=
  (∀ (w : Width) (addr : Word) (v : BitVec w.bits) (s : State), s.params.memModel = .oracle →
    memWrite w addr v s = { s with events := s.events ++ [.write s.pc.toNat addr w (v.setWidth 16)] }) ∧
  ∀ (i : Instr) (s t : State), s.params.memModel = .oracle → exec i s = .next t → t.mem = s.mem

/-- 20_memory.md R78: under `array64k` a read returns the bytes of `M`, low byte at the address and high byte at the
next one modulo 2^16; a write sets those bytes and no other; both are recorded. The spec's decision D11. -/
def Obligations.ArrayMemoryAccess : Prop :=
  ∀ (addr : Word) (s : State), s.params.memModel = .array64k → s.mem.wf →
    let next := (addr.toNat + 1) % 65536
    (memRead .byte addr s).1 = s.mem.read addr.toNat ∧
    (memRead .word addr s).1 = s.mem.read next ++ s.mem.read addr.toNat ∧
    (∀ w, (memRead w addr s).2.mem = s.mem ∧ (memRead w addr s).2.events =
      s.events ++ [.read s.pc.toNat addr w ((memRead w addr s).1.setWidth 16)]) ∧
    (∀ (v : Byte) (c : Nat), (memWrite .byte addr v s).mem.read c = if c = addr.toNat then v else s.mem.read c) ∧
    (∀ (v : Word) (c : Nat), (memWrite .word addr v s).mem.read c =
      if c = addr.toNat then v.setWidth 8 else if c = next then (v >>> 8).setWidth 8 else s.mem.read c) ∧
    ∀ w v, (memWrite w addr v s).events = s.events ++ [.write s.pc.toNat addr w (v.setWidth 16)]

/-- 20_memory.md R81: an instruction makes at most one data read and at most one data write, the read first; where it
makes both they have the same address and width; decode-only mode makes none. Under `oracle` each read takes one draw
(log 4). The spec's own inference from its instruction rules. -/
def Obligations.OneReadThenOneWrite : Prop :=
  (∀ (i : Instr) (s t : State), exec i s = .next t →
    ∃ rs ws, t.events = s.events ++ rs ++ ws ∧ rs.length ≤ 1 ∧ ws.length ≤ 1 ∧
      (∀ e ∈ rs, e.isRead = true) ∧ (∀ e ∈ ws, e.isRead = false) ∧
      t.draws = s.draws + (if s.params.memModel = .oracle then rs.length else 0) ∧
      ∀ p a w v q b x y, Event.read p a w v ∈ rs → Event.write q b x y ∈ ws → a = b ∧ w = x) ∧
  ∀ (s t : State), s.params.execute = false → step s = .next t → t.events = s.events ∧ t.mem = s.mem

/-! ### Frames -/

/-- What an instruction leaves of the registers (40_execute.md R205, R209; 43_jumps.md R309 to R311), for all 34
kinds: every general register is unchanged but the 16-bit register that holds a register destination, and CX for
`loopnz`, `loopz` and `loop` under `taken`. Of a byte destination's register the other half is unchanged under
`REG8_MODEL = i8086` (10_state.md R34); under `legacy` the whole register is replaced, its high half by zeros (R35). It gathers
the instruction rules, with the spec's decisions D9, D22, D34. -/
def Obligations.RegisterFrame : Prop :=
  ∀ (i : Instr) (s t : State), exec i s = .next t →
    (∀ r, (∀ w q, destination i = some (w, .reg q) → r ≠ regHolder w q) →
      (isLoop i = true → s.params.branch = .taken → r ≠ .cx) →
      t.reg r = s.reg r) ∧
    ∀ q, destination i = some (.byte, .reg q) →
      let old := (s.reg (regHolder .byte q)).toNat
      let new := (t.reg (regHolder .byte q)).toNat
      (s.params.reg8 = .i8086 → highCode q = false → new / 256 = old / 256) ∧
      (s.params.reg8 = .i8086 → highCode q = true → new % 256 = old % 256) ∧
      (s.params.reg8 = .legacy → refusedIn i s = false → new < 256)

/-- 10_state.md R41: `mov`, the jumps and the loops never write a flag; in decode-only mode no instruction does. That
jumps write none is the spec's own inference. -/
def Obligations.FlagFrame : Prop :=
  (∀ (i : Instr) (s t : State), isAlu i = false → exec i s = .next t → t.flags = s.flags) ∧
  ∀ (s t : State), s.params.execute = false → step s = .next t → t.flags = s.flags

/-- What an instruction leaves of data memory (20_memory.md R77, R78), for all 34 kinds: every byte outside those that
a memory destination is stored to, at the effective address of the state the instruction starts in. It gathers the
instruction rules, with the spec's decision D11. -/
def Obligations.MemoryFrame : Prop :=
  ∀ (i : Instr) (s t : State) (c : Nat), exec i s = .next t →
    (∀ w p a, destination i = some (w, p) → placeAddr p s = some a → c ∉ storedAddrs w a) →
    t.mem.read c = s.mem.read c

/-- What an instruction leaves of the rest of the state (40_execute.md R201), for all 34 kinds: the parameters, the cursor,
the buffer, the records and the lines are unchanged, and the run state is unchanged unless it failed. -/
def Obligations.ControlFrame : Prop :=
  ∀ (i : Instr) (s t : State), exec i s = .next t →
    t.params = s.params ∧ t.cur = s.cur ∧ t.buf = s.buf ∧ t.records = s.records ∧ t.lines = s.lines ∧
    (t.run = s.run ∨ ∃ e, t.run = .failed e)

/-- Where the instruction pointer goes (10_state.md R37, R38): for every instruction that is no jump or loop, and does
not fail, to the cursor. The spec's decision D4. -/
def Obligations.NonJumpFollowsCursor : Prop :=
  ∀ (i : Instr) (s t : State), (∀ j k, i ≠ JumpOp.instr j k) → refusedIn i s = false → exec i s = .next t →
    t.pc = BitVec.ofNat 16 s.cur

/-! ### Output -/

/-- 40_execute.md R209, 70_reset_and_hazards.md R366: the register a trace line reports is the one the instruction writes,
changed or not: the holder of a register destination, or CX for a loop under `taken`. A register that an instruction changed is
that one; no instruction changes two. The spec's decision D26. -/
def Obligations.ChangedRegisterIsReported : Prop :=
  ∀ (i : Instr) (s : State), reportedReg s.params.branch i = writtenReg i s ∧
    ∀ (t : State) (r : Reg), exec i s = .next t → t.reg r ≠ s.reg r → reportedReg s.params.branch i = some r

/-- 30_encoding.md R130 to R135, 70_reset_and_hazards.md R366, R367: the text of the spec's examples, the register names, the
numbers of every operand, and the trace lines of the spec's examples. The spec's decisions D24, D26 (log 16). -/
def Obligations.SampleListingLines : Prop :=
  (instrText (.movRegMemToReg true .word .ax (.mem .bxSi (.d8 4))) = "mov ax, [bx + si + 4]".toList ∧
    instrText (.movRegMemToReg true .word .ax (.mem .bpSi (.d16 0x8000))) = "mov ax, [bp + si - 32768]".toList ∧
    instrText (.movRegMemToReg true .word .bx (.direct 1032)) = "mov bx, [1032]".toList ∧
    instrText (.movImmToRegMem .word (.mem .bpSi (.d8 4)) 12) = "mov [bp + si + 4], word 12".toList ∧
    instrText (.movImmToRegMem .byte (.reg .ax) 7) = "mov al, 7".toList ∧
    instrText (.addImmToAcc .word 0xFFFF) = "add ax, -1".toList ∧
    instrText (.movAccToMem .byte 0xFFFF) = "mov [65535], al".toList ∧
    instrText (.loop (-3)) = "loop $-3".toList ∧ instrText (.jg 0) = "jg $+0".toList) ∧
  (allRegs.map (regText .word) =
      ["ax", "cx", "dx", "bx", "sp", "bp", "si", "di"].map String.toList ∧
    allRegs.map (regText .byte) = ["al", "cl", "dl", "bl", "ah", "ch", "dh", "bh"].map String.toList) ∧
  (∀ (w : Width) (b : Base) (disp : Word), placeText w (.mem b disp) = "[".toList ++ baseText b ++
      (if disp.toInt = 0 then []
        else (if 0 < disp.toInt then " + ".toList else " - ".toList) ++ decimalDigits disp.toInt.natAbs) ++ "]".toList) ∧
  (∀ (w : Width) (a : Word), placeText w (.direct a) = "[".toList ++ decimalDigits a.toNat ++ "]".toList) ∧
  (∀ (w : Width) (data : Word), let k := (data.setWidth w.bits).toInt
    immText w data = (if 0 ≤ k then [] else "-".toList) ++ decimalDigits k.natAbs) ∧
  (∀ (name : Text) (k : Int), k.natAbs < 65536 →
    jumpText name k = name ++ " $".toList ++ (if 0 ≤ k then "+".toList else "-".toList) ++ decimalDigits k.natAbs) ∧
  let at0 := fun bs => { State.reset with buf := bs, run := .decoding }
  linesAfter (at0 [0xB8, 0x05, 0x00]) = ["mov ax, 5 ; ax:0x0->0x5".toList] ∧
  linesAfter ((at0 [0x05, 0x02, 0x00]).setReg .ax 5) = ["add ax, 2 ; ax:0x5->0x7".toList] ∧
  linesAfter (at0 [0x3D, 0x00, 0x00]) = ["cmp ax, 0 ; flags:->PZ".toList] ∧
  linesAfter { at0 [0x2D, 0x01, 0x00] with flags := { Flags.clear with p := true, z := true } } =
    ["sub ax, 1 ; ax:0x0->0xffff flags:PZ->CAS".toList] ∧
  linesAfter { at0 [0xB8, 0x05, 0x00] with params := { Params.default with traceIp := true } } =
    ["mov ax, 5 ; ax:0x0->0x5 ip:0x0->0x3".toList]

/-- 70_reset_and_hazards.md R363, R365, R368: every halted run in execute mode has a dump: the header, one line for each
register that is not zero, in code order, under `TRACE_IP` the `ip` line when `pc` is not zero, and the flags line when a flag
is set, and no other line; a failed run, a decode-only run and a run that is still decoding have none. The spec's decision D26
(log 16). -/
def Obligations.FinalDumpWhenHalted : Prop :=
  ∀ (s : State),
    (s.run = .halted → s.params.execute = true → finalDump s = some (
      ["Final registers:".toList] ++
      [Reg.ax, .cx, .dx, .bx, .sp, .bp, .si, .di].flatMap
        (fun r => if s.reg r = 0 then [] else [dumpLineOf (name16 r) (s.reg r)]) ++
      (if s.params.traceIp = true ∧ s.pc ≠ 0 then [dumpLineOf "ip".toList s.pc] else []) ++
      (if lettersOf s.flags = [] then [] else ["   flags: ".toList ++ lettersOf s.flags]))) ∧
    (s.run = .halted → s.params.execute = true → (∀ r, s.reg r = 0) → lettersOf s.flags = [] → s.params.traceIp = false →
      finalDump s = some ["Final registers:".toList]) ∧
    (s.params.execute = false → finalDump s = none) ∧
    (s.run = .decoding → finalDump s = none) ∧
    ∀ e, s.run = .failed e → finalDump s = none

/-- 70_reset_and_hazards.md R366, R367: the line of an execute-mode step is the instruction's text and ` ;`, then a field for
the register the step wrote, changed or not, then under `TRACE_IP` the `ip` field on every line, then a flags field when a flag
changed; memory has none. A step that fails emits no line (60_exceptions.md R333). The layout is the spec's decision D26
(log 16). -/
def Obligations.TraceLineFields : Prop :=
  ∀ (s t : State) (i : Instr) (rest : List Byte), s.params.execute = true →
    decode (s.buf.drop s.fetchPos) = .ok i rest → step s = .next t →
    ((∃ e, t.run = .failed e) → t.lines = s.lines) ∧
    ((∀ e, t.run ≠ .failed e) → t.lines = s.lines ++
      [instrText i ++ " ;".toList ++ regFieldOf (writtenReg i s) s t ++
        (if s.params.traceIp = true then " ip:0x".toList ++ hexDigits s.pc ++ "->0x".toList ++ hexDigits t.pc else []) ++
        (if s.flags = t.flags then [] else " flags:".toList ++ lettersOf s.flags ++ "->".toList ++ lettersOf t.flags)])
end

