-- ==== Sys2Proof/Laws/Memory.lean ====
section
/-!
SUPPORT. Data memory (20_memory.md R78): reads after writes, and the canonical form, which every operation keeps.
-/

namespace Sys2Proof.Machine

theorem Memory.read_write_same (m : Memory) (a : Nat) (v : Byte) (hm : m.Pairwise (fun x y => x.1 < y.1)) :
    (m.write a v).read a = v := by
  induction m with
  | nil => simp only [Memory.write]; split <;> simp_all [Memory.read]
  | cons c rest ih =>
    obtain ⟨k, b⟩ := c
    have hrest := (List.pairwise_cons.1 hm).2
    have hk : ∀ x ∈ rest, k < x.1 := (List.pairwise_cons.1 hm).1
    have absent : ∀ l : Memory, (∀ x ∈ l, a < x.1) → Memory.read l a = Config.unlistedByte := by
      intro l hl
      induction l with
      | nil => rfl
      | cons d l ihl =>
        have hd : d.1 ≠ a := by have := hl d (by simp); omega
        simp only [Memory.read, hd, if_false]
        exact ihl fun x hx => hl x (by simp [hx])
    simp only [Memory.write]
    split
    · rename_i hlt
      split
      · rename_i hv
        rw [hv]
        refine absent _ fun x hx => ?_
        rcases List.mem_cons.1 hx with rfl | hx
        · exact hlt
        · exact Nat.lt_trans hlt (hk x hx)
      · simp [Memory.read]
    · split
      · rename_i hak
        split
        · rename_i hv; rw [hv]; exact absent _ fun x hx => hak ▸ hk x hx
        · simp [Memory.read]
      · rename_i hne
        have : k ≠ a := fun h => hne h.symm
        simp [Memory.read, this, ih hrest]

theorem Memory.read_write_ne (m : Memory) (a c : Nat) (v : Byte) (h : c ≠ a) :
    (m.write a v).read c = m.read c := by
  induction m with
  | nil => simp only [Memory.write]; split <;> simp [Memory.read, Ne.symm h]
  | cons d rest ih =>
    obtain ⟨k, b⟩ := d
    simp only [Memory.write]
    split
    · split <;> simp [Memory.read, Ne.symm h]
    · split
      · rename_i hak
        subst hak
        split <;> simp [Memory.read, Ne.symm h]
      · simp [Memory.read, ih]

theorem Memory.mem_write {m : Memory} {a : Nat} {v : Byte} {c : Host.Cell} (h : c ∈ m.write a v) :
    c ∈ m ∨ (c = (a, v) ∧ v ≠ Config.unlistedByte) := by
  induction m with
  | nil => simp only [Memory.write] at h; split at h <;> simp_all
  | cons d rest ih =>
    obtain ⟨k, b⟩ := d
    simp only [Memory.write] at h
    split at h
    · split at h
      · exact .inl h
      · rcases List.mem_cons.1 h with h | h
        · exact .inr ⟨h, by assumption⟩
        · exact .inl h
    · split at h
      · split at h
        · exact .inl (by simp [h])
        · rcases List.mem_cons.1 h with h | h
          · exact .inr ⟨h, by assumption⟩
          · exact .inl (by simp [h])
      · rcases List.mem_cons.1 h with h | h
        · exact .inl (by simp [h])
        · rcases ih h with h | h
          · exact .inl (by simp [h])
          · exact .inr h

/-- A byte write keeps the canonical form. -/
theorem Memory.write_wf {m : Memory} {a : Nat} {v : Byte} (hm : m.wf) (ha : a < 65536) : (m.write a v).wf := by
  refine ⟨?_, fun c hc => ?_⟩
  · have hp := hm.1
    clear hm
    induction m with
    | nil => simp only [Memory.write]; split <;> simp
    | cons d rest ih =>
      obtain ⟨k, b⟩ := d
      have hk : ∀ x ∈ rest, k < x.1 := (List.pairwise_cons.1 hp).1
      have hr := (List.pairwise_cons.1 hp).2
      simp only [Memory.write]
      split
      · rename_i hlt
        split
        · exact hp
        · refine List.pairwise_cons.2 ⟨fun x hx => ?_, hp⟩
          rcases List.mem_cons.1 hx with rfl | hx
          · exact hlt
          · exact Nat.lt_trans hlt (hk x hx)
      · split
        · rename_i hak
          split
          · exact hr
          · exact List.pairwise_cons.2 ⟨fun x hx => hak ▸ hk x hx, hr⟩
        · refine List.pairwise_cons.2 ⟨fun x hx => ?_, ih hr⟩
          rcases Memory.mem_write hx with hx | ⟨rfl, -⟩
          · exact hk x hx
          · show k < a; omega
  · rcases Memory.mem_write hc with hc | ⟨rfl, hv⟩
    · exact hm.2 c hc
    · exact ⟨ha, hv⟩

/-- A store keeps the canonical form. -/
theorem Memory.store_wf {m : Memory} (hm : m.wf) (w : Width) (a : Word) (v : BitVec w.bits) :
    (m.store w a v).wf := by
  cases w
  · exact Memory.write_wf hm a.isLt
  · exact Memory.write_wf (Memory.write_wf hm a.isLt) (a + 1).isLt

/-- The empty memory is in the canonical form. -/
theorem Memory.nil_wf : Memory.wf [] := by simp [Memory.wf]

/-- Launch memory is in the canonical form. -/
theorem Memory.ofCells_wf (cells : List Host.Cell) : (Memory.ofCells cells).wf := by
  unfold Memory.ofCells
  suffices ∀ m : Memory, m.wf → Memory.wf (cells.foldl (fun m c => Memory.write m (c.1 % 65536) c.2) m) from
    this [] Memory.nil_wf
  induction cells with
  | nil => exact fun m hm => hm
  | cons c cs ih => exact fun m hm => ih _ (Memory.write_wf hm (Nat.mod_lt _ (by decide)))

/-- A cell written later wins: appending one to the launch memory writes its byte. -/
theorem Memory.ofCells_append (cells : List Host.Cell) (c : Host.Cell) :
    Memory.ofCells (cells ++ [c]) = (Memory.ofCells cells).write (c.1 % 65536) c.2 := by
  simp [Memory.ofCells]

/-- What a byte of launch memory reads as: the last cell given for its address, else an unlisted byte (log 20). -/
theorem Memory.read_ofCells (cells : List Host.Cell) (a : Nat) :
    (Memory.ofCells cells).read a =
      match cells.reverse.find? fun c => c.1 % 65536 == a with
      | some c => c.2
      | none => Config.unlistedByte := by
  induction cells using List.reverseRecOn with
  | nil => rfl
  | append_singleton cells c ih =>
    rw [Memory.ofCells_append]
    by_cases h : c.1 % 65536 = a
    · simp [← h, Memory.read_write_same _ _ _ (Memory.ofCells_wf cells).1]
    · rw [Memory.read_write_ne _ _ _ _ (Ne.symm h), ih]
      simp [h]

/-- A store leaves every byte outside its addresses. -/
theorem Memory.read_store_ne (m : Memory) (w : Width) (a : Word) (v : BitVec w.bits) (c : Nat)
    (h : c ∉ storedAddrs w a) : (m.store w a v).read c = m.read c := by
  cases w
  · simp only [storedAddrs, List.mem_singleton] at h
    exact Memory.read_write_ne _ _ _ _ h
  · simp only [storedAddrs, List.mem_cons, List.not_mem_nil, or_false, not_or] at h
    simp only [Memory.store]
    rw [Memory.read_write_ne _ _ _ _ h.2, Memory.read_write_ne _ _ _ _ h.1]

theorem addr_succ_ne (a : Word) : a.toNat ≠ (a + 1).toNat := by
  intro h
  have := BitVec.eq_of_toNat_eq h
  bv_omega

/-- What a store wrote is loaded back, low byte first and across the top of the address space. -/
theorem Memory.load_store {m : Memory} (hm : m.wf) (w : Width) (a : Word) (v : BitVec w.bits) :
    (m.store w a v).load w a = v := by
  cases w
  · exact Memory.read_write_same _ _ _ hm.1
  · simp only [Memory.load, Memory.store]
    rw [Memory.read_write_same _ _ _ (Memory.write_wf hm a.isLt).1, Memory.read_write_ne _ _ _ _ (addr_succ_ne a),
      Memory.read_write_same _ _ _ hm.1]
    show highByte v ++ lowByte v = v
    unfold highByte lowByte
    ext i hi
    simp only [BitVec.getElem_append]
    split
    · simp [BitVec.getLsbD_eq_getElem hi]
    · simp only [BitVec.getElem_extractLsb']
      rw [show 8 + (i - 8) = i by omega, BitVec.getLsbD_eq_getElem hi]

end Sys2Proof.Machine
end

