-- ==== Sys2Proof/Laws/State.lean ====
section
/-!
SUPPORT. One lemma per field and update of the state, so that no proof unfolds a record update.
-/

namespace Sys2Proof.Machine

/-! ### A register write -/

@[simp] theorem setReg_params (s : State) (r : Reg) (v : Word) : (s.setReg r v).params = s.params := rfl

@[simp] theorem setReg_regs (s : State) (r : Reg) (v : Word) : (s.setReg r v).regs = s.regs.set r v := rfl

@[simp] theorem setReg_flags (s : State) (r : Reg) (v : Word) : (s.setReg r v).flags = s.flags := rfl

@[simp] theorem setReg_pc (s : State) (r : Reg) (v : Word) : (s.setReg r v).pc = s.pc := rfl

@[simp] theorem setReg_cur (s : State) (r : Reg) (v : Word) : (s.setReg r v).cur = s.cur := rfl

@[simp] theorem setReg_run (s : State) (r : Reg) (v : Word) : (s.setReg r v).run = s.run := rfl

@[simp] theorem setReg_buf (s : State) (r : Reg) (v : Word) : (s.setReg r v).buf = s.buf := rfl

@[simp] theorem setReg_mem (s : State) (r : Reg) (v : Word) : (s.setReg r v).mem = s.mem := rfl

@[simp] theorem setReg_records (s : State) (r : Reg) (v : Word) : (s.setReg r v).records = s.records := rfl

@[simp] theorem setReg_lines (s : State) (r : Reg) (v : Word) : (s.setReg r v).lines = s.lines := rfl

@[simp] theorem setReg_events (s : State) (r : Reg) (v : Word) : (s.setReg r v).events = s.events := rfl

@[simp] theorem setReg_draws (s : State) (r : Reg) (v : Word) : (s.setReg r v).draws = s.draws := rfl

/-! ### `pc <- cur` -/

@[simp] theorem advance_params (s : State) : (advance s).params = s.params := rfl

@[simp] theorem advance_regs (s : State) : (advance s).regs = s.regs := rfl

@[simp] theorem advance_flags (s : State) : (advance s).flags = s.flags := rfl

@[simp] theorem advance_pc (s : State) : (advance s).pc = BitVec.ofNat 16 s.cur := rfl

@[simp] theorem advance_cur (s : State) : (advance s).cur = s.cur := rfl

@[simp] theorem advance_run (s : State) : (advance s).run = s.run := rfl

@[simp] theorem advance_buf (s : State) : (advance s).buf = s.buf := rfl

@[simp] theorem advance_mem (s : State) : (advance s).mem = s.mem := rfl

@[simp] theorem advance_records (s : State) : (advance s).records = s.records := rfl

@[simp] theorem advance_lines (s : State) : (advance s).lines = s.lines := rfl

@[simp] theorem advance_events (s : State) : (advance s).events = s.events := rfl

@[simp] theorem advance_draws (s : State) : (advance s).draws = s.draws := rfl

/-! ### The entry of an error -/

@[simp] theorem fail_params (k : ErrorKind) (o : Nat) (s : State) : (fail k o s).params = s.params := rfl

@[simp] theorem fail_regs (k : ErrorKind) (o : Nat) (s : State) : (fail k o s).regs = s.regs := rfl

@[simp] theorem fail_flags (k : ErrorKind) (o : Nat) (s : State) : (fail k o s).flags = s.flags := rfl

@[simp] theorem fail_pc (k : ErrorKind) (o : Nat) (s : State) : (fail k o s).pc = s.pc := rfl

@[simp] theorem fail_cur (k : ErrorKind) (o : Nat) (s : State) : (fail k o s).cur = s.cur := rfl

@[simp] theorem fail_run (k : ErrorKind) (o : Nat) (s : State) : (fail k o s).run = .failed ⟨k, o⟩ := rfl

@[simp] theorem fail_buf (k : ErrorKind) (o : Nat) (s : State) : (fail k o s).buf = s.buf := rfl

@[simp] theorem fail_mem (k : ErrorKind) (o : Nat) (s : State) : (fail k o s).mem = s.mem := rfl

@[simp] theorem fail_records (k : ErrorKind) (o : Nat) (s : State) : (fail k o s).records = s.records := rfl

@[simp] theorem fail_lines (k : ErrorKind) (o : Nat) (s : State) : (fail k o s).lines = s.lines := rfl

@[simp] theorem fail_events (k : ErrorKind) (o : Nat) (s : State) : (fail k o s).events = s.events := rfl

@[simp] theorem fail_draws (k : ErrorKind) (o : Nat) (s : State) : (fail k o s).draws = s.draws := rfl

/-! ### The cursor after a decode -/

@[simp] theorem fetched_params (n : Nat) (s : State) : (fetched n s).params = s.params := rfl

@[simp] theorem fetched_regs (n : Nat) (s : State) : (fetched n s).regs = s.regs := rfl

@[simp] theorem fetched_flags (n : Nat) (s : State) : (fetched n s).flags = s.flags := rfl

@[simp] theorem fetched_pc (n : Nat) (s : State) : (fetched n s).pc = s.pc := rfl

@[simp] theorem fetched_cur (n : Nat) (s : State) : (fetched n s).cur = s.fetchPos + n := rfl

@[simp] theorem fetched_run (n : Nat) (s : State) : (fetched n s).run = s.run := rfl

@[simp] theorem fetched_buf (n : Nat) (s : State) : (fetched n s).buf = s.buf := rfl

@[simp] theorem fetched_mem (n : Nat) (s : State) : (fetched n s).mem = s.mem := rfl

@[simp] theorem fetched_records (n : Nat) (s : State) : (fetched n s).records = s.records := rfl

@[simp] theorem fetched_lines (n : Nat) (s : State) : (fetched n s).lines = s.lines := rfl

@[simp] theorem fetched_events (n : Nat) (s : State) : (fetched n s).events = s.events := rfl

@[simp] theorem fetched_draws (n : Nat) (s : State) : (fetched n s).draws = s.draws := rfl

/-! ### A data read -/

@[simp] theorem memRead_params (w : Width) (a : Word) (s : State) : ((memRead w a s).2).params = s.params := rfl

@[simp] theorem memRead_regs (w : Width) (a : Word) (s : State) : ((memRead w a s).2).regs = s.regs := rfl

@[simp] theorem memRead_flags (w : Width) (a : Word) (s : State) : ((memRead w a s).2).flags = s.flags := rfl

@[simp] theorem memRead_pc (w : Width) (a : Word) (s : State) : ((memRead w a s).2).pc = s.pc := rfl

@[simp] theorem memRead_cur (w : Width) (a : Word) (s : State) : ((memRead w a s).2).cur = s.cur := rfl

@[simp] theorem memRead_run (w : Width) (a : Word) (s : State) : ((memRead w a s).2).run = s.run := rfl

@[simp] theorem memRead_buf (w : Width) (a : Word) (s : State) : ((memRead w a s).2).buf = s.buf := rfl

@[simp] theorem memRead_mem (w : Width) (a : Word) (s : State) : ((memRead w a s).2).mem = s.mem := rfl

@[simp] theorem memRead_records (w : Width) (a : Word) (s : State) : ((memRead w a s).2).records = s.records := rfl

@[simp] theorem memRead_lines (w : Width) (a : Word) (s : State) : ((memRead w a s).2).lines = s.lines := rfl

@[simp] theorem memRead_events (w : Width) (a : Word) (s : State) : ((memRead w a s).2).events = s.events ++ [.read s.pc.toNat a w ((memValue w a s).setWidth 16)] := rfl

/-! ### A data write -/

@[simp] theorem memWrite_params (w : Width) (a : Word) (v : BitVec w.bits) (s : State) : (memWrite w a v s).params = s.params := rfl

@[simp] theorem memWrite_regs (w : Width) (a : Word) (v : BitVec w.bits) (s : State) : (memWrite w a v s).regs = s.regs := rfl

@[simp] theorem memWrite_flags (w : Width) (a : Word) (v : BitVec w.bits) (s : State) : (memWrite w a v s).flags = s.flags := rfl

@[simp] theorem memWrite_pc (w : Width) (a : Word) (v : BitVec w.bits) (s : State) : (memWrite w a v s).pc = s.pc := rfl

@[simp] theorem memWrite_cur (w : Width) (a : Word) (v : BitVec w.bits) (s : State) : (memWrite w a v s).cur = s.cur := rfl

@[simp] theorem memWrite_run (w : Width) (a : Word) (v : BitVec w.bits) (s : State) : (memWrite w a v s).run = s.run := rfl

@[simp] theorem memWrite_buf (w : Width) (a : Word) (v : BitVec w.bits) (s : State) : (memWrite w a v s).buf = s.buf := rfl

@[simp] theorem memWrite_records (w : Width) (a : Word) (v : BitVec w.bits) (s : State) : (memWrite w a v s).records = s.records := rfl

@[simp] theorem memWrite_lines (w : Width) (a : Word) (v : BitVec w.bits) (s : State) : (memWrite w a v s).lines = s.lines := rfl

@[simp] theorem memWrite_events (w : Width) (a : Word) (v : BitVec w.bits) (s : State) : (memWrite w a v s).events = s.events ++ [.write s.pc.toNat a w (v.setWidth 16)] := rfl

@[simp] theorem memWrite_draws (w : Width) (a : Word) (v : BitVec w.bits) (s : State) : (memWrite w a v s).draws = s.draws := rfl

@[simp] theorem memRead_value (w : Width) (a : Word) (s : State) : (memRead w a s).1 = memValue w a s := rfl

theorem memRead_draws (w : Width) (a : Word) (s : State) :
    (memRead w a s).2.draws = if s.params.memModel = .oracle then s.draws + 1 else s.draws := by
  cases h : s.params.memModel <;> simp [memRead, h]

theorem memWrite_mem (w : Width) (a : Word) (v : BitVec w.bits) (s : State) :
    (memWrite w a v s).mem = if s.params.memModel = .oracle then s.mem else s.mem.store w a v := by
  cases h : s.params.memModel <;> simp [memWrite, h]

/-! ### The end of a step -/

@[simp] theorem haltAtEnd_params (s : State) : (haltAtEnd s).params = s.params := by
  unfold haltAtEnd; split <;> rfl

@[simp] theorem haltAtEnd_regs (s : State) : (haltAtEnd s).regs = s.regs := by
  unfold haltAtEnd; split <;> rfl

@[simp] theorem haltAtEnd_flags (s : State) : (haltAtEnd s).flags = s.flags := by
  unfold haltAtEnd; split <;> rfl

@[simp] theorem haltAtEnd_pc (s : State) : (haltAtEnd s).pc = s.pc := by
  unfold haltAtEnd; split <;> rfl

@[simp] theorem haltAtEnd_cur (s : State) : (haltAtEnd s).cur = s.cur := by
  unfold haltAtEnd; split <;> rfl

@[simp] theorem haltAtEnd_buf (s : State) : (haltAtEnd s).buf = s.buf := by
  unfold haltAtEnd; split <;> rfl

@[simp] theorem haltAtEnd_mem (s : State) : (haltAtEnd s).mem = s.mem := by
  unfold haltAtEnd; split <;> rfl

@[simp] theorem haltAtEnd_records (s : State) : (haltAtEnd s).records = s.records := by
  unfold haltAtEnd; split <;> rfl

@[simp] theorem haltAtEnd_lines (s : State) : (haltAtEnd s).lines = s.lines := by
  unfold haltAtEnd; split <;> rfl

@[simp] theorem haltAtEnd_events (s : State) : (haltAtEnd s).events = s.events := by
  unfold haltAtEnd; split <;> rfl

@[simp] theorem haltAtEnd_draws (s : State) : (haltAtEnd s).draws = s.draws := by
  unfold haltAtEnd; split <;> rfl

theorem haltAtEnd_run (s : State) :
    (haltAtEnd s).run = if s.fetchPos = s.buf.length then .halted else s.run := by
  unfold haltAtEnd; split <;> rfl

@[simp] theorem finish_params (rec : Record) (s t : State) : (finish rec s t).params = t.params := by
  simp [finish]

@[simp] theorem finish_regs (rec : Record) (s t : State) : (finish rec s t).regs = t.regs := by
  simp [finish]

@[simp] theorem finish_flags (rec : Record) (s t : State) : (finish rec s t).flags = t.flags := by
  simp [finish]

@[simp] theorem finish_pc (rec : Record) (s t : State) : (finish rec s t).pc = t.pc := by
  simp [finish]

@[simp] theorem finish_cur (rec : Record) (s t : State) : (finish rec s t).cur = t.cur := by
  simp [finish]

@[simp] theorem finish_buf (rec : Record) (s t : State) : (finish rec s t).buf = t.buf := by
  simp [finish]

@[simp] theorem finish_mem (rec : Record) (s t : State) : (finish rec s t).mem = t.mem := by
  simp [finish]

@[simp] theorem finish_records (rec : Record) (s t : State) : (finish rec s t).records = t.records ++ [rec] := by
  simp [finish]

@[simp] theorem finish_lines (rec : Record) (s t : State) : (finish rec s t).lines = t.lines ++ [emittedLine rec.instr s t] := by
  simp [finish]

@[simp] theorem finish_events (rec : Record) (s t : State) : (finish rec s t).events = t.events := by
  simp [finish]

@[simp] theorem finish_draws (rec : Record) (s t : State) : (finish rec s t).draws = t.draws := by
  simp [finish]

theorem finish_run (rec : Record) (s t : State) :
    (finish rec s t).run = if t.fetchPos = t.buf.length then .halted else t.run := by
  simp [finish, haltAtEnd_run, State.fetchPos, State.branching]

/-! ### Registers -/

@[simp] theorem setReg_reg_same (s : State) (r : Reg) (v : Word) : (s.setReg r v).reg r = v := by
  cases r <;> rfl

theorem setReg_reg_ne (s : State) (r q : Reg) (v : Word) (h : q ≠ r) : (s.setReg r v).reg q = s.reg q := by
  cases r <;> cases q <;> first | rfl | exact absurd rfl h

/-- Two states with the same register file read the same. -/
theorem reg_congr {s t : State} (h : s.regs = t.regs) (r : Reg) : s.reg r = t.reg r := by
  simp [State.reg, h]

/-- The register file is determined by its eight reads. -/
theorem regs_ext {g k : Regs} (h : ∀ r, g.get r = k.get r) : g = k := by
  cases g; cases k
  simp only [Regs.mk.injEq]
  exact ⟨h .ax, h .cx, h .dx, h .bx, h .sp, h .bp, h .si, h .di⟩

end Sys2Proof.Machine
end

