-- ==== Sys2Proof/Laws/Operands.lean ====
section
/-!
SUPPORT. What register and operand access can do: one statement per operation (10_state.md R34 to R36, 40_execute.md R204,
R205).
-/

namespace Sys2Proof.Machine

/-! ### Byte halves -/

@[simp] theorem lowByte_append (h l : Byte) : lowByte (h ++ l) = l := by
  unfold lowByte
  ext i hi
  rw [BitVec.getElem_extractLsb', BitVec.getLsbD_append]
  simp [hi]

@[simp] theorem highByte_append (h l : Byte) : highByte (h ++ l) = h := by
  unfold highByte
  ext i hi
  rw [BitVec.getElem_extractLsb', BitVec.getLsbD_append]
  simp [BitVec.getLsbD_eq_getElem hi]

@[simp] theorem lowByte_setWidth (v : Byte) : lowByte (v.setWidth 16) = v := by
  unfold lowByte
  ext i hi
  rw [BitVec.getElem_extractLsb', BitVec.getLsbD_setWidth]
  simp [BitVec.getLsbD_eq_getElem hi, show i < 16 by omega]

@[simp] theorem highByte_append_lowByte (v : Word) : highByte v ++ lowByte v = v := by
  unfold highByte lowByte
  ext i hi
  simp only [BitVec.getElem_append]
  split
  · simp [BitVec.getLsbD_eq_getElem hi]
  · rename_i h
    simp only [BitVec.getElem_extractLsb']
    rw [show 8 + (i - 8) = i by omega, BitVec.getLsbD_eq_getElem hi]

@[simp] theorem wordOfBytes_halves (v : Word) : wordOfBytes (lowByte v) (highByte v) = v :=
  highByte_append_lowByte v

/-- The register file after a byte write, in the halves of the written register (10_state.md R34). -/
theorem writeByteReg_i8086 {s : State} (h : s.params.reg8 = .i8086) (r : Reg) (v : Byte) :
    writeByteReg r v s = s.setReg (byteHolder (byteReg r))
      (if byteIsHigh (byteReg r) then v ++ lowByte (s.reg (byteHolder (byteReg r)))
       else highByte (s.reg (byteHolder (byteReg r))) ++ v) := by
  cases hb : byteIsHigh (byteReg r) <;> simp [writeByteReg, h, hb]

/-- A byte write replaces the register under `REG8_MODEL = legacy` (10_state.md R35). -/
theorem writeByteReg_legacy {s : State} (h : s.params.reg8 = .legacy) (r : Reg) (v : Byte)
    (hb : byteIsHigh (byteReg r) = false) :
    writeByteReg r v s = s.setReg (byteHolder (byteReg r)) (v.setWidth 16) := by
  simp [writeByteReg, h, hb]

/-- A byte or word written to a register reads back, unless the access is refused. -/
theorem regRead_regWrite (w : Width) (r : Reg) (v : BitVec w.bits) (s : State) (h : regRefused w r s = false) :
    regRead w r (regWrite w r v s) = v := by
  cases w
  · cases hm : s.params.reg8
    · show readByteReg r (writeByteReg r v s) = v
      rw [writeByteReg_i8086 hm]
      cases hb : byteIsHigh (byteReg r) <;> simp [readByteReg, hb]
    · have hb : byteIsHigh (byteReg r) = false := by simpa [regRefused, hm] using h
      show readByteReg r (writeByteReg r v s) = v
      rw [writeByteReg_legacy hm r v hb]
      simp [readByteReg, hb]
  · exact setReg_reg_same s r v

/-- A register write leaves every register but the holder. -/
theorem regWrite_reg_ne (w : Width) (r q : Reg) (v : BitVec w.bits) (s : State) (h : q ≠ regHolder w r) :
    (regWrite w r v s).reg q = s.reg q := by
  cases w
  · show (writeByteReg r v s).reg q = s.reg q
    have h : q ≠ byteHolder (byteReg r) := h
    unfold writeByteReg
    dsimp only
    split <;> simp [setReg_reg_ne _ _ _ _ h]
  · exact setReg_reg_ne s r q v h

@[simp] theorem regWrite_params (w : Width) (r : Reg) (v : BitVec w.bits) (s : State) :
    (regWrite w r v s).params = s.params := by
  cases w
  · show (writeByteReg r v s).params = s.params
    unfold writeByteReg
    dsimp only
    split <;> rfl
  · rfl

@[simp] theorem regWrite_flags (w : Width) (r : Reg) (v : BitVec w.bits) (s : State) :
    (regWrite w r v s).flags = s.flags := by
  cases w
  · show (writeByteReg r v s).flags = s.flags
    unfold writeByteReg
    dsimp only
    split <;> rfl
  · rfl

@[simp] theorem regWrite_pc (w : Width) (r : Reg) (v : BitVec w.bits) (s : State) :
    (regWrite w r v s).pc = s.pc := by
  cases w
  · show (writeByteReg r v s).pc = s.pc
    unfold writeByteReg
    dsimp only
    split <;> rfl
  · rfl

@[simp] theorem regWrite_cur (w : Width) (r : Reg) (v : BitVec w.bits) (s : State) :
    (regWrite w r v s).cur = s.cur := by
  cases w
  · show (writeByteReg r v s).cur = s.cur
    unfold writeByteReg
    dsimp only
    split <;> rfl
  · rfl

@[simp] theorem regWrite_run (w : Width) (r : Reg) (v : BitVec w.bits) (s : State) :
    (regWrite w r v s).run = s.run := by
  cases w
  · show (writeByteReg r v s).run = s.run
    unfold writeByteReg
    dsimp only
    split <;> rfl
  · rfl

@[simp] theorem regWrite_buf (w : Width) (r : Reg) (v : BitVec w.bits) (s : State) :
    (regWrite w r v s).buf = s.buf := by
  cases w
  · show (writeByteReg r v s).buf = s.buf
    unfold writeByteReg
    dsimp only
    split <;> rfl
  · rfl

@[simp] theorem regWrite_mem (w : Width) (r : Reg) (v : BitVec w.bits) (s : State) :
    (regWrite w r v s).mem = s.mem := by
  cases w
  · show (writeByteReg r v s).mem = s.mem
    unfold writeByteReg
    dsimp only
    split <;> rfl
  · rfl

@[simp] theorem regWrite_records (w : Width) (r : Reg) (v : BitVec w.bits) (s : State) :
    (regWrite w r v s).records = s.records := by
  cases w
  · show (writeByteReg r v s).records = s.records
    unfold writeByteReg
    dsimp only
    split <;> rfl
  · rfl

@[simp] theorem regWrite_lines (w : Width) (r : Reg) (v : BitVec w.bits) (s : State) :
    (regWrite w r v s).lines = s.lines := by
  cases w
  · show (writeByteReg r v s).lines = s.lines
    unfold writeByteReg
    dsimp only
    split <;> rfl
  · rfl

@[simp] theorem regWrite_events (w : Width) (r : Reg) (v : BitVec w.bits) (s : State) :
    (regWrite w r v s).events = s.events := by
  cases w
  · show (writeByteReg r v s).events = s.events
    unfold writeByteReg
    dsimp only
    split <;> rfl
  · rfl

@[simp] theorem regWrite_draws (w : Width) (r : Reg) (v : BitVec w.bits) (s : State) :
    (regWrite w r v s).draws = s.draws := by
  cases w
  · show (writeByteReg r v s).draws = s.draws
    unfold writeByteReg
    dsimp only
    split <;> rfl
  · rfl

/-- A register read looks at the register file only. -/
theorem regRead_congr {s t : State} (w : Width) (r : Reg) (h : s.regs = t.regs) : regRead w r s = regRead w r t := by
  cases w <;> simp [regRead, readByteReg, State.reg, h]

theorem baseValue_congr {s t : State} (b : Base) (h : s.regs = t.regs) : baseValue b s = baseValue b t := by
  cases b <;> simp [baseValue, State.reg, h]

theorem placeAddr_congr {s t : State} (p : Place) (h : s.regs = t.regs) : placeAddr p s = placeAddr p t := by
  cases p <;> simp [placeAddr, baseValue_congr _ h]

/-! ### Reading an operand -/

@[simp] theorem readPlace_value (w : Width) (p : Place) (s : State) : (readPlace w p s).1 = placeValue w p s := by
  cases p <;> rfl

@[simp] theorem readPlace_params (w : Width) (p : Place) (s : State) : (readPlace w p s).2.params = s.params := by
  cases p <;> rfl

@[simp] theorem readSource_params (w : Width) (src : Source) (s : State) : (readSource w src s).2.params = s.params := by
  cases src
  · exact readPlace_params w _ s
  · rfl

@[simp] theorem readPlace_regs (w : Width) (p : Place) (s : State) : (readPlace w p s).2.regs = s.regs := by
  cases p <;> rfl

@[simp] theorem readSource_regs (w : Width) (src : Source) (s : State) : (readSource w src s).2.regs = s.regs := by
  cases src
  · exact readPlace_regs w _ s
  · rfl

@[simp] theorem readPlace_flags (w : Width) (p : Place) (s : State) : (readPlace w p s).2.flags = s.flags := by
  cases p <;> rfl

@[simp] theorem readSource_flags (w : Width) (src : Source) (s : State) : (readSource w src s).2.flags = s.flags := by
  cases src
  · exact readPlace_flags w _ s
  · rfl

@[simp] theorem readPlace_pc (w : Width) (p : Place) (s : State) : (readPlace w p s).2.pc = s.pc := by
  cases p <;> rfl

@[simp] theorem readSource_pc (w : Width) (src : Source) (s : State) : (readSource w src s).2.pc = s.pc := by
  cases src
  · exact readPlace_pc w _ s
  · rfl

@[simp] theorem readPlace_cur (w : Width) (p : Place) (s : State) : (readPlace w p s).2.cur = s.cur := by
  cases p <;> rfl

@[simp] theorem readSource_cur (w : Width) (src : Source) (s : State) : (readSource w src s).2.cur = s.cur := by
  cases src
  · exact readPlace_cur w _ s
  · rfl

@[simp] theorem readPlace_run (w : Width) (p : Place) (s : State) : (readPlace w p s).2.run = s.run := by
  cases p <;> rfl

@[simp] theorem readSource_run (w : Width) (src : Source) (s : State) : (readSource w src s).2.run = s.run := by
  cases src
  · exact readPlace_run w _ s
  · rfl

@[simp] theorem readPlace_buf (w : Width) (p : Place) (s : State) : (readPlace w p s).2.buf = s.buf := by
  cases p <;> rfl

@[simp] theorem readSource_buf (w : Width) (src : Source) (s : State) : (readSource w src s).2.buf = s.buf := by
  cases src
  · exact readPlace_buf w _ s
  · rfl

@[simp] theorem readPlace_mem (w : Width) (p : Place) (s : State) : (readPlace w p s).2.mem = s.mem := by
  cases p <;> rfl

@[simp] theorem readSource_mem (w : Width) (src : Source) (s : State) : (readSource w src s).2.mem = s.mem := by
  cases src
  · exact readPlace_mem w _ s
  · rfl

@[simp] theorem readPlace_records (w : Width) (p : Place) (s : State) : (readPlace w p s).2.records = s.records := by
  cases p <;> rfl

@[simp] theorem readSource_records (w : Width) (src : Source) (s : State) : (readSource w src s).2.records = s.records := by
  cases src
  · exact readPlace_records w _ s
  · rfl

@[simp] theorem readPlace_lines (w : Width) (p : Place) (s : State) : (readPlace w p s).2.lines = s.lines := by
  cases p <;> rfl

@[simp] theorem readSource_lines (w : Width) (src : Source) (s : State) : (readSource w src s).2.lines = s.lines := by
  cases src
  · exact readPlace_lines w _ s
  · rfl

@[simp] theorem readPlace_events (w : Width) (p : Place) (s : State) :
    (readPlace w p s).2.events = s.events ++ placeReads w p s := by
  cases p <;> simp [readPlace, placeReads, placeAddr]

/-- The draws of a place read: one for memory under `oracle` (20_memory.md R76). -/
theorem readPlace_draws (w : Width) (p : Place) (s : State) :
    (readPlace w p s).2.draws =
      if placeAddr p s ≠ none ∧ s.params.memModel = .oracle then s.draws + 1 else s.draws := by
  cases p <;> simp [readPlace, placeAddr, memRead_draws]

/-- A register operand is read without any change of state. -/
@[simp] theorem readPlace_reg (w : Width) (r : Reg) (s : State) : readPlace w (.reg r) s = (regRead w r s, s) := rfl

@[simp] theorem readSource_imm (w : Width) (d : Word) (s : State) : readSource w (.imm d) s = (d.setWidth w.bits, s) := rfl

@[simp] theorem readSource_place (w : Width) (p : Place) (s : State) : readSource w (.place p) s = readPlace w p s := rfl

/-- A value read from a place depends on the registers, the memory, its model and the draw counter. -/
theorem placeValue_congr {s t : State} (w : Width) (p : Place) (hr : s.regs = t.regs) (hm : s.mem = t.mem)
    (hp : s.params = t.params) (hd : s.draws = t.draws) : placeValue w p s = placeValue w p t := by
  cases p <;> simp [placeValue, regRead_congr w _ hr, baseValue_congr _ hr, memValue, hm, hp, hd]

/-! ### Writing an operand -/

@[simp] theorem writePlace_params (w : Width) (p : Place) (v : BitVec w.bits) (s : State) :
    (writePlace w p v s).params = s.params := by
  cases p <;> simp [writePlace]

@[simp] theorem writePlace_flags (w : Width) (p : Place) (v : BitVec w.bits) (s : State) :
    (writePlace w p v s).flags = s.flags := by
  cases p <;> simp [writePlace]

@[simp] theorem writePlace_pc (w : Width) (p : Place) (v : BitVec w.bits) (s : State) :
    (writePlace w p v s).pc = s.pc := by
  cases p <;> simp [writePlace]

@[simp] theorem writePlace_cur (w : Width) (p : Place) (v : BitVec w.bits) (s : State) :
    (writePlace w p v s).cur = s.cur := by
  cases p <;> simp [writePlace]

@[simp] theorem writePlace_run (w : Width) (p : Place) (v : BitVec w.bits) (s : State) :
    (writePlace w p v s).run = s.run := by
  cases p <;> simp [writePlace]

@[simp] theorem writePlace_buf (w : Width) (p : Place) (v : BitVec w.bits) (s : State) :
    (writePlace w p v s).buf = s.buf := by
  cases p <;> simp [writePlace]

@[simp] theorem writePlace_records (w : Width) (p : Place) (v : BitVec w.bits) (s : State) :
    (writePlace w p v s).records = s.records := by
  cases p <;> simp [writePlace]

@[simp] theorem writePlace_lines (w : Width) (p : Place) (v : BitVec w.bits) (s : State) :
    (writePlace w p v s).lines = s.lines := by
  cases p <;> simp [writePlace]

@[simp] theorem writePlace_draws (w : Width) (p : Place) (v : BitVec w.bits) (s : State) :
    (writePlace w p v s).draws = s.draws := by
  cases p <;> simp [writePlace]

@[simp] theorem writePlace_events (w : Width) (p : Place) (v : BitVec w.bits) (s : State) :
    (writePlace w p v s).events = s.events ++ placeWrites w p v s := by
  cases p <;> simp [writePlace, placeWrites, placeAddr]

/-- A place write changes memory only for a memory operand, under `array64k` (20_memory.md R77, R78). -/
theorem writePlace_mem (w : Width) (p : Place) (v : BitVec w.bits) (s : State) :
    (writePlace w p v s).mem =
      match placeAddr p s with
      | none => s.mem
      | some a => if s.params.memModel = .oracle then s.mem else s.mem.store w a v := by
  cases p <;> simp [writePlace, placeAddr, memWrite_mem]

/-- A place write leaves every register but the holder of a register operand. -/
theorem writePlace_reg_ne (w : Width) (p : Place) (v : BitVec w.bits) (s : State) (q : Reg)
    (h : placeHolder w p ≠ some q) : (writePlace w p v s).reg q = s.reg q := by
  cases p with
  | reg r =>
    have : q ≠ regHolder w r := fun e => h (by simp [placeHolder, e])
    exact regWrite_reg_ne w r q v s this
  | mem b d => rfl
  | direct a => rfl

/-- A place write keeps the memory's canonical form. -/
theorem writePlace_wf (w : Width) (p : Place) (v : BitVec w.bits) (s : State) (h : s.mem.wf) :
    (writePlace w p v s).mem.wf := by
  rw [writePlace_mem]
  split
  · exact h
  · split
    · exact h
    · exact Memory.store_wf h _ _ _

/-! ### The obligations' words -/

/-- A register write looks at the register file and `REG8_MODEL` only. -/
theorem regWrite_regs_congr {s t : State} (w : Width) (r : Reg) (v : BitVec w.bits) (hr : s.regs = t.regs)
    (hp : s.params = t.params) : (regWrite w r v s).regs = (regWrite w r v t).regs := by
  cases w
  · show (writeByteReg r v s).regs = (writeByteReg r v t).regs
    unfold writeByteReg
    rw [hp]
    dsimp only
    split <;> simp [State.reg, hr]
  · show s.regs.set r v = t.regs.set r v
    rw [hr]

theorem placeWrites_congr {s t : State} (w : Width) (p : Place) (v : BitVec w.bits) (hr : s.regs = t.regs)
    (hpc : s.pc = t.pc) : placeWrites w p v s = placeWrites w p v t := by
  simp only [placeWrites, placeAddr_congr p hr, hpc]

/-- A place read is an access: its events and its draws. -/
theorem readPlace_accessed (w : Width) (p : Place) (s : State) : Accessed (placeReads w p s) [] s (readPlace w p s).2 := by
  refine ⟨by simp, ?_⟩
  rw [readPlace_draws]
  unfold placeReads
  cases placeAddr p s <;> cases s.params.memModel <;> simp

/-- A place write that is not refused stores its value, for the state `s0` in which the instruction began. -/
theorem writePlace_stored {w : Width} {dst : Place} (v : BitVec w.bits) {s s0 : State} (hw : s.mem.wf)
    (hok : placeRefused w dst s = false) (hr : s.regs = s0.regs) (hp : s.params = s0.params) (hm : s.mem = s0.mem) :
    Stored w dst v s0 (writePlace w dst v s) := by
  refine ⟨?_, fun a ha => ?_⟩
  · rintro r rfl
    exact ⟨regWrite_regs_congr w r v hr hp, regRead_regWrite w r v s hok, by simp [writePlace, hm]⟩
  · rw [← placeAddr_congr dst hr] at ha
    refine ⟨?_, fun ho => ?_, fun ha64 => ?_⟩
    · cases dst <;> simp_all [writePlace, placeAddr]
    · rw [writePlace_mem, ha]; simp [hp, ho, hm]
    · rw [writePlace_mem, ha]
      simp only [hp, ha64, reduceCtorEq, if_false]
      exact ⟨by rw [hm], Memory.load_store hw _ _ _⟩

end Sys2Proof.Machine
end

