-- ==== Sys2Proof/Laws/Decode.lean ====
section
/-!
SUPPORT. The Decoder's parts against the encoder's: fields, the `r/m` operand with its displacement, and the data bytes
(30_encoding.md R102 to R106, R115).
-/

namespace Sys2Proof

open Machine

/-! ### Codes and fields -/

@[simp] theorem Reg.ofCode_code (r : Reg) : Reg.ofCode r.code = r := by cases r <;> rfl

theorem Reg.code_ofCode : ∀ c : BitVec 3, (Reg.ofCode c).code = c := by decide

@[simp] theorem Base.ofCode_code (b : Base) : Base.ofCode b.code = b := by cases b <;> rfl

theorem Base.code_ofCode : ∀ c : BitVec 3, (Base.ofCode c).code = c := by decide

/-- Only `[bp]` has the direct-address code (30_encoding.md R104). -/
theorem Base.code_eq_direct (b : Base) : b.code = 0b110#3 ↔ b = .bp := by cases b <;> decide

theorem modRm_fields : ∀ (md : BitVec 2) (reg rm : BitVec 3),
    modOf (modRm md reg rm) = md ∧ regOf (modRm md reg rm) = reg ∧ rmOf (modRm md reg rm) = rm := by decide

@[simp] theorem modOf_modRm (md : BitVec 2) (reg rm : BitVec 3) : modOf (modRm md reg rm) = md :=
  (modRm_fields md reg rm).1

@[simp] theorem regOf_modRm (md : BitVec 2) (reg rm : BitVec 3) : regOf (modRm md reg rm) = reg :=
  (modRm_fields md reg rm).2.1

@[simp] theorem rmOf_modRm (md : BitVec 2) (reg rm : BitVec 3) : rmOf (modRm md reg rm) = rm :=
  (modRm_fields md reg rm).2.2

/-- The ModRM byte is its three fields. -/
theorem modRm_of_fields : ∀ m : Byte, modRm (modOf m) (regOf m) (rmOf m) = m := by
  intro m
  unfold modRm modOf regOf rmOf
  ext i hi
  simp only [BitVec.getElem_append, BitVec.getElem_extractLsb']
  split
  · simp [BitVec.getLsbD_eq_getElem hi]
  · split
    · rename_i h1 h2
      rw [show 3 + (i - 3) = i by omega, BitVec.getLsbD_eq_getElem hi]
    · rename_i h1 h2
      rw [show 6 + (i - 3 - 3) = i by omega, BitVec.getLsbD_eq_getElem hi]

/-! ### Opcode bytes -/

theorem opcodeDw_fields (p : BitVec 6) (d : Bool) (w : Width) :
    bit1Of (opcodeDw p d w) = d ∧ widthOf (opcodeDw p d w) = w := by
  cases d <;> cases w <;> revert p <;> decide

@[simp] theorem bit1Of_opcodeDw (p : BitVec 6) (d : Bool) (w : Width) : bit1Of (opcodeDw p d w) = d :=
  (opcodeDw_fields p d w).1

@[simp] theorem widthOf_opcodeDw (p : BitVec 6) (d : Bool) (w : Width) : widthOf (opcodeDw p d w) = w :=
  (opcodeDw_fields p d w).2

@[simp] theorem widthOf_opcodeW (p : BitVec 7) (w : Width) : widthOf (opcodeW p w) = w := by
  cases w <;> revert p <;> decide

/-! ### The `r/m` operand -/

@[simp] theorem readWord_wordBytes (v : Word) (tl : List Byte) : readWord (wordBytes v ++ tl) = some (v, tl) := by
  simp [readWord, wordBytes]

/-- A 16-bit field that is read was written as its two bytes. -/
theorem readWord_eq_some {bs tl : List Byte} {v : Word} (h : readWord bs = some (v, tl)) : bs = wordBytes v ++ tl := by
  match bs, h with
  | lo :: hi :: rest, h =>
    simp only [readWord, Option.some.injEq, Prod.mk.injEq] at h
    obtain ⟨rfl, rfl⟩ := h
    simp [wordBytes, wordOfBytes]

/-- `DecodeRM` reads back a well-formed operand and stops after its displacement. -/
theorem decodeRm_encode {o : RmOp} (h : o.wf) (tl : List Byte) :
    decodeRm o.modField o.rmField (o.dispBytes ++ tl) = some (o, tl) := by
  match o, h with
  | .reg r, _ => simp [decodeRm, RmOp.modField, RmOp.rmField, RmOp.dispBytes]
  | .direct a, _ => simp [decodeRm, RmOp.modField, RmOp.rmField, RmOp.dispBytes]
  | .mem b .d0, h =>
    have hb : ¬ b.code = 0b110#3 := fun e => by
      rw [Base.code_eq_direct] at e; subst e; simp [RmOp.wf] at h
    simp [decodeRm, RmOp.modField, RmOp.rmField, RmOp.dispBytes, hb]
  | .mem b (.d8 d), _ => simp [decodeRm, RmOp.modField, RmOp.rmField, RmOp.dispBytes]
  | .mem b (.d16 v), _ => simp [decodeRm, RmOp.modField, RmOp.rmField, RmOp.dispBytes]

/-- What `DecodeRM` reads is well-formed, has the two fields, and took its displacement bytes. -/
theorem decodeRm_eq_some {md : BitVec 2} {rm : BitVec 3} {bs tl : List Byte} {o : RmOp}
    (h : decodeRm md rm bs = some (o, tl)) :
    o.wf = true ∧ o.modField = md ∧ o.rmField = rm ∧ bs = o.dispBytes ++ tl := by
  have hmd : md.toNat < 4 := md.isLt
  unfold decodeRm at h
  split at h
  · rename_i h0
    have e0 : md = 0b00 := BitVec.eq_of_toNat_eq h0
    split at h
    · rename_i hrm
      obtain ⟨⟨a, rest⟩, ha, h⟩ := Option.map_eq_some_iff.1 h
      simp only [Prod.mk.injEq] at h
      obtain ⟨rfl, rfl⟩ := h
      exact ⟨rfl, e0.symm, hrm.symm, readWord_eq_some ha⟩
    · rename_i hrm
      simp only [Option.some.injEq, Prod.mk.injEq] at h
      obtain ⟨rfl, rfl⟩ := h
      have hb : Base.ofCode rm ≠ .bp := fun e => hrm (by
        rw [← Base.code_ofCode rm, Base.code_eq_direct]; exact e)
      exact ⟨by simp [RmOp.wf, hb], e0.symm, Base.code_ofCode rm, rfl⟩
  · rename_i h1
    have e1 : md = 0b01 := BitVec.eq_of_toNat_eq h1
    match bs, h with
    | b :: rest, h =>
      simp only [Option.some.injEq, Prod.mk.injEq] at h
      obtain ⟨rfl, rfl⟩ := h
      exact ⟨by simp [RmOp.wf], e1.symm, Base.code_ofCode rm, rfl⟩
  · rename_i h2
    have e2 : md = 0b10 := BitVec.eq_of_toNat_eq h2
    obtain ⟨⟨v, rest⟩, hv, h⟩ := Option.map_eq_some_iff.1 h
    simp only [Prod.mk.injEq] at h
    obtain ⟨rfl, rfl⟩ := h
    exact ⟨by simp [RmOp.wf], e2.symm, Base.code_ofCode rm, readWord_eq_some hv⟩
  · rename_i n0 n1 n2
    have e3 : md = 0b11 := BitVec.eq_of_toNat_eq (by
      have a : md.toNat ≠ 0 := n0
      have b : md.toNat ≠ 1 := n1
      have c : md.toNat ≠ 2 := n2
      show md.toNat = 3; omega)
    simp only [Option.some.injEq, Prod.mk.injEq] at h
    obtain ⟨rfl, rfl⟩ := h
    exact ⟨rfl, e3.symm, Reg.code_ofCode rm, rfl⟩

/-! ### Data -/

@[simp] theorem setWidth_lowByte {v : Word} (h : v.toNat < 256) : (lowByte v).setWidth 16 = v := by
  apply BitVec.eq_of_toNat_eq
  simp [lowByte, BitVec.extractLsb', Nat.mod_eq_of_lt h]
  omega

theorem lowByte_eq_setWidth (v : Word) : lowByte v = v.setWidth 8 := by
  apply BitVec.eq_of_toNat_eq
  simp [lowByte, BitVec.extractLsb']

/-- `ReadData` reads back a well-formed immediate of the group. -/
theorem readData_encode {s : Bool} {w : Width} {data : Word} (h : groupDataWf s w data) (tl : List Byte) :
    readData w s (encodeData w s data ++ tl) = some (data, tl) := by
  cases w <;> cases s
  · simp only [groupDataWf, decide_eq_true_eq] at h; simp [readData, encodeData, h]
  · simp only [groupDataWf, decide_eq_true_eq] at h; simp [readData, encodeData, h]
  · simp [readData, encodeData]
  · simp only [groupDataWf, decide_eq_true_eq] at h
    simp [readData, encodeData, lowByte_eq_setWidth, ← h]

/-- Where there is no `s` bit, well-formedness is that of the group with s = 0. -/
theorem dataWf_eq (w : Width) (data : Word) : dataWf w data = groupDataWf false w data := by
  cases w <;> rfl

/-- What `ReadData` reads is well-formed and took its data bytes. -/
theorem readData_eq_some {w : Width} {s : Bool} {bs tl : List Byte} {data : Word}
    (h : readData w s bs = some (data, tl)) : groupDataWf s w data = true ∧ bs = encodeData w s data ++ tl := by
  match w, s, bs, h with
  | .word, false, bs, h => exact ⟨rfl, readWord_eq_some h⟩
  | .word, true, lo :: rest, h =>
    simp only [readData, Option.some.injEq, Prod.mk.injEq] at h
    obtain ⟨rfl, rfl⟩ := h
    have e : (lo.signExtend 16).setWidth 8 = lo := by
      ext i hi; simp [BitVec.getLsbD_signExtend, hi]; omega
    simp [groupDataWf, encodeData, lowByte_eq_setWidth, e]
  | .byte, s, lo :: rest, h =>
    have h : some (lo.setWidth 16, rest) = some (data, tl) := by cases s <;> exact h
    simp only [Option.some.injEq, Prod.mk.injEq] at h
    obtain ⟨rfl, rfl⟩ := h
    have : lo.toNat < 256 := lo.isLt
    cases s <;> simp [groupDataWf, encodeData] <;> omega

end Sys2Proof
end

