-- ==== Sys2Proof/Laws/Exec.lean ====
section
/-!
SUPPORT. What the shared operations behind the meanings answer, and the three shapes an instruction's meaning has.
-/

namespace Sys2Proof.Machine

/-! ### `mov` -/

theorem mov_refused {w : Width} {dst : Place} {src : Source} {s : State} (h : operandsRefused w dst src s = true) :
    mov w dst src s = .next (fail .unmodelledReg8High s.pc.toNat s) := by
  simp [mov, h]

theorem mov_runs {w : Width} {dst : Place} {src : Source} {s : State} (h : operandsRefused w dst src s = false) :
    mov w dst src s = .next (advance (writePlace w dst (readSource w src s).1 (readSource w src s).2)) := by
  simp [mov, h]

/-! ### The ALU -/

/-- The state of an ALU instruction after both reads and the flag write. -/
def aluBefore (op : AluOp) (w : Width) (dst : Place) (src : Source) (s : State) : State :=
  let a := placeValue w dst s
  let b := readSource w src (readPlace w dst s).2
  { b.2 with flags := aluFlags s.params.flagModel op a b.1 (aluResult op a b.1) s.flags }

/-- The result of an ALU instruction. -/
def aluValue (op : AluOp) (w : Width) (dst : Place) (src : Source) (s : State) : BitVec w.bits :=
  aluResult op (placeValue w dst s) (readSource w src (readPlace w dst s).2).1

theorem arith_refused {op : AluOp} {w : Width} {dst : Place} {src : Source} {s : State}
    (h : operandsRefused w dst src s = true) :
    arith op w dst src s = .next (fail .unmodelledReg8High s.pc.toNat s) := by
  simp [arith, h]

theorem arith_runs {op : AluOp} {w : Width} {dst : Place} {src : Source} {s : State}
    (h : operandsRefused w dst src s = false) :
    arith op w dst src s = .next (advance (if writesResult op
      then writePlace w dst (aluValue op w dst src s) (aluBefore op w dst src s)
      else aluBefore op w dst src s)) := by
  simp [arith, h, aluBefore, aluValue]

/-! ### Jumps -/

theorem targetInBuffer_iff (k : Int) (s : State) :
    targetInBuffer k s = true ↔ 0 ≤ (s.pc.toNat : Int) + k ∧ (s.pc.toNat : Int) + k ≤ s.buf.length :=
  decide_eq_true_iff

theorem jump_linear {k : Int} {c : Bool} {d s : State} (h : s.params.branch = .linear) :
    jump k c d s = .next (advance s) := by
  simp [jump, h]

theorem jump_notTaken {k : Int} {d s : State} (h : s.params.branch = .taken) :
    jump k false d s = .next (advance d) := by
  simp [jump, h]

theorem jump_inBuffer {k : Int} {d s : State} (h : s.params.branch = .taken) (ht : targetInBuffer k s = true) :
    jump k true d s = .next { d with pc := BitVec.ofInt 16 (jumpTarget k s) } := by
  simp [jump, h, ht]

theorem jump_outOfBuffer {k : Int} {d s : State} (h : s.params.branch = .taken) (ht : targetInBuffer k s = false) :
    jump k true d s = .next (fail .branchOutOfBuffer s.pc.toNat s) := by
  simp [jump, h, ht]

/-! ### The three shapes of a meaning -/

/-- The state that holds a jump's own writes. -/
def jumpDone (j : JumpOp) (s : State) : State := if jumpIsLoop j then s.setReg .cx (s.reg .cx - 1) else s

/-- A jump's meaning is `jump` with its condition. -/
theorem exec_jump (j : JumpOp) (k : Int) (s : State) :
    exec (j.instr k) s = jump k (jumpCond j s) (jumpDone j s) s := by
  cases j <;>
    first
    | rfl
    | (simp only [JumpOp.instr, exec, execLoopnz, execLoopz, execLoop, execJnl, execJg, loopJump, loopCount, jumpCond,
         jumpDone, jumpIsLoop, bne, if_true]
       congr 1
       cases s.flags.z <;> cases s.flags.s <;> cases s.flags.o <;> simp [beq_eq_decide])

/-- What the three shapes are: a move, an ALU operation, a jump, with the instruction's destination and refusal. -/
inductive Shape (i : Instr) (s : State) : Prop where
  | isMov (w : Width) (dst : Place) (src : Source) (heq : exec i s = mov w dst src s)
      (hdst : destination i = some (w, dst)) (halu : isAlu i = false) (hloop : isLoop i = false)
      (href : operandsRefused w dst src s = refusedIn i s) (hrep : ∀ m, reportedReg m i = placeHolder w dst)
      (hone : placeAddr dst s = none ∨ ∀ p, src = .place p → placeAddr p s = none)
  | isArith (op : AluOp) (w : Width) (dst : Place) (src : Source) (heq : exec i s = arith op w dst src s)
      (hdst : destination i = if writesResult op then some (w, dst) else none) (halu : isAlu i = true)
      (hloop : isLoop i = false) (href : operandsRefused w dst src s = refusedIn i s)
      (hrep : ∀ m, reportedReg m i = if writesResult op then placeHolder w dst else none)
      (hone : placeAddr dst s = none ∨ ∀ p, src = .place p → placeAddr p s = none)
  | isJump (j : JumpOp) (k : Int) (heq : i = j.instr k)

theorem highCode_eq (r : Reg) : highCode r = byteIsHigh (byteReg r) := by cases r <;> rfl

theorem regRefused_eq (w : Width) (r : Reg) (s : State) :
    regRefused w r s = (decide (s.params.reg8 = .legacy) && (decide (w = .byte) && highCode r)) := by
  rw [highCode_eq]; cases h : s.params.reg8 <;> cases w <;> simp [regRefused, h]

theorem placeRefused_eq (w : Width) (o : RmOp) (s : State) :
    placeRefused w o.place s = (decide (s.params.reg8 = .legacy) && (decide (w = .byte) && rmHighCode o)) := by
  cases o <;> simp [placeRefused, RmOp.place, rmHighCode, regRefused_eq]

theorem operandsRefused_rm (d : Bool) (w : Width) (reg : Reg) (rm : RmOp) (s : State) :
    operandsRefused w (rmOperands d reg rm).1 (rmOperands d reg rm).2 s =
      (decide (s.params.reg8 = .legacy) && (decide (w = .byte) && (highCode reg || rmHighCode rm))) := by
  have hr : placeRefused w (.reg reg) s = regRefused w reg s := rfl
  cases d <;> simp only [rmOperands, operandsRefused, sourceRefused, if_true, if_false, Bool.false_eq_true] <;>
    rw [placeRefused_eq, hr, regRefused_eq] <;>
    cases s.params.reg8 <;> cases w <;> cases highCode reg <;> cases rmHighCode rm <;> rfl

theorem operandsRefused_rmImm (w : Width) (rm : RmOp) (data : Word) (s : State) :
    operandsRefused w rm.place (.imm data) s =
      (decide (s.params.reg8 = .legacy) && (decide (w = .byte) && rmHighCode rm)) := by
  simp [operandsRefused, sourceRefused, placeRefused_eq]

theorem operandsRefused_regImm (w : Width) (r : Reg) (data : Word) (s : State) :
    operandsRefused w (.reg r) (.imm data) s =
      (decide (s.params.reg8 = .legacy) && (decide (w = .byte) && highCode r)) := by
  simp [operandsRefused, sourceRefused, placeRefused, regRefused_eq]

theorem operandsRefused_acc (w : Width) (data : Word) (s : State) :
    operandsRefused w (.reg .ax) (.imm data) s = false := by
  simp [operandsRefused_regImm, highCode, Reg.code]

theorem rmOperands_fst (d : Bool) (reg : Reg) (rm : RmOp) : (rmOperands d reg rm).1 = rmDst d reg rm := by
  cases d <;> rfl

theorem rmOperands_snd (d : Bool) (reg : Reg) (rm : RmOp) : (rmOperands d reg rm).2 = .place (rmSrc d reg rm) := by
  cases d <;> rfl

/-- At most one operand of the RM format is in memory. -/
theorem rm_one_memory (d : Bool) (reg : Reg) (rm : RmOp) (s : State) :
    placeAddr (rmOperands d reg rm).1 s = none ∨
      ∀ p, (rmOperands d reg rm).2 = .place p → placeAddr p s = none := by
  cases d
  · right; intro p hp; simp only [rmOperands, Bool.false_eq_true, if_false, Source.place.injEq] at hp; subst hp; rfl
  · left; rfl

/-- Every instruction has one of the three shapes. -/
theorem exec_shape (i : Instr) (s : State) : Shape i s := by
  cases i
  case movRegMemToReg d w reg rm =>
    exact .isMov w _ _ rfl (by rw [rmOperands_fst]; rfl) rfl rfl (operandsRefused_rm ..) (fun _ => rfl)
      (rm_one_memory ..)
  case movImmToRegMem w rm data =>
    exact .isMov w _ _ rfl rfl rfl rfl (operandsRefused_rmImm ..) (fun _ => rfl) (.inr fun _ h => by cases h)
  case movImmToReg w reg data =>
    exact .isMov w _ _ rfl rfl rfl rfl (operandsRefused_regImm ..) (fun _ => rfl) (.inl rfl)
  case movMemToAcc w addr =>
    refine .isMov w _ _ rfl rfl rfl rfl ?_ (fun _ => rfl) (.inl rfl)
    simp [operandsRefused, sourceRefused, placeRefused, regRefused_eq, refusedIn, usesHighByte, highCode, Reg.code]
  case movAccToMem w addr =>
    refine .isMov w _ _ rfl rfl rfl rfl ?_ (fun _ => rfl) (.inr fun _ h => by cases h; rfl)
    simp [operandsRefused, sourceRefused, placeRefused, regRefused_eq, refusedIn, usesHighByte, highCode, Reg.code]
  case add d w reg rm =>
    exact .isArith .add w _ _ rfl (by rw [rmOperands_fst]; rfl) rfl rfl (operandsRefused_rm ..) (fun _ => rfl)
      (rm_one_memory ..)
  case sub d w reg rm =>
    exact .isArith .sub w _ _ rfl (by rw [rmOperands_fst]; rfl) rfl rfl (operandsRefused_rm ..) (fun _ => rfl)
      (rm_one_memory ..)
  case cmp d w reg rm =>
    exact .isArith .cmp w _ _ rfl rfl rfl rfl (operandsRefused_rm ..) (fun _ => rfl) (rm_one_memory ..)
  case addImmToRegMem x w rm data =>
    exact .isArith .add w _ _ rfl rfl rfl rfl (operandsRefused_rmImm ..) (fun _ => rfl) (.inr fun _ h => by cases h)
  case subImmToRegMem x w rm data =>
    exact .isArith .sub w _ _ rfl rfl rfl rfl (operandsRefused_rmImm ..) (fun _ => rfl) (.inr fun _ h => by cases h)
  case cmpImmToRegMem x w rm data =>
    exact .isArith .cmp w _ _ rfl rfl rfl rfl (operandsRefused_rmImm ..) (fun _ => rfl) (.inr fun _ h => by cases h)
  case addImmToAcc w data =>
    exact .isArith .add w _ _ rfl rfl rfl rfl (by rw [operandsRefused_acc]; simp [refusedIn, usesHighByte])
      (fun _ => rfl) (.inl rfl)
  case subImmToAcc w data =>
    exact .isArith .sub w _ _ rfl rfl rfl rfl (by rw [operandsRefused_acc]; simp [refusedIn, usesHighByte])
      (fun _ => rfl) (.inl rfl)
  case cmpImmToAcc w data =>
    exact .isArith .cmp w _ _ rfl rfl rfl rfl (by rw [operandsRefused_acc]; simp [refusedIn, usesHighByte])
      (fun _ => rfl) (.inl rfl)
  case jo k => exact .isJump .jo k rfl
  case jno k => exact .isJump .jno k rfl
  case jb k => exact .isJump .jb k rfl
  case jnb k => exact .isJump .jnb k rfl
  case je k => exact .isJump .je k rfl
  case jne k => exact .isJump .jne k rfl
  case jbe k => exact .isJump .jbe k rfl
  case ja k => exact .isJump .ja k rfl
  case js k => exact .isJump .js k rfl
  case jns k => exact .isJump .jns k rfl
  case jp k => exact .isJump .jp k rfl
  case jnp k => exact .isJump .jnp k rfl
  case jl k => exact .isJump .jl k rfl
  case jnl k => exact .isJump .jnl k rfl
  case jle k => exact .isJump .jle k rfl
  case jg k => exact .isJump .jg k rfl
  case loopnz k => exact .isJump .loopnz k rfl
  case loopz k => exact .isJump .loopz k rfl
  case loop k => exact .isJump .loop k rfl
  case jcxz k => exact .isJump .jcxz k rfl

/-- Every meaning answers a next state: no instruction ends in a fault or a refusal. -/
theorem exec_answers_next (i : Instr) (s : State) : ∃ t, exec i s = .next t := by
  rcases exec_shape i s with ⟨w, dst, src, h⟩ | ⟨op, w, dst, src, h⟩ | ⟨j, k, rfl⟩
  · rw [h]
    cases hr : operandsRefused w dst src s
    · exact ⟨_, mov_runs hr⟩
    · exact ⟨_, mov_refused hr⟩
  · rw [h]
    cases hr : operandsRefused w dst src s
    · exact ⟨_, arith_runs hr⟩
    · exact ⟨_, arith_refused hr⟩
  · rw [exec_jump]
    cases hb : s.params.branch
    · exact ⟨_, jump_linear hb⟩
    · cases hc : jumpCond j s
      · exact ⟨_, jump_notTaken hb⟩
      · cases ht : targetInBuffer k s
        · exact ⟨_, jump_outOfBuffer hb ht⟩
        · exact ⟨_, jump_inBuffer hb ht⟩

/-! ### Everything an instruction can do -/

/-- A jump writes no operand and no flag, and no jump is refused. -/
theorem jump_static {i : Instr} {j : JumpOp} {k : Int} (h : i = j.instr k) :
    isAlu i = false ∧ destination i = none ∧ isLoop i = jumpIsLoop j ∧ ∀ s, refusedIn i s = false := by
  subst h
  cases j <;> simp [JumpOp.instr, isAlu, destination, isLoop, jumpIsLoop, refusedIn, usesHighByte]

/-- Everything an instruction that answers a next state can do: refuse a byte register, branch out of the buffer, move,
compute, or jump in one of three ways. -/
inductive ExecCase (i : Instr) (s t : State) : Prop where
  | refused (href : refusedIn i s = true) (ht : t = fail .unmodelledReg8High s.pc.toNat s)
  | outOfBuffer (j : JumpOp) (k : Int) (hi : i = j.instr k) (hb : s.params.branch = .taken) (hc : jumpCond j s = true)
      (hin : targetInBuffer k s = false) (ht : t = fail .branchOutOfBuffer s.pc.toNat s)
  | moved (w : Width) (dst : Place) (src : Source) (href : refusedIn i s = false) (hdst : destination i = some (w, dst))
      (halu : isAlu i = false) (hloop : isLoop i = false) (hrep : ∀ m, reportedReg m i = placeHolder w dst)
      (hone : placeAddr dst s = none ∨ ∀ p, src = .place p → placeAddr p s = none)
      (ht : t = advance (writePlace w dst (readSource w src s).1 (readSource w src s).2))
  | computed (op : AluOp) (w : Width) (dst : Place) (src : Source) (href : refusedIn i s = false)
      (hdst : destination i = if writesResult op then some (w, dst) else none)
      (halu : isAlu i = true) (hloop : isLoop i = false)
      (hrep : ∀ m, reportedReg m i = if writesResult op then placeHolder w dst else none)
      (hone : placeAddr dst s = none ∨ ∀ p, src = .place p → placeAddr p s = none)
      (ht : t = advance (if writesResult op
        then writePlace w dst (aluValue op w dst src s) (aluBefore op w dst src s)
        else aluBefore op w dst src s))
  | linear (j : JumpOp) (k : Int) (hi : i = j.instr k) (hb : s.params.branch = .linear) (ht : t = advance s)
  | fellThrough (j : JumpOp) (k : Int) (hi : i = j.instr k) (hb : s.params.branch = .taken) (hc : jumpCond j s = false)
      (ht : t = advance (jumpDone j s))
  | jumped (j : JumpOp) (k : Int) (hi : i = j.instr k) (hb : s.params.branch = .taken) (hc : jumpCond j s = true)
      (hin : targetInBuffer k s = true) (ht : t = { jumpDone j s with pc := BitVec.ofInt 16 (jumpTarget k s) })

/-- The inversion of `exec`. -/
theorem exec_cases {i : Instr} {s t : State} (h : exec i s = .next t) : ExecCase i s t := by
  rcases exec_shape i s with ⟨w, dst, src, he, hd, ha, hl, hr, hrep, hone⟩ |
    ⟨op, w, dst, src, he, hd, ha, hl, hr, hrep, hone⟩ | ⟨j, k, rfl⟩
  · rw [he] at h
    cases hro : operandsRefused w dst src s
    · rw [mov_runs hro] at h
      exact .moved w dst src (hr ▸ hro) hd ha hl hrep hone (by simpa using h.symm)
    · rw [mov_refused hro] at h
      exact .refused (hr ▸ hro) (by simpa using h.symm)
  · rw [he] at h
    cases hro : operandsRefused w dst src s
    · rw [arith_runs hro] at h
      exact .computed op w dst src (hr ▸ hro) hd ha hl hrep hone (by simpa using h.symm)
    · rw [arith_refused hro] at h
      exact .refused (hr ▸ hro) (by simpa using h.symm)
  · rw [exec_jump] at h
    cases hb : s.params.branch
    · rw [jump_linear hb] at h
      exact .linear j k rfl hb (by simpa using h.symm)
    · cases hc : jumpCond j s
      · rw [hc, jump_notTaken hb] at h
        exact .fellThrough j k rfl hb hc (by simpa using h.symm)
      · cases ht : targetInBuffer k s
        · rw [hc, jump_outOfBuffer hb ht] at h
          exact .outOfBuffer j k rfl hb hc ht (by simpa using h.symm)
        · rw [hc, jump_inBuffer hb ht] at h
          exact .jumped j k rfl hb hc ht (by simpa using h.symm)

end Sys2Proof.Machine
end

