-- ==== Sys2Proof/Laws/Flags.lean ====
section
/-!
SUPPORT. The ALU's result and the nibble carry in plain terms (42_arith.md R241, R243, R244).
-/

namespace Sys2Proof.Machine

theorem aluResult_eq {n : Nat} (op : AluOp) (a b : BitVec n) :
    aluResult op a b = if op = .add then a + b else a - b := by
  cases op <;> rfl

theorem nibbleCarry_add {n : Nat} (a b : BitVec n) :
    nibbleCarry .add a b = true ↔ 15 < a.toNat % 16 + b.toNat % 16 :=
  decide_eq_true_iff

/-- `sub` and `cmp` borrow alike. -/
theorem nibbleCarry_borrow {n : Nat} {op : AluOp} (h : op ≠ .add) (a b : BitVec n) :
    nibbleCarry op a b = true ↔ a.toNat % 16 < b.toNat % 16 := by
  cases op
  · exact absurd rfl h
  · exact decide_eq_true_iff
  · exact decide_eq_true_iff

theorem lowBits_eq {n : Nat} (k : Nat) (v : BitVec n) : lowBits k v = v.toNat % 2 ^ k := rfl

/-- A pattern is zero exactly if its number is. -/
theorem eq_zero_iff_toNat {n : Nat} (r : BitVec n) : r = 0 ↔ r.toNat = 0 :=
  ⟨fun h => by rw [h]; simp, fun h => BitVec.eq_of_toNat_eq (by simpa using h)⟩

end Sys2Proof.Machine
end

