-- ==== Sys2Proof/Laws/PerInstr.lean ====
section
/-!
SUPPORT. The family `EncodeLength`: every instruction is 2 to 6 bytes long (30_encoding.md R100), one lemma per constructor.
-/

namespace Sys2Proof.Laws.EncodeLength

/-- The instruction's encoding has 2 to 6 bytes. -/
def Statement (i : Instr) : Prop := 2 ≤ (encode i).length ∧ (encode i).length ≤ 6

theorem rm_length (o : RmOp) (mid : BitVec 3) : 1 ≤ (o.encode mid).length ∧ (o.encode mid).length ≤ 3 := by
  rcases o with r | ⟨b, _ | d | v⟩ | a <;> simp [RmOp.encode, RmOp.dispBytes, wordBytes]

theorem data_length (w : Width) (s : Bool) (data : Word) :
    1 ≤ (encodeData w s data).length ∧ (encodeData w s data).length ≤ 2 := by
  cases w <;> cases s <;> simp [encodeData, wordBytes]

theorem movRegMemToReg (d : Bool) (w : Width) (reg : Reg) (rm : RmOp) : Statement (.movRegMemToReg d w reg rm) := by
  have := rm_length rm reg.code; simp only [Statement, encode, List.length_cons]; omega

theorem movImmToRegMem (w : Width) (rm : RmOp) (data : Word) : Statement (.movImmToRegMem w rm data) := by
  have := rm_length rm 0b000; have := data_length w false data
  simp only [Statement, encode, List.length_cons, List.length_append, List.cons_append]; omega

theorem movImmToReg (w : Width) (reg : Reg) (data : Word) : Statement (.movImmToReg w reg data) := by
  have := data_length w false data; simp only [Statement, encode, List.length_cons]; omega

theorem movMemToAcc (w : Width) (addr : Word) : Statement (.movMemToAcc w addr) := by
  simp [Statement, encode, wordBytes]

theorem movAccToMem (w : Width) (addr : Word) : Statement (.movAccToMem w addr) := by
  simp [Statement, encode, wordBytes]

theorem add (d : Bool) (w : Width) (reg : Reg) (rm : RmOp) : Statement (.add d w reg rm) := by
  have := rm_length rm reg.code; simp only [Statement, encode, List.length_cons]; omega

theorem addImmToRegMem (s : Bool) (w : Width) (rm : RmOp) (data : Word) : Statement (.addImmToRegMem s w rm data) := by
  have := rm_length rm 0b000; have := data_length w s data
  simp only [Statement, encode, List.length_cons, List.length_append, List.cons_append]; omega

theorem addImmToAcc (w : Width) (data : Word) : Statement (.addImmToAcc w data) := by
  have := data_length w false data; simp only [Statement, encode, List.length_cons]; omega

theorem sub (d : Bool) (w : Width) (reg : Reg) (rm : RmOp) : Statement (.sub d w reg rm) := by
  have := rm_length rm reg.code; simp only [Statement, encode, List.length_cons]; omega

theorem subImmToRegMem (s : Bool) (w : Width) (rm : RmOp) (data : Word) : Statement (.subImmToRegMem s w rm data) := by
  have := rm_length rm 0b101; have := data_length w s data
  simp only [Statement, encode, List.length_cons, List.length_append, List.cons_append]; omega

theorem subImmToAcc (w : Width) (data : Word) : Statement (.subImmToAcc w data) := by
  have := data_length w false data; simp only [Statement, encode, List.length_cons]; omega

theorem cmp (d : Bool) (w : Width) (reg : Reg) (rm : RmOp) : Statement (.cmp d w reg rm) := by
  have := rm_length rm reg.code; simp only [Statement, encode, List.length_cons]; omega

theorem cmpImmToRegMem (s : Bool) (w : Width) (rm : RmOp) (data : Word) : Statement (.cmpImmToRegMem s w rm data) := by
  have := rm_length rm 0b111; have := data_length w s data
  simp only [Statement, encode, List.length_cons, List.length_append, List.cons_append]; omega

theorem cmpImmToAcc (w : Width) (data : Word) : Statement (.cmpImmToAcc w data) := by
  have := data_length w false data; simp only [Statement, encode, List.length_cons]; omega

theorem jo (ipInc : Int) : Statement (.jo ipInc) := by simp [Statement, encode, encodeJump]

theorem jno (ipInc : Int) : Statement (.jno ipInc) := by simp [Statement, encode, encodeJump]

theorem jb (ipInc : Int) : Statement (.jb ipInc) := by simp [Statement, encode, encodeJump]

theorem jnb (ipInc : Int) : Statement (.jnb ipInc) := by simp [Statement, encode, encodeJump]

theorem je (ipInc : Int) : Statement (.je ipInc) := by simp [Statement, encode, encodeJump]

theorem jne (ipInc : Int) : Statement (.jne ipInc) := by simp [Statement, encode, encodeJump]

theorem jbe (ipInc : Int) : Statement (.jbe ipInc) := by simp [Statement, encode, encodeJump]

theorem ja (ipInc : Int) : Statement (.ja ipInc) := by simp [Statement, encode, encodeJump]

theorem js (ipInc : Int) : Statement (.js ipInc) := by simp [Statement, encode, encodeJump]

theorem jns (ipInc : Int) : Statement (.jns ipInc) := by simp [Statement, encode, encodeJump]

theorem jp (ipInc : Int) : Statement (.jp ipInc) := by simp [Statement, encode, encodeJump]

theorem jnp (ipInc : Int) : Statement (.jnp ipInc) := by simp [Statement, encode, encodeJump]

theorem jl (ipInc : Int) : Statement (.jl ipInc) := by simp [Statement, encode, encodeJump]

theorem jnl (ipInc : Int) : Statement (.jnl ipInc) := by simp [Statement, encode, encodeJump]

theorem jle (ipInc : Int) : Statement (.jle ipInc) := by simp [Statement, encode, encodeJump]

theorem jg (ipInc : Int) : Statement (.jg ipInc) := by simp [Statement, encode, encodeJump]

theorem loopnz (ipInc : Int) : Statement (.loopnz ipInc) := by simp [Statement, encode, encodeJump]

theorem loopz (ipInc : Int) : Statement (.loopz ipInc) := by simp [Statement, encode, encodeJump]

theorem loop (ipInc : Int) : Statement (.loop ipInc) := by simp [Statement, encode, encodeJump]

theorem jcxz (ipInc : Int) : Statement (.jcxz ipInc) := by simp [Statement, encode, encodeJump]

end Sys2Proof.Laws.EncodeLength
end

