-- ==== Sys2Proof/Laws/Step.lean ====
section
/-!
SUPPORT. What a step can do (40_execute.md R201): the equations of the step, and their inversion.
-/

namespace Sys2Proof.Machine

theorem step_halted {s : State} (h : s.run = .halted) : step s = .fault .runHalted := by
  simp [step, anyStep, h]

theorem step_failed {s : State} {e : RunError} (h : s.run = .failed e) : step s = stepFailed e := by
  simp [step, anyStep, h]

theorem step_decoding {s : State} (h : s.run = .decoding) : step s = cycle s := by
  simp [step, anyStep, h]

/-- A run that has ended does not go on. -/
theorem stepFailed_not_next (e : RunError) (t : State) : stepFailed e ≠ .next t := by
  unfold stepFailed; split <;> simp

/-- The record a step hands over. -/
def stepRecord (s : State) (i : Instr) (rest : List Byte) : Record :=
  ⟨s.fetchPos, (fetchBytes s).length - rest.length, i⟩

/-- The state after decoding. -/
def decodedState (s : State) (rest : List Byte) : State := fetched ((fetchBytes s).length - rest.length) s

/-- Everything a step that answers a next state can do. -/
inductive StepCase (s t : State) : Prop where
  | malformed (n : Nat) (hd : decode (fetchBytes s) = .malformed n)
      (ht : t = fail .malformedOpcode s.fetchPos (fetched n s))
  | truncated (hd : decode (fetchBytes s) = .truncated)
      (ht : t = fail .truncatedStream s.fetchPos (fetched (fetchBytes s).length s))
  | executed (i : Instr) (rest : List Byte) (u : State) (hd : decode (fetchBytes s) = .ok i rest)
      (he : s.params.execute = true) (hu : exec i (decodedState s rest) = .next u)
      (ht : t = finishExec (stepRecord s i rest) (decodedState s rest) u)
  | listed (i : Instr) (rest : List Byte) (hd : decode (fetchBytes s) = .ok i rest) (he : s.params.execute = false)
      (ht : t = finish (stepRecord s i rest) (decodedState s rest) (advance (decodedState s rest)))

/-- The inversion of `step`. -/
theorem step_cases {s t : State} (h : step s = .next t) : s.run = .decoding ∧ StepCase s t := by
  cases hr : s.run with
  | halted => rw [step_halted hr] at h; cases h
  | failed e => rw [step_failed hr] at h; exact absurd h (stepFailed_not_next e t)
  | decoding =>
    refine ⟨rfl, ?_⟩
    rw [step_decoding hr] at h
    unfold cycle at h
    split at h
    · rename_i n hd; exact .malformed n hd (by simpa using h.symm)
    · rename_i hd; exact .truncated hd (by simpa using h.symm)
    · rename_i i rest hd
      simp only [execute] at h
      cases he : s.params.execute with
      | false =>
        simp only [fetched_params, he, Bool.false_eq_true, if_false] at h
        exact .listed i rest hd he (by simpa [stepRecord, decodedState] using h.symm)
      | true =>
        simp only [fetched_params, he, if_true] at h
        obtain ⟨u, hu⟩ := exec_answers_next i (decodedState s rest)
        unfold decodedState at hu
        rw [hu] at h
        exact .executed i rest u hd he hu (by simpa [stepRecord, decodedState] using h.symm)

end Sys2Proof.Machine
end

