-- ==== Sys2Proof/Laws/Text.lean ====
section
/-!
SUPPORT. The printed numbers (30_encoding.md R132, 70_reset_and_hazards.md R366, R368) are the digits of the library's
`Nat.toDigits`, and the flag letters those of the set flags.
-/

namespace Sys2Proof.Machine

theorem digitChar_eq (d : Nat) (h : d < 16) : digitChar d = Nat.digitChar d := by
  interval_cases d <;> rfl

/-- `digits` with enough fuel leaves no digit out (log 21). -/
theorem digits_eq {base : Nat} (h1 : 1 < base) (h16 : base ≤ 16) (fuel : Nat) :
    ∀ n, n < base ^ fuel → 0 < fuel → digits base fuel n = Nat.toDigits base n := by
  induction fuel with
  | zero => intro _ _ h; omega
  | succ fuel ih =>
    intro n hn _
    rw [Nat.toDigits_eq_if h1, digits]
    split
    · rename_i hb; rw [digitChar_eq _ (by omega)]
    · rename_i hb
      have hmod : n % base < 16 := Nat.lt_of_lt_of_le (Nat.mod_lt _ (by omega)) h16
      have hpos : 0 < fuel := by
        rcases Nat.eq_zero_or_pos fuel with rfl | h
        · simp at hn; omega
        · exact h
      rw [digitChar_eq _ hmod, ih (n / base) ((Nat.div_lt_iff_lt_mul (by omega)).2 (by rwa [← Nat.pow_succ])) hpos]

theorem decimal_eq {n : Nat} (h : n < 65536) : decimal n = decimalDigits n :=
  digits_eq (by decide) (by decide) 20 n (by omega) (by decide)

theorem decimal_word (v : Word) : decimal v.toNat = decimalDigits v.toNat := by
  apply decimal_eq
  have := v.isLt
  omega

theorem hex_eq (v : Word) : hex v = hexDigits v :=
  digits_eq (by decide) (by decide) 4 v.toNat v.isLt (by decide)

/-- The zeros before a number and its digits are four digits. -/
theorem hex4_eq (v : Word) : hex4 v = fourHexDigits v := by
  have hlt := v.isLt
  have key : ∀ n, n < 65536 → List.replicate (4 - (Nat.toDigits 16 n).length) '0' ++ Nat.toDigits 16 n =
      [n / 4096, n / 256 % 16, n / 16 % 16, n % 16].map Nat.digitChar := by
    intro n hn
    have h16 : 1 < 16 := by decide
    rcases Nat.lt_or_ge n 16 with h | h
    · rw [Nat.toDigits_of_lt_base h]
      simp [show n / 4096 = 0 by omega, show n / 256 = 0 by omega, show n / 16 = 0 by omega,
        show n % 16 = n by omega, List.replicate, Nat.digitChar]
    · rw [Nat.toDigits_of_base_le h16 h]
      rcases Nat.lt_or_ge (n / 16) 16 with h2 | h2
      · rw [Nat.toDigits_of_lt_base h2]
        simp [show n / 4096 = 0 by omega, show n / 256 = 0 by omega, show n / 16 % 16 = n / 16 by omega,
          List.replicate, Nat.digitChar]
      · rw [Nat.toDigits_of_base_le h16 h2]
        have e : n / 16 / 16 = n / 256 := by omega
        rw [e]
        rcases Nat.lt_or_ge (n / 256) 16 with h3 | h3
        · rw [Nat.toDigits_of_lt_base h3]
          simp [show n / 4096 = 0 by omega, show n / 256 % 16 = n / 256 by omega, Nat.digitChar]
        · rw [Nat.toDigits_of_base_le h16 h3]
          have e2 : n / 256 / 16 = n / 4096 := by omega
          rw [e2, Nat.toDigits_of_lt_base (show n / 4096 < 16 by omega)]
          simp
  rw [hex4, hex_eq]
  exact key _ hlt

theorem flagLetters_eq (f : Flags) : flagLetters f = lettersOf f := by
  rcases f with ⟨c, p, a, z, s, o⟩
  cases c <;> cases p <;> cases a <;> cases z <;> cases s <;> cases o <;> rfl

/-- No letter is printed exactly when no flag is set. -/
theorem lettersOf_eq_nil (f : Flags) : lettersOf f = [] ↔ f = Flags.clear := by
  rcases f with ⟨c, p, a, z, s, o⟩
  simp [lettersOf, List.filter_eq_nil_iff, Flags.clear]

/-- The field of a written register (70_reset_and_hazards.md R366). -/
theorem regField_eq (r : Option Reg) (s t : State) : regField r s t = regFieldOf r s t := by
  cases r with
  | none => rfl
  | some r => simp only [regField, regFieldOf, changeField, hex_eq]

/-- A value line of the dump (70_reset_and_hazards.md R368). -/
theorem dumpValue_eq (name : Text) (v : Word) : dumpValue name v = dumpLineOf name v := by
  unfold dumpValue dumpLineOf
  rw [hex4_eq, decimal_word]

end Sys2Proof.Machine
end

