-- ==== Sys2Proof/Tests/Slice0.lean ====
section
/-!
SUPPORT. The model's own tests: ill-formed terms refused, the spec's encodings decoded, one step per instruction with the
results of 95_test_vectors.md, and a witness for the hypotheses of each obligation.
-/

namespace Sys2Proof.Tests

open Machine

/-! ### Helpers -/

/-- A run about to decode `bs`, everything else as at reset. -/
def start (bs : List Byte) : State := { State.reset with buf := bs, run := .decoding }

/-- The same under `BRANCH_MODEL = taken`. -/
def startTaken (bs : List Byte) : State :=
  { start bs with params := { Params.default with branch := .taken } }

/-- The same under `FLAG_MODEL = i8086`. -/
def start8086 (bs : List Byte) : State :=
  { start bs with params := { Params.default with flagModel := .i8086 } }

/-- The same under `REG8_MODEL = legacy`. -/
def startLegacy8 (bs : List Byte) : State :=
  { start bs with params := { Params.default with reg8 := .legacy } }

/-- The same under `MEM_MODEL = array64k`. -/
def startArray (bs : List Byte) (m : Memory) : State :=
  { start bs with params := { Params.default with memModel := .array64k }, mem := m }

/-- The same with `EXECUTE = false`. -/
def startListing (bs : List Byte) : State :=
  { start bs with params := { Params.default with execute := false } }

/-- With other registers. -/
def withRegs (s : State) (g : Regs) : State := { s with regs := g }

/-- With other flags. -/
def withFlags (s : State) (f : Flags) : State := { s with flags := f }

/-- What is seen of a step: the registers, the flags, the `pc`, the run state and the last line. -/
structure View where
  regs  : Regs
  flags : Flags
  pc    : Word
  run   : RunState
  line  : Option Text
  deriving DecidableEq, Repr

/-- One step. -/
def see (s : State) : Option View :=
  match step s with
  | .next t => some ⟨t.regs, t.flags, t.pc, t.run, t.lines.getLast?⟩
  | .fault _ => none
  | .refused _ => none

/-- One step's memory and events. -/
def seeMem (s : State) : Option (Memory × List Event) :=
  match step s with
  | .next t => some (t.mem, t.events)
  | .fault _ => none
  | .refused _ => none

def regsAx (v : Word) : Regs := { Regs.zero with ax := v }

def regsCx (v : Word) : Regs := { Regs.zero with cx := v }

/-- Flags from the set ones, in the order C P A Z S O. -/
def fl (c p a z s o : Bool) : Flags := { c := c, p := p, a := a, z := z, s := s, o := o }

def flagsPZ : Flags := fl false true false true false false

/-! ### Well-formedness: one ill-formed term for each check -/

theorem test_bp_without_displacement_refused :
    (Instr.movRegMemToReg true .word .ax (.mem .bp .d0)).wf = false ∧
    (Instr.add true .word .ax (.mem .bp .d0)).wf = false ∧ (Instr.sub true .word .ax (.mem .bp .d0)).wf = false ∧
    (Instr.cmp true .word .ax (.mem .bp .d0)).wf = false ∧ (Instr.movImmToRegMem .word (.mem .bp .d0) 0).wf = false ∧
    (Instr.addImmToRegMem false .word (.mem .bp .d0) 0).wf = false := by decide

theorem test_wide_byte_immediate_refused :
    (Instr.movImmToRegMem .byte (.reg .ax) 0x100).wf = false ∧ (Instr.movImmToReg .byte .ax 0x100).wf = false ∧
    (Instr.addImmToAcc .byte 0x100).wf = false ∧ (Instr.subImmToAcc .byte 0xFFFF).wf = false ∧
    (Instr.cmpImmToAcc .byte 0x8000).wf = false := by decide

theorem test_group_immediate_refused :
    (Instr.addImmToRegMem false .byte (.reg .ax) 0x100).wf = false ∧
    (Instr.subImmToRegMem true .byte (.reg .ax) 0xFFFF).wf = false ∧
    (Instr.cmpImmToRegMem true .word (.reg .ax) 0x0080).wf = false := by decide

theorem test_jump_offset_refused : (Instr.je 130).wf = false ∧ (Instr.loop (-127)).wf = false := by decide

theorem test_boundary_terms_accepted :
    (Instr.movRegMemToReg true .word .ax (.mem .bp (.d8 0))).wf = true ∧ (Instr.movImmToReg .byte .ax 0xFF).wf = true ∧
    (Instr.addImmToRegMem true .word (.reg .ax) 0xFF80).wf = true ∧ (Instr.je 129).wf = true ∧
    (Instr.loop (-126)).wf = true := by decide

/-! ### Decoding: the words of 30_encoding.md, every kind (95_test_vectors.md section 3) -/

theorem test_decode_mov_reg_mem :
    decode [0x89, 0xD9] = .ok (.movRegMemToReg false .word .bx (.reg .cx)) [] ∧
    decode [0x88, 0xE0] = .ok (.movRegMemToReg false .byte .sp (.reg .ax)) [] ∧
    decode [0x8A, 0x00] = .ok (.movRegMemToReg true .byte .ax (.mem .bxSi .d0)) [] ∧
    decode [0x8B, 0x1E, 0xE8, 0x03] = .ok (.movRegMemToReg true .word .bx (.direct 1000)) [] ∧
    decode [0x8B, 0x82, 0x00, 0x80] = .ok (.movRegMemToReg true .word .ax (.mem .bpSi (.d16 0x8000))) [] := by decide

theorem test_decode_mov_imm_to_reg_mem :
    decode [0xC6, 0x07, 0x05] = .ok (.movImmToRegMem .byte (.mem .bx .d0) 5) [] ∧
    decode [0xC6, 0x3F, 0x05] = .ok (.movImmToRegMem .byte (.mem .bx .d0) 5) [] ∧
    decode [0xC7, 0x06, 0x10, 0x00, 0xFF, 0xFF] = .ok (.movImmToRegMem .word (.direct 16) 0xFFFF) [] ∧
    decode [0xC7, 0x86, 0x00, 0x01, 0x34, 0x12] = .ok (.movImmToRegMem .word (.mem .bp (.d16 0x0100)) 0x1234) [] := by decide

theorem test_decode_mov_imm_to_reg :
    decode [0xB0, 0xFF] = .ok (.movImmToReg .byte .ax 0xFF) [] ∧
    decode [0xB4, 0x12] = .ok (.movImmToReg .byte .sp 0x12) [] ∧
    decode [0xBF, 0x00, 0x80] = .ok (.movImmToReg .word .di 0x8000) [] := by decide

theorem test_decode_mov_acc_mem :
    decode [0xA0, 0x10, 0x00] = .ok (.movMemToAcc .byte 16) [] ∧
    decode [0xA1, 0xE8, 0x03] = .ok (.movMemToAcc .word 1000) [] ∧
    decode [0xA2, 0xFF, 0xFF] = .ok (.movAccToMem .byte 0xFFFF) [] ∧
    decode [0xA3, 0x0F, 0x00] = .ok (.movAccToMem .word 15) [] := by decide

theorem test_decode_add :
    decode [0x01, 0xD8] = .ok (.add false .word .bx (.reg .ax)) [] ∧
    decode [0x02, 0xC3] = .ok (.add true .byte .ax (.reg .bx)) [] ∧
    decode [0x03, 0x5E, 0x00] = .ok (.add true .word .bx (.mem .bp (.d8 0))) [] ∧
    decode [0x01, 0x87, 0x34, 0x12] = .ok (.add false .word .ax (.mem .bx (.d16 0x1234))) [] ∧
    decode [0x04, 0x09] = .ok (.addImmToAcc .byte 9) [] ∧
    decode [0x05, 0xFF, 0xFF] = .ok (.addImmToAcc .word 0xFFFF) [] := by decide

theorem test_decode_sub :
    decode [0x28, 0xE0] = .ok (.sub false .byte .sp (.reg .ax)) [] ∧
    decode [0x2A, 0x40, 0x80] = .ok (.sub true .byte .ax (.mem .bxSi (.d8 0x80))) [] ∧
    decode [0x2B, 0x0E, 0x10, 0x00] = .ok (.sub true .word .cx (.direct 16)) [] ∧
    decode [0x2C, 0x7F] = .ok (.subImmToAcc .byte 0x7F) [] ∧
    decode [0x2D, 0x00, 0x80] = .ok (.subImmToAcc .word 0x8000) [] := by decide

theorem test_decode_cmp :
    decode [0x38, 0xC1] = .ok (.cmp false .byte .ax (.reg .cx)) [] ∧
    decode [0x39, 0x18] = .ok (.cmp false .word .bx (.mem .bxSi .d0)) [] ∧
    decode [0x3A, 0x62, 0x01] = .ok (.cmp true .byte .sp (.mem .bpSi (.d8 1))) [] ∧
    decode [0x3C, 0x80] = .ok (.cmpImmToAcc .byte 0x80) [] ∧
    decode [0x3D, 0x00, 0x00] = .ok (.cmpImmToAcc .word 0) [] := by decide

theorem test_decode_group :
    decode [0x80, 0xC1, 0x05] = .ok (.addImmToRegMem false .byte (.reg .cx) 5) [] ∧
    decode [0x81, 0xC1, 0x34, 0x12] = .ok (.addImmToRegMem false .word (.reg .cx) 0x1234) [] ∧
    decode [0x82, 0xC1, 0xFB] = .ok (.addImmToRegMem true .byte (.reg .cx) 0xFB) [] ∧
    decode [0x83, 0xC1, 0xFB] = .ok (.addImmToRegMem true .word (.reg .cx) 0xFFFB) [] ∧
    decode [0x83, 0xE8, 0x08] = .ok (.subImmToRegMem true .word (.reg .ax) 8) [] ∧
    decode [0x83, 0x2E, 0x10, 0x00, 0x80] = .ok (.subImmToRegMem true .word (.direct 16) 0xFF80) [] ∧
    decode [0x80, 0x3F, 0x0C] = .ok (.cmpImmToRegMem false .byte (.mem .bx .d0) 12) [] ∧
    decode [0x81, 0x7E, 0x02, 0x00, 0x01] = .ok (.cmpImmToRegMem false .word (.mem .bp (.d8 2)) 0x0100) [] := by decide

theorem test_decode_jumps_low :
    decode [0x70, 0x03] = .ok (.jo 5) [] ∧
    decode [0x71, 0x03] = .ok (.jno 5) [] ∧
    decode [0x72, 0x03] = .ok (.jb 5) [] ∧
    decode [0x73, 0x03] = .ok (.jnb 5) [] ∧
    decode [0x74, 0x03] = .ok (.je 5) [] ∧
    decode [0x75, 0x03] = .ok (.jne 5) [] ∧
    decode [0x76, 0x03] = .ok (.jbe 5) [] ∧
    decode [0x77, 0x03] = .ok (.ja 5) [] := by decide

theorem test_decode_jumps_high :
    decode [0x78, 0xFB] = .ok (.js (-3)) [] ∧
    decode [0x79, 0xFB] = .ok (.jns (-3)) [] ∧
    decode [0x7A, 0xFB] = .ok (.jp (-3)) [] ∧
    decode [0x7B, 0xFB] = .ok (.jnp (-3)) [] ∧
    decode [0x7C, 0xFB] = .ok (.jl (-3)) [] ∧
    decode [0x7D, 0xFB] = .ok (.jnl (-3)) [] ∧
    decode [0x7E, 0xFB] = .ok (.jle (-3)) [] ∧
    decode [0x7F, 0xFB] = .ok (.jg (-3)) [] := by decide

theorem test_decode_loops :
    decode [0xE0, 0x7F] = .ok (.loopnz 129) [] ∧
    decode [0xE1, 0x80] = .ok (.loopz (-126)) [] ∧
    decode [0xE2, 0xFE] = .ok (.loop 0) [] ∧
    decode [0xE3, 0x04] = .ok (.jcxz 6) [] := by decide

/-- The rest of the buffer is left (30_encoding.md R121). -/
theorem test_decode_leaves_rest : decode [0xB8, 0x05, 0x00, 0x75, 0xFE] = .ok (.movImmToReg .word .ax 5) [0x75, 0xFE] := by
  decide

/-- 95_test_vectors.md E1 to E17. -/
theorem test_decode_errors :
    decode [0x89] = .truncated ∧ decode [0x0F] = .malformed 1 ∧ decode [0x80, 0x08] = .malformed 2 ∧
    decode [0x80] = .truncated ∧ decode [0x83, 0xC0] = .truncated ∧ decode [0x81, 0xC0, 0x01] = .truncated ∧
    decode [0x8B, 0x46] = .truncated ∧ decode [0x8B, 0x86, 0x00] = .truncated ∧ decode [0xA1, 0x00] = .truncated ∧
    decode [0x75] = .truncated ∧ decode [0xF0, 0x01, 0xD8] = .malformed 1 ∧ decode [0x26, 0x8B, 0x07] = .malformed 1 ∧
    decode [0xC7, 0x06, 0x10, 0x00, 0x01] = .truncated ∧ decode [0x80, 0x48, 0x01, 0x02] = .malformed 2 ∧
    decode [0x83, 0x18] = .malformed 2 ∧ decode [0xFF, 0x00] = .malformed 1 ∧ decode [0xE4, 0x00] = .malformed 1 := by
  decide

/-- The opcode-table words of `add` and `jo`, and a malformed one. -/
theorem test_table_words :
    decodeTableWord 16 0xD801 = some (.add false .word .bx (.reg .ax)) ∧ decodeTableWord 8 0x70 = some (.jo 2) ∧
    decodeTableWord 8 0x0F = none := by decide

/-- A placed word is the next instruction that runs. -/
theorem test_placed_word_runs :
    see (State.reset.withFetchWord 24 0x0005B8) =
      some ⟨regsAx 5, Flags.clear, 3, .decoding, some "mov ax, 5 ; ax:0x0->0x5".toList⟩ := by decide

/-! ### One step (95_test_vectors.md sections 1, 2, 5 to 8) -/

/-- M5. -/
theorem test_mov_same_register_reported :
    see (start [0x89, 0xC0]) =
      some ⟨Regs.zero, Flags.clear, 2, .halted, some "mov ax, ax ; ax:0x0->0x0".toList⟩ := by decide

/-- M7. -/
theorem test_mov_imm_to_reg_mem_register :
    see (start [0xC6, 0xC0, 0x07]) =
      some ⟨regsAx 7, Flags.clear, 3, .halted, some "mov al, 7 ; ax:0x0->0x7".toList⟩ := by decide

/-- M1, second step. -/
theorem test_mov_ah_keeps_al :
    see (withRegs (start [0xB4, 0x56]) (regsAx 0x1234)) =
      some ⟨regsAx 0x5634, Flags.clear, 2, .halted, some "mov ah, 86 ; ax:0x1234->0x5634".toList⟩ := by decide

/-- M3, second step. -/
theorem test_mov_al_legacy_clears_ah :
    see (withRegs (startLegacy8 [0xB0, 0x56]) (regsAx 0x1234)) =
      some ⟨regsAx 0x0056, Flags.clear, 2, .halted, some "mov al, 86 ; ax:0x1234->0x56".toList⟩ := by decide

/-- 60_exceptions.md R338: AH is refused under `legacy`, and nothing is written. -/
theorem test_sub_ah_legacy_refused :
    see (withRegs (startLegacy8 [0x28, 0xE0]) (regsAx 0x1234)) =
      some ⟨regsAx 0x1234, Flags.clear, 0, .failed ⟨.unmodelledReg8High, 0⟩, none⟩ := by decide

/-- M8's access under `array64k`: low byte at the address, high byte at the next. -/
theorem test_mov_mem_to_acc :
    see (startArray [0xA1, 0xE8, 0x03] [(1000, 0x34), (1001, 0x12)]) =
      some ⟨regsAx 0x1234, Flags.clear, 3, .halted, some "mov ax, [1000] ; ax:0x0->0x1234".toList⟩ := by decide

/-- M10, second step: the word at 65535 wraps. -/
theorem test_mov_acc_to_mem_wraps :
    seeMem (withRegs (startArray [0xA3, 0xFF, 0xFF] []) (regsAx 0x1234)) =
      some ([(0, 0x12), (65535, 0x34)], [.write 0 0xFFFF .word 0x1234]) := by decide

/-- M9, second step: under `oracle` the write is recorded only. -/
theorem test_mov_acc_to_mem_oracle :
    seeMem (withRegs (start [0xA3, 0x0F, 0x00]) (regsAx 0x1234)) = some ([], [.write 0 15 .word 0x1234]) := by decide

/-- M11: the effective address of `[bp + si + 4]`. -/
theorem test_mov_imm_to_mem :
    seeMem (start [0xC7, 0x42, 0x04, 0x0C, 0x00]) = some ([], [.write 0 4 .word 0x000C]) := by decide

/-- 10_state.md R33, 20_memory.md R75: a negative displacement from `[bx]`, in a byte move from memory. -/
theorem test_mov_reg_mem_from_memory :
    seeMem (withRegs (startArray [0x8A, 0x47, 0xFF] [(15, 0x77)]) { Regs.zero with bx := 0x0010 }) =
      some ([(15, 0x77)], [.read 0 15 .byte 0x77]) := by decide

/-- X6, second step. -/
theorem test_add_ah_al :
    see (withRegs (start [0x00, 0xC4]) (regsAx 0x0201)) =
      some ⟨regsAx 0x0301, Flags.clear, 2, .halted, some "add ah, al ; ax:0x201->0x301".toList⟩ := by decide

/-- X8. -/
theorem test_add_imm_to_reg_mem_sign_extends :
    see (start [0x83, 0xC0, 0xFF]) =
      some ⟨regsAx 0xFFFF, fl false false false false true false, 3, .halted, some "add ax, -1 ; ax:0x0->0xffff flags:->S".toList⟩ := by decide

/-- X9. -/
theorem test_add_imm_to_reg_mem_ah :
    see (start [0x80, 0xC4, 0x01]) =
      some ⟨regsAx 0x0100, Flags.clear, 3, .halted, some "add ah, 1 ; ax:0x0->0x100".toList⟩ := by decide

/-- A5, legacy. -/
theorem test_add_imm_to_acc_legacy :
    see (withRegs (start [0x05, 0x01, 0x00]) (regsAx 0xFFFF)) =
      some ⟨Regs.zero, fl false true true true false false, 3, .halted, some "add ax, 1 ; ax:0xffff->0x0 flags:->PAZ".toList⟩ := by decide

/-- A27, second step. -/
theorem test_add_leaves_legacy_carry :
    see (withFlags (withRegs (start [0x05, 0x02, 0x00]) (regsAx 0xFFFF)) (fl true false true false true false)) =
      some ⟨regsAx 1, fl true false true false false false, 3, .halted, some "add ax, 2 ; ax:0xffff->0x1 flags:CAS->CA".toList⟩ := by decide

/-- X5, second step. -/
theorem test_sub_self :
    see (withRegs (start [0x29, 0xC9]) (regsCx 5)) =
      some ⟨Regs.zero, flagsPZ, 2, .halted, some "sub cx, cx ; cx:0x5->0x0 flags:->PZ".toList⟩ := by decide

/-- P1, fourth step. -/
theorem test_sub_imm_to_reg_mem :
    see (withRegs (start [0x83, 0xE8, 0x08]) (regsAx 8)) =
      some ⟨Regs.zero, flagsPZ, 3, .halted, some "sub ax, 8 ; ax:0x8->0x0 flags:->PZ".toList⟩ := by decide

/-- X3, second step. -/
theorem test_sub_imm_to_acc_legacy :
    see (withRegs (start [0x2D, 0x01, 0x00]) (regsAx 0x8000)) =
      some ⟨regsAx 0x7FFF, fl true false true false false false, 3, .halted, some "sub ax, 1 ; ax:0x8000->0x7fff flags:->CA".toList⟩ := by decide

/-- X4, second step. -/
theorem test_sub_imm_to_acc_i8086 :
    see (withRegs (start8086 [0x2D, 0x01, 0x00]) (regsAx 0x8000)) =
      some ⟨regsAx 0x7FFF, fl false true true false false true, 3, .halted, some "sub ax, 1 ; ax:0x8000->0x7fff flags:->PAO".toList⟩ := by decide

/-- X10's pattern under `array64k`: one read, then one write, at the same address. -/
theorem test_add_to_memory :
    seeMem (withRegs (startArray [0x01, 0x07] [(0, 0x10)]) (regsAx 0x0001)) =
      some ([(0, 0x11)], [.read 0 0 .word 0x0010, .write 0 0 .word 0x0011]) := by decide

/-- X11's pattern under `array64k`: `cmp` reads its destination and writes nothing. -/
theorem test_cmp_memory :
    seeMem (startArray [0x39, 0x07] [(0, 0x01)]) = some ([(0, 0x01)], [.read 0 0 .word 0x0001]) := by decide

/-- X12's pattern under `array64k`. -/
theorem test_cmp_imm_to_memory :
    see (startArray [0x80, 0x3F, 0x0C] [(0, 0x0C)]) =
      some ⟨Regs.zero, flagsPZ, 3, .halted, some "cmp [bx], byte 12 ; flags:->PZ".toList⟩ := by decide

/-- S4, AX = 7. -/
theorem test_cmp_imm_to_acc :
    see (withRegs (start [0x3D, 0x00, 0x00]) (regsAx 7)) =
      some ⟨regsAx 7, Flags.clear, 3, .halted, some "cmp ax, 0 ;".toList⟩ := by decide

/-- A26, i8086. -/
theorem test_cmp_i8086 :
    see (withRegs (start8086 [0x39, 0xD8]) { Regs.zero with ax := 0x8000, bx := 0x7FFF }) =
      some ⟨{ Regs.zero with ax := 0x8000, bx := 0x7FFF }, fl false false true false false true, 2, .halted, some "cmp ax, bx ; flags:->AO".toList⟩ := by decide

/-- J1. -/
theorem test_jne_linear :
    see (start [0x75, 0xFE]) =
      some ⟨Regs.zero, Flags.clear, 2, .halted, some "jne $+0 ;".toList⟩ := by decide

/-- J3. -/
theorem test_jl_linear_no_fault :
    see (start [0x7C, 0x80]) =
      some ⟨Regs.zero, Flags.clear, 2, .halted, some "jl $-126 ;".toList⟩ := by decide

/-- J4. -/
theorem test_je_to_end :
    see (withFlags (startTaken [0x74, 0x00]) flagsPZ) =
      some ⟨Regs.zero, flagsPZ, 2, .halted, some "je $+2 ;".toList⟩ := by decide

/-- J5. -/
theorem test_je_out_of_buffer :
    see (withFlags (startTaken [0x74, 0x10]) flagsPZ) =
      some ⟨Regs.zero, flagsPZ, 0, .failed ⟨.branchOutOfBuffer, 0⟩, none⟩ := by decide

/-- J6. -/
theorem test_jne_not_taken :
    see (withFlags (startTaken [0x75, 0x10]) flagsPZ) =
      some ⟨Regs.zero, flagsPZ, 2, .halted, some "jne $+18 ;".toList⟩ := by decide

/-- J7, second step. -/
theorem test_loop_fault_keeps_cx :
    see (withRegs (startTaken [0xE2, 0x80]) (regsCx 3)) =
      some ⟨regsCx 3, Flags.clear, 0, .failed ⟨.branchOutOfBuffer, 0⟩, none⟩ := by decide

/-- J8. -/
theorem test_loop_wraps_cx :
    see (startTaken [0xE2, 0x00]) =
      some ⟨regsCx 0xFFFF, Flags.clear, 2, .halted, some "loop $+2 ; cx:0x0->0xffff".toList⟩ := by decide

/-- J9. -/
theorem test_jcxz_taken :
    see (startTaken [0xE3, 0x03, 0xB8, 0x01, 0x00]) =
      some ⟨Regs.zero, Flags.clear, 5, .halted, some "jcxz $+5 ;".toList⟩ := by decide

/-- J10, first step. -/
theorem test_jcxz_not_taken :
    see (withRegs (startTaken [0xE3, 0x03, 0xB8, 0x01, 0x00]) (regsCx 1)) =
      some ⟨regsCx 1, Flags.clear, 2, .decoding, some "jcxz $+5 ;".toList⟩ := by decide

/-- J12, second step. -/
theorem test_loopz_not_taken :
    see (withRegs (startTaken [0xE1, 0xFB]) (regsCx 2)) =
      some ⟨regsCx 1, Flags.clear, 2, .halted, some "loopz $-3 ; cx:0x2->0x1".toList⟩ := by decide

/-- J13, last step. -/
theorem test_loopnz_last :
    see (withRegs (startTaken [0xE0, 0xFB]) (regsCx 1)) =
      some ⟨Regs.zero, Flags.clear, 2, .halted, some "loopnz $-3 ; cx:0x1->0x0".toList⟩ := by decide

/-- Every condition of 43_jumps.md R293 to R308, with each flag it names set and all others clear: which jumps go to the
byte after the next one. -/
def takenWith (f : Flags) : List Bool :=
  [0x70, 0x71, 0x72, 0x73, 0x74, 0x75, 0x76, 0x77, 0x78, 0x79, 0x7A, 0x7B, 0x7C, 0x7D, 0x7E, 0x7F].map fun b =>
    match step (withFlags (startTaken [b, 0x01, 0x00, 0x00]) f) with
    | .next t => t.pc = 3
    | .fault _ => false
    | .refused _ => false

theorem test_conditions_none :
    takenWith (fl false false false false false false) =
      [false, true, false, true, false, true, false, true, false, true, false, true, false, true, false, true] := by
  decide

theorem test_conditions_carry :
    takenWith (fl true false false false false false) =
      [false, true, true, false, false, true, true, false, false, true, false, true, false, true, false, true] := by
  decide

theorem test_conditions_parity :
    takenWith (fl false true false false false false) =
      [false, true, false, true, false, true, false, true, false, true, true, false, false, true, false, true] := by
  decide

theorem test_conditions_zero :
    takenWith (fl false false false true false false) =
      [false, true, false, true, true, false, true, false, false, true, false, true, false, true, true, false] := by
  decide

theorem test_conditions_sign :
    takenWith (fl false false false false true false) =
      [false, true, false, true, false, true, false, true, true, false, false, true, true, false, true, false] := by
  decide

theorem test_conditions_overflow :
    takenWith (fl false false false false false true) =
      [true, false, false, true, false, true, false, true, false, true, false, true, true, false, true, false] := by
  decide

theorem test_conditions_sign_overflow :
    takenWith (fl false false false false true true) =
      [true, false, false, true, false, true, false, true, true, false, false, true, false, true, false, true] := by
  decide

/-- O1, first step. -/
theorem test_listing_only :
    see (startListing [0xB8, 0x05, 0x00]) =
      some ⟨Regs.zero, Flags.clear, 3, .halted, some "mov ax, 5".toList⟩ := by decide

/-- O2, second step: the `ip` field. -/
theorem test_trace_ip :
    see { start [0xB8, 0x05, 0x00, 0x3D, 0x05, 0x00] with
        params := { Params.default with traceIp := true }, regs := regsAx 5, pc := 3, cur := 3 } =
      some ⟨regsAx 5, flagsPZ, 6, .halted, some "cmp ax, 5 ; ip:0x3->0x6 flags:->PZ".toList⟩ := by decide

/-- The final dump of O2. -/
theorem test_final_dump :
    finalDump { State.reset with params := { Params.default with traceIp := true }, regs := regsAx 5, flags := flagsPZ, pc := 6 } =
      some ["Final registers:".toList, "      ax: 0x0005 (5)".toList, "      ip: 0x0006 (6)".toList,
        "   flags: PZ".toList] := by decide

/-- S5: a single 0x89 fails with an empty prefix. -/
theorem test_truncated_outcome :
    see (start [0x89]) = some ⟨Regs.zero, Flags.clear, 0, .failed ⟨.truncatedStream, 0⟩, none⟩ := by decide

/-- E11: a prefix byte is malformed. -/
theorem test_malformed_outcome :
    see (start [0xF0, 0x01, 0xD8]) = some ⟨Regs.zero, Flags.clear, 0, .failed ⟨.malformedOpcode, 0⟩, none⟩ := by decide

/-! ### Witnesses: states and operands that meet the hypotheses of each obligation, every clause -/

theorem witness_EncodeDecodeRoundTrip :
    (Instr.addImmToRegMem true .word (.mem .bp (.d8 0xFF)) 0xFF80).wf = true ∧
    decode [0xC7, 0xFF, 0x01, 0x02, 0x90] = .ok (.movImmToRegMem .word (.reg .di) 0x0201) [0x90] := by decide

theorem witness_MalformedOpcodeCauses :
    (malformedFirst 0x06 = true ∧ malformedFirst 0x27 = true ∧ malformedFirst 0x28 = false ∧ malformedFirst 0xE4 = true ∧
      malformedFirst 0xFF = true ∧ malformedFirst 0xE3 = false ∧ malformedFirst 0x83 = false ∧ malformedFirst 0x84 = true) ∧
    malformedGroupReg (regOf 0xF0) = true ∧ malformedGroupReg (regOf 0xE8) = false := by decide

theorem witness_CutInstructionIsTruncated :
    (Instr.movImmToRegMem .word (.direct 16) 1).wf = true ∧
    [0xC7, 0x06, 0x10, 0x00, 0x01] <+: encode (.movImmToRegMem .word (.direct 16) 1) ∧
    [0xC7, 0x06, 0x10, 0x00, 0x01] ≠ encode (.movImmToRegMem .word (.direct 16) 1) := by decide

theorem witness_DecodeReadsOnlyItsBytes :
    decode [0x01, 0x87, 0x34, 0x12, 0x55] = .ok (.add false .word .ax (.mem .bx (.d16 0x1234))) [0x55] := by decide

theorem witness_DecodedLengthTwoToSix :
    decode [0x70, 0x00] = .ok (.jo 2) [] ∧
    decode [0xC7, 0x86, 0x00, 0x01, 0x34, 0x12] = .ok (.movImmToRegMem .word (.mem .bp (.d16 0x0100)) 0x1234) [] := by
  decide

theorem witness_MovImmIgnoresRegField :
    modOf 0x07 = modOf 0x3F ∧ rmOf 0x07 = rmOf 0x3F ∧ regOf 0x07 ≠ regOf 0x3F ∧
    decode [0xC6, 0x3F, 0x05] = .ok (.movImmToRegMem .byte (.mem .bx .d0) 5) [] := by decide

/-- One state whose instruction completes, one whose instruction fails. -/
theorem witness_StepRunsDecodedInstruction :
    ((start [0xB0, 0x01]).run = .decoding ∧ (start [0xB0, 0x01]).params.execute = true ∧
      decode ((start [0xB0, 0x01]).buf.drop (start [0xB0, 0x01]).fetchPos) = .ok (.movImmToReg .byte .ax 1) []) ∧
    (startLegacy8 [0xB4, 0x01]).run = .decoding ∧ (startLegacy8 [0xB4, 0x01]).params.execute = true ∧
      decode ((startLegacy8 [0xB4, 0x01]).buf.drop 0) = .ok (.movImmToReg .byte .sp 1) [] ∧
      refusedIn (.movImmToReg .byte .sp 1) (startLegacy8 [0xB4, 0x01]) = true := by decide

theorem witness_DecodeOnlyStepChangesNothing :
    (startListing [0x75, 0xFE]).run = .decoding ∧ (startListing [0x75, 0xFE]).params.execute = false ∧
    decode ((startListing [0x75, 0xFE]).buf.drop (startListing [0x75, 0xFE]).cur) = .ok (.jne 0) [] := by decide

/-- One step of each of the four failures. -/
theorem witness_FailureWritesNothing :
    (∃ t, step (start [0x0F]) = .next t ∧ t.run = .failed ⟨.malformedOpcode, 0⟩) ∧
    (∃ t, step (start [0x89]) = .next t ∧ t.run = .failed ⟨.truncatedStream, 0⟩) ∧
    (∃ t, step (startLegacy8 [0xB4, 0x01]) = .next t ∧ t.run = .failed ⟨.unmodelledReg8High, 0⟩) ∧
    ∃ t, step (startTaken [0xE2, 0x80]) = .next t ∧ t.run = .failed ⟨.branchOutOfBuffer, 0⟩ :=
  ⟨⟨_, rfl, by decide⟩, ⟨_, rfl, by decide⟩, ⟨_, rfl, by decide⟩, ⟨_, rfl, by decide⟩⟩

/-- Legal states to step from: one that completes, one that fails, one in each mode. -/
theorem legal_start {p : Params} {bs : List Byte} (h : 0 < bs.length) (hl : bs.length ≤ 65535) :
    State.Inv { start bs with params := p } := by
  constructor <;> simp [start, State.reset, State.fetchPos, Config.maxBuffer, Memory.wf] <;> omega

/-- The same with any registers. -/
theorem legal_regs {p : Params} {bs : List Byte} {g : Regs} (h : 0 < bs.length) (hl : bs.length ≤ 65535) :
    State.Inv { start bs with params := p, regs := g } := by
  constructor <;> simp [start, State.reset, State.fetchPos, Config.maxBuffer, Memory.wf] <;> omega

/-- Both causes of `MalformedOpcode`, a truncation, and a legal state for each of the four kinds. -/
theorem witness_FailureOffsetIsStart :
    (decode [0x0F] = .malformed 1 ∧ decode [0x80, 0x08] = .malformed 2 ∧ decode [0x80] = .truncated ∧
      (start [0x80]).run = .decoding) ∧
    (State.Inv (start [0x0F]) ∧ ∃ t, step (start [0x0F]) = .next t ∧ t.run = .failed ⟨.malformedOpcode, 0⟩) ∧
    (State.Inv (start [0x89]) ∧ ∃ t, step (start [0x89]) = .next t ∧ t.run = .failed ⟨.truncatedStream, 0⟩) ∧
    (State.Inv (startLegacy8 [0xB4, 0x01]) ∧
      ∃ t, step (startLegacy8 [0xB4, 0x01]) = .next t ∧ t.run = .failed ⟨.unmodelledReg8High, 0⟩) ∧
    State.Inv (startTaken [0xE2, 0x80]) ∧
      ∃ t, step (startTaken [0xE2, 0x80]) = .next t ∧ t.run = .failed ⟨.branchOutOfBuffer, 0⟩ :=
  ⟨by decide,
    ⟨legal_start (p := Params.default) (by decide) (by decide), _, rfl, by decide⟩,
    ⟨legal_start (p := Params.default) (by decide) (by decide), _, rfl, by decide⟩,
    ⟨legal_start (p := { Params.default with reg8 := .legacy }) (by decide) (by decide), _, rfl, by decide⟩,
    legal_start (p := { Params.default with branch := .taken }) (by decide) (by decide), _, rfl, by decide⟩

theorem witness_EndedRunTakesNoStep :
    State.reset.run = .halted ∧ (∃ t, step (startLegacy8 [0xB4, 0x01]) = .next t ∧ t.run = .failed ⟨.unmodelledReg8High, 0⟩) ∧
    ∃ t e, step (start [0x0F]) = .next t ∧ t.run = .failed e ∧ e.kind ≠ .unmodelledReg8High :=
  ⟨rfl, ⟨_, rfl, by decide⟩, _, ⟨.malformedOpcode, 0⟩, rfl, by decide, by decide⟩

theorem witness_StepKeepsLegalState :
    (State.Inv (start [0xB0, 0x01]) ∧ ∃ t, step (start [0xB0, 0x01]) = .next t ∧ t.run = .halted) ∧
    (State.Inv (startTaken [0xE3, 0x02, 0xB8, 0x01, 0x00]) ∧
      ∃ t, step (startTaken [0xE3, 0x02, 0xB8, 0x01, 0x00]) = .next t ∧ t.pc ≠ BitVec.ofNat 16 t.cur) ∧
    State.Inv (start [0x80]) ∧ ∃ t, step (start [0x80]) = .next t ∧ t.run ≠ .halted :=
  ⟨⟨legal_start (p := Params.default) (by decide) (by decide), _, rfl, by decide⟩,
    ⟨legal_start (p := { Params.default with branch := .taken }) (by decide) (by decide), _, rfl, by decide⟩,
    legal_start (p := Params.default) (by decide) (by decide), _, rfl, by decide⟩

/-- Launch inputs around the longest buffer. -/
def launchOf (n : Nat) (r : ResetModel) (m : MemModel) : Launch :=
  { params := { Params.default with resetState := r, memModel := m }, buf := List.replicate n 0, regs := regsAx 7,
    flags := flagsPZ, cells := [(65536, 5), (3, 9)] }

theorem launchOf_length (n : Nat) (r : ResetModel) (m : MemModel) : (launchOf n r m).buf.length = n :=
  List.length_replicate

theorem create_next {l : Launch} (h : l.buf.length ≤ Config.maxBuffer) : create l = .next (launched l) := if_pos h

theorem witness_CreatedStateIsLegal :
    ∃ l t, l.buf.length = 65535 ∧ create l = .next t ∧ t.mem = [(0, 5), (3, 9)] :=
  ⟨launchOf 65535 .free .array64k, _, launchOf_length .., create_next (Nat.le_of_eq (launchOf_length ..)), rfl⟩

/-- Buffers at the bound and past it, and launch memory with a byte given twice, one at each end and one not given. -/
theorem witness_CreatedState :
    (∃ l : Launch, l.buf.length = 65535 ∧ l.params.resetState = .zero ∧ l.params.memModel = .oracle) ∧
    (∃ l : Launch, l.buf = [] ∧ l.params.resetState = .free ∧ l.params.memModel = .array64k ∧
      (l.cells.reverse.find? fun c => c.1 % 65536 == 0) = some (65536, 5) ∧
      (∀ c ∈ l.cells, c.1 % 65536 ≠ 65535)) ∧
    (∃ l : Launch, l.buf.length ≤ 65535 ∧ l.params.memModel = .array64k ∧
      (l.cells.reverse.find? fun c => c.1 % 65536 == 65535) = some (65535, 2) ∧
      (l.cells.reverse.find? fun c => c.1 % 65536 == 3) = some (65539, 8)) ∧
    ∃ l : Launch, l.buf.length = 65536 :=
  ⟨⟨launchOf 65535 .zero .oracle, launchOf_length .., rfl, rfl⟩,
    ⟨launchOf 0 .free .array64k, rfl, rfl, rfl, by decide, by decide⟩,
    ⟨{ launchOf 3 .zero .array64k with cells := [(3, 9), (65539, 8), (65535, 2)] }, by decide, rfl, by decide, by decide⟩,
    launchOf 65536 .zero .oracle, launchOf_length ..⟩

/-- The later pair wins, at an address given modulo 65536. -/
theorem test_launch_memory_later_pair_wins :
    Memory.ofCells [(3, 9), (65539, 8), (65535, 2)] = [(3, 8), (65535, 2)] := by decide

/-- A step that adds a record to one already handed over. -/
theorem witness_StepKeepsRecordsDecode :
    ∃ s t, RecordsDecode s ∧ step s = .next t ∧ s.records ≠ [] ∧ t.records.length = 2 := by
  refine ⟨{ start [0xB0, 0x01, 0x75, 0xFE] with cur := 2, pc := 2, records := [⟨0, 2, .movImmToReg .byte .ax 1⟩] },
    _, ?_, rfl, by decide, by decide⟩
  intro r hr
  simp only [List.mem_singleton] at hr
  subst hr
  decide

theorem witness_BufferIsNeverWritten :
    (∃ t, create (launchOf 3 .free .oracle) = .next t) ∧ ∃ t, step (startArray [0xA2, 0x00, 0x00] [(0, 7)]) = .next t :=
  ⟨⟨_, rfl⟩, _, rfl⟩

theorem witness_ParamsAreFixed : ∃ t, step (startTaken [0xB0, 0x01]) = .next t := ⟨_, rfl⟩

/-- Both ways a step moves the cursor, and a decode-only step under `taken`. -/
theorem witness_LinearStepMovesCursor :
    ((start [0x0F]).branching = false ∧ ∃ t, step (start [0x0F]) = .next t ∧ t.run = .failed ⟨.malformedOpcode, 0⟩) ∧
    ((start [0x75, 0xFE]).branching = false ∧ ∃ t, step (start [0x75, 0xFE]) = .next t ∧ t.cur = 2) ∧
    State.branching { startTaken [0x75, 0xFE] with params := { (startTaken []).params with execute := false } } = false :=
  ⟨⟨by decide, _, rfl, by decide⟩, ⟨by decide, _, rfl, by decide⟩, by decide⟩

/-- One byte, whose only step fails past the half; two bytes, whose only step is the half and halts; a longer buffer. -/
theorem witness_LinearRunEnds :
    (State.Inv (start [0x89]) ∧ (start [0x89]).run = .decoding ∧ (start [0x89]).branching = false ∧
      ∃ t, core.run 1 (start [0x89]) = .next t ∧ t.run = .failed ⟨.truncatedStream, 0⟩) ∧
    (State.Inv (start [0x75, 0xFE]) ∧ ∃ t, core.run 1 (start [0x75, 0xFE]) = .next t ∧ t.run = .halted) ∧
    State.Inv (start [0x75, 0xFE, 0x75, 0xFE]) ∧ (start [0x75, 0xFE, 0x75, 0xFE]).branching = false :=
  ⟨⟨legal_start (p := Params.default) (by decide) (by decide), by decide, by decide, _, rfl, by decide⟩,
    ⟨legal_start (p := Params.default) (by decide) (by decide), _, rfl, by decide⟩,
    legal_start (p := Params.default) (by decide) (by decide), by decide⟩

theorem witness_TraceIpChangesOnlyText :
    (∃ t, create (launchOf 3 .free .oracle) = .next t) ∧
    ∃ t, step (start [0xB0, 0x01]) = .next t ∧ (start [0xB0, 0x01]).params.traceIp = false :=
  ⟨⟨_, rfl⟩, _, rfl, by decide⟩

/-- A second decode-only step. -/
theorem witness_ListingIsTextOfRecords :
    let s := { startListing [0xB8, 0x05, 0x00, 0x75, 0xFE] with
      cur := 3, pc := 3, records := [⟨0, 3, .movImmToReg .word .ax 5⟩], lines := ["mov ax, 5".toList] }
    s.params.execute = false ∧ s.lines = s.records.map (fun r => instrText r.instr) ∧
    ∃ t, step s = .next t ∧ t.lines = ["mov ax, 5".toList, "jne $+0".toList] :=
  ⟨by decide, by decide, _, rfl, by decide⟩

/-- Two runs over one buffer with different registers and flags; the same under `legacy`, where both refuse. -/
theorem witness_ListingIgnoresData :
    (let s1 := start [0x05, 0x01, 0x00]
     let s2 := withFlags (withRegs (start [0x05, 0x01, 0x00]) (regsAx 9)) flagsPZ
     s1.run = .decoding ∧ s2.run = .decoding ∧ s1.buf = s2.buf ∧ s1.cur = s2.cur ∧ s1.branching = false ∧
     s2.branching = false ∧ s1.params.reg8 = s2.params.reg8 ∧ s1.params.reg8 ≠ .legacy ∧ s1.regs ≠ s2.regs ∧
     (∃ t, step s1 = .next t) ∧ ∃ t, step s2 = .next t) ∧
    (let s1 := startLegacy8 [0xB4, 0x01]
     let s2 := withRegs s1 (regsAx 9)
     s2.run = .decoding ∧ s2.branching = false ∧ s1.params.reg8 = .legacy ∧ s1.params = s2.params ∧ s1.Inv ∧ s2.Inv ∧
     s1.regs ≠ s2.regs ∧ (∃ t, step s1 = .next t ∧ t.run = .failed ⟨.unmodelledReg8High, 0⟩) ∧
     ∃ t, step s2 = .next t) :=
  ⟨⟨by decide, by decide, by decide, by decide, by decide, by decide, by decide, by decide, by decide, ⟨_, rfl⟩, _, rfl⟩,
    by decide, by decide, by decide, by decide,
    legal_start (p := { Params.default with reg8 := .legacy }) (by decide) (by decide), legal_regs (by decide) (by decide),
    by decide, ⟨_, rfl, by decide⟩, _, rfl⟩

theorem witness_HighByteRefused :
    refusedIn (.cmp true .byte .sp (.mem .bx .d0)) (startLegacy8 []) = true ∧
    refusedIn (.cmp true .byte .bx (.mem .bx .d0)) (startLegacy8 []) = false ∧
    refusedIn (.cmp true .byte .sp (.mem .bx .d0)) (start []) = false ∧
    (startLegacy8 []).run = .decoding ∧ ∃ t, exec (.movImmToReg .byte .bx 1) (startLegacy8 []) = .next t :=
  ⟨by decide, by decide, by decide, by decide, _, rfl⟩

theorem witness_LinearJumpWritesNothing : (start []).params.branch = .linear := by decide

/-- The two ends of the buffer as targets, a loop among them. -/
theorem witness_TakenJumpReachesTarget :
    let s := startTaken [0xE2, 0x00]
    s.params.branch = .taken ∧ s.buf.length ≤ 65535 ∧ jumpCond .loop s = true ∧ jumpCond .jne s = true ∧
    jumpCond .jcxz s = true ∧
    0 ≤ (s.pc.toNat : Int) + 0 ∧ (s.pc.toNat : Int) + 0 ≤ s.buf.length ∧
    0 ≤ (s.pc.toNat : Int) + 2 ∧ (s.pc.toNat : Int) + 2 ≤ s.buf.length := by decide

theorem witness_UntakenJumpFallsThrough :
    let s := withRegs (startTaken [0xE2, 0x00]) (regsCx 1)
    s.params.branch = .taken ∧ jumpCond .loop s = false ∧ jumpCond .je s = false := by decide

/-- A target of -1 and a target of L + 1. -/
theorem witness_BranchOutOfBufferExactly :
    let s := startTaken [0x75, 0x00]
    s.params.branch = .taken ∧ jumpCond .jne s = true ∧ (s.pc.toNat : Int) + (-1) < 0 ∧
    (s.buf.length : Int) < s.pc.toNat + 3 ∧ s.run = .decoding ∧
    ∃ t, exec (JumpOp.jne.instr 3) s = .next t ∧ t.run = .failed ⟨.branchOutOfBuffer, 0⟩ :=
  ⟨by decide, by decide, by decide, by decide, by decide, _, rfl, by decide⟩

theorem witness_BranchToEndHalts :
    let s := startTaken [0x75, 0x01, 0x00]
    State.Inv s ∧ s.run = .decoding ∧ s.branching = true ∧ decode (s.buf.drop s.pc.toNat) = .ok (JumpOp.jne.instr 3) [0x00] ∧
    jumpCond .jne s = true ∧ (s.pc.toNat : Int) + 3 = s.buf.length :=
  ⟨legal_start (p := { Params.default with branch := .taken }) (by decide) (by decide), by decide, by decide, by decide,
    by decide, by decide⟩

/-- A memory form, a byte form on AH, and a byte form that `legacy` admits. -/
theorem witness_MovRegMemToRegCopies :
    (startArray [] [(0, 1), (65535, 2)]).mem.wf ∧
    refusedIn (.movRegMemToReg false .word .ax (.mem .bx (.d16 0xFFFF))) (startArray [] [(0, 1)]) = false ∧
    refusedIn (.movRegMemToReg true .byte .sp (.reg .di)) (start []) = false ∧
    refusedIn (.movRegMemToReg true .byte .ax (.reg .bx)) (startLegacy8 []) = false := by decide

theorem witness_MovImmediateLoads :
    (startLegacy8 []).mem.wf ∧ refusedIn (.movImmToRegMem .byte (.direct 0) 0xFF) (startLegacy8 []) = false ∧
    refusedIn (.movImmToReg .word .sp 1) (startLegacy8 []) = false := by decide

theorem witness_MovAccumulatorMemory :
    (startArray [] [(65535, 2)]).mem.wf ∧ (startArray [] []).params.memModel = .array64k := by decide

theorem witness_AluRegMemResult :
    (startArray [] [(3, 7)]).mem.wf ∧ refusedIn (.add false .word .ax (.mem .bx (.d8 3))) (startArray [] [(3, 7)]) = false ∧
    refusedIn (.sub true .byte .sp (.reg .di)) (start []) = false ∧
    refusedIn (.cmp true .byte .ax (.mem .bx .d0)) (startLegacy8 []) = false := by decide

theorem witness_AluImmToRegMemResult :
    (startArray [] [(3, 7)]).mem.wf ∧ refusedIn (.addImmToRegMem true .word (.direct 3) 0xFF80) (startArray [] []) = false ∧
    refusedIn (.subImmToRegMem false .byte (.reg .sp) 1) (start []) = false ∧
    refusedIn (.cmpImmToRegMem false .byte (.mem .bx .d0) 1) (startLegacy8 []) = false := by decide

theorem witness_CompareThenCondition :
    (start8086 []).params.flagModel = .i8086 ∧ refusedIn (.cmp false .byte .sp (.mem .bx .d0)) (start8086 []) = false := by
  decide

theorem witness_ArithmeticLaws :
    (isAlu (.cmpImmToAcc .word 1) = true ∧ destination (.cmpImmToAcc .word 1) = none ∧
      ∃ t, exec (.cmpImmToAcc .word 1) (start []) = .next t) ∧
    (start [0x05, 0xFF, 0x7F, 0x05, 0x01, 0x00]).params.flagModel = .legacy ∧
    ∃ t, core.run 2 (start [0x05, 0xFF, 0x7F, 0x05, 0x01, 0x00]) = .next t :=
  ⟨⟨by decide, by decide, _, rfl⟩, by decide, _, rfl⟩

theorem witness_ByteRegistersAliasHalves : (start []).params.reg8 = .i8086 := by decide

theorem witness_LegacyByteWriteReplaces : (startLegacy8 []).params.reg8 = .legacy := by decide

/-- A computed and a direct address, a byte register that is not refused, and each form. -/
theorem witness_OracleReadTakesDraw :
    (start []).params.memModel = .oracle ∧ placeAddr (RmOp.mem .bx (.d8 0xFF)).place (start []) = some 0xFFFF ∧
    placeAddr (RmOp.direct 0).place (start []) = some 0 ∧
    refusedIn (.movRegMemToReg true .byte .sp (.mem .bx (.d8 0xFF))) (start []) = false ∧
    refusedIn (AluOp.cmp.rmInstr false .byte .ax (.direct 0)) (startLegacy8 []) = false ∧
    refusedIn (AluOp.sub.rmInstr true .word .sp (.direct 0)) (startLegacy8 []) = false := by decide

theorem witness_OracleWriteOnlyRecords :
    (start []).params.memModel = .oracle ∧ ∃ t, exec (.movAccToMem .word 0xFFFF) (start []) = .next t :=
  ⟨by decide, _, rfl⟩

/-- The word at 65535 reaches address 0. -/
theorem witness_ArrayMemoryAccess :
    (startArray [] [(0, 1), (65535, 2)]).params.memModel = .array64k ∧ (startArray [] [(0, 1), (65535, 2)]).mem.wf ∧
    (65535 + 1) % 65536 = 0 := by decide

/-- An instruction with a read and a write, and a decode-only step. -/
theorem witness_OneReadThenOneWrite :
    (∃ t, exec (.add false .word .ax (.mem .bx .d0)) (startArray [] [(0, 1)]) = .next t ∧
      t.events = [.read 0 0 .word 1, .write 0 0 .word 1]) ∧
    (startListing [0x01, 0x07]).params.execute = false ∧ ∃ t, step (startListing [0x01, 0x07]) = .next t :=
  ⟨⟨_, rfl, by decide⟩, by decide, _, rfl⟩

/-- AH and AL written: BX is outside, AX is the holder; AL under `legacy`; a loop under `taken`. -/
theorem witness_RegisterFrame :
    ((∃ t, exec (.movImmToReg .byte .sp 5) (start []) = .next t) ∧
      destination (.movImmToReg .byte .sp 5) = some (.byte, .reg .sp) ∧ Reg.bx ≠ regHolder .byte .sp ∧
      Reg.ax = regHolder .byte .sp ∧ (start []).params.reg8 = .i8086 ∧ highCode .sp = true) ∧
    ((∃ t, exec (.addImmToAcc .byte 5) (startLegacy8 []) = .next t) ∧
      destination (.addImmToAcc .byte 5) = some (.byte, .reg .ax) ∧ highCode .ax = false ∧
      (startLegacy8 []).params.reg8 = .legacy ∧ refusedIn (.addImmToAcc .byte 5) (startLegacy8 []) = false) ∧
    (∃ t, exec (.loop 0) (startTaken [0xE2, 0xFE]) = .next t) ∧ destination (.loop 0) = none ∧ isLoop (.loop 0) = true ∧
    Reg.ax ≠ .cx :=
  ⟨⟨⟨_, rfl⟩, by decide, by decide, by decide, by decide, by decide⟩,
    ⟨⟨_, rfl⟩, by decide, by decide, by decide, by decide⟩, ⟨_, rfl⟩, by decide, by decide, by decide⟩

theorem witness_FlagFrame :
    (isAlu (.movMemToAcc .word 0) = false ∧ ∃ t, exec (.movMemToAcc .word 0) (start []) = .next t) ∧
    (startListing [0x05, 0x01, 0x00]).params.execute = false ∧ ∃ t, step (startListing [0x05, 0x01, 0x00]) = .next t :=
  ⟨⟨by decide, _, rfl⟩, by decide, _, rfl⟩

/-- A word stored at 65535 covers 65535 and 0, and leaves 1 and 65534. -/
theorem witness_MemoryFrame :
    (∃ t, exec (.movAccToMem .word 0xFFFF) (startArray [] []) = .next t) ∧
    destination (.movAccToMem .word 0xFFFF) = some (.word, .direct 0xFFFF) ∧
    placeAddr (.direct 0xFFFF) (startArray [] []) = some 0xFFFF ∧ 1 ∉ storedAddrs .word 0xFFFF ∧
    65534 ∉ storedAddrs .word 0xFFFF ∧ 0 ∈ storedAddrs .word 0xFFFF ∧ 65535 ∈ storedAddrs .word 0xFFFF :=
  ⟨⟨_, rfl⟩, by decide, by decide, by decide, by decide, by decide, by decide⟩

theorem witness_ControlFrame : ∃ t, exec (.subImmToAcc .word 1) (start []) = .next t := ⟨_, rfl⟩

theorem witness_NonJumpFollowsCursor :
    (∀ j k, Instr.addImmToAcc .word 1 ≠ JumpOp.instr j k) ∧ refusedIn (.addImmToAcc .word 1) (start []) = false ∧
    ∃ t, exec (.addImmToAcc .word 1) (start []) = .next t := by
  refine ⟨?_, by decide, _, rfl⟩
  intro j k h
  cases j <;> cases h

theorem witness_ChangedRegisterIsReported :
    ∃ t, exec (.movImmToReg .byte .sp 5) (start []) = .next t ∧ t.reg .ax ≠ (start []).reg .ax :=
  ⟨_, rfl, by decide⟩

/-- The two ends of the jump offsets. -/
theorem witness_SampleListingLines : Int.natAbs (-126) < 65536 ∧ Int.natAbs 129 < 65536 := by decide

/-- One step that completes with a register written and unchanged, one that changes flags under `TRACE_IP`, one that fails. -/
theorem witness_TraceLineFields :
    ((start [0xB0, 0x00]).params.execute = true ∧
      decode ((start [0xB0, 0x00]).buf.drop (start [0xB0, 0x00]).fetchPos) = .ok (.movImmToReg .byte .ax 0) [] ∧
      ∃ t, step (start [0xB0, 0x00]) = .next t ∧ t.run = .halted ∧ t.regs = (start [0xB0, 0x00]).regs ∧
        writtenReg (.movImmToReg .byte .ax 0) (start [0xB0, 0x00]) = some .ax) ∧
    (∃ t, step { start [0x3C, 0x00] with params := { Params.default with traceIp := true } } = .next t ∧
      t.run = .halted ∧ t.flags ≠ Flags.clear) ∧
    decode (startTaken [0xE2, 0x80]).buf = .ok (.loop (-126)) [] ∧
    ∃ t, step (startTaken [0xE2, 0x80]) = .next t ∧ t.run = .failed ⟨.branchOutOfBuffer, 0⟩ :=
  ⟨⟨by decide, by decide, _, rfl, by decide, by decide, by decide⟩, ⟨_, rfl, by decide, by decide⟩, by decide, _, rfl,
    by decide⟩

/-- A halted run with nothing to list, one with a register, `pc` and a flag to list, and one of each other kind. -/
theorem witness_FinalDumpWhenHalted :
    (State.reset.run = .halted ∧ State.reset.params.execute = true ∧ (∀ r, State.reset.reg r = 0) ∧
      lettersOf State.reset.flags = [] ∧ State.reset.params.traceIp = false) ∧
    (∃ t, step { start [0x2C, 0x01] with params := { Params.default with traceIp := true } } = .next t ∧
      t.run = .halted ∧ t.params.execute = true ∧ t.params.traceIp = true ∧ t.pc ≠ 0 ∧ t.reg .ax ≠ 0 ∧
      lettersOf t.flags = "CAS".toList) ∧
    (startListing []).params.execute = false ∧ (start [0x89]).run = .decoding ∧
    ∃ t, step (start [0x89]) = .next t ∧ t.run = .failed ⟨.truncatedStream, 0⟩ :=
  ⟨⟨rfl, rfl, fun r => by cases r <;> rfl, rfl, rfl⟩,
    ⟨_, rfl, by decide, by decide, by decide, by decide, by decide, by decide⟩, rfl, rfl, _, rfl, by decide⟩

/-! ### The words the statements are written in, at values of the spec -/

/-- `hex`, `hhhh`, decimal and `letters` of 70_reset_and_hazards.md R366 and R368, at both ends of their range. -/
theorem test_text_words :
    hexDigits 0 = "0".toList ∧ hexDigits 0xFFFF = "ffff".toList ∧ fourHexDigits 0x5 = "0005".toList ∧
    fourHexDigits 0xABCD = "abcd".toList ∧ decimalDigits 65535 = "65535".toList ∧ decimalDigits 0 = "0".toList ∧
    lettersOf (fl true true true true true true) = "CPAZSO".toList ∧ lettersOf Flags.clear = [] := by decide

end Sys2Proof.Tests
end

section
/-!
PROOFS. 10_state.md R43 (O25): a step reads `TRACE_IP` and the emitted lines only to emit a line. Every operation commutes
with replacing the two, up to the end of the step, where the line appended may differ.
-/

namespace Sys2Proof.Machine

/-! ### No step changes a parameter -/

@[simp] theorem aluBefore_params (op : AluOp) (w : Width) (dst : Place) (src : Source) (s : State) :
    (aluBefore op w dst src s).params = s.params := by
  simp [aluBefore]

@[simp] theorem jumpDone_params (j : JumpOp) (s : State) : (jumpDone j s).params = s.params := by
  unfold jumpDone
  split <;> rfl

/-- An instruction changes no parameter (10_state.md R42, R43). -/
theorem exec_params {i : Instr} {s t : State} (h : exec i s = .next t) : t.params = s.params := by
  cases exec_cases h with
  | refused href ht => simp [ht]
  | outOfBuffer j k hi hb hc hin ht => simp [ht]
  | moved w dst src href hdst halu hloop hrep hone ht => simp [ht]
  | computed op w dst src href hdst halu hloop hrep hone ht => cases hw : writesResult op <;> simp [ht, hw]
  | linear j k hi hb ht => simp [ht]
  | fellThrough j k hi hb hc ht => simp [ht]
  | jumped j k hi hb hc hin ht => simp [ht]

@[simp] theorem finishExec_params (rec : Record) (s t : State) : (finishExec rec s t).params = t.params := by
  unfold finishExec
  split <;> simp

@[simp] theorem decodedState_params (s : State) (rest : List Byte) : (decodedState s rest).params = s.params := rfl

/-- A step changes no parameter (70_reset_and_hazards.md R361). -/
theorem step_params {s t : State} (h : step s = .next t) : t.params = s.params := by
  obtain ⟨-, hc⟩ := step_cases h
  cases hc with
  | malformed n hd ht => simp [ht]
  | truncated hd ht => simp [ht]
  | executed i rest u hd he hu ht => simp [ht, exec_params hu]
  | listed i rest hd he ht => simp [ht]

/-- The converse of `step_cases`: a step of a decoding run answers each of its cases. -/
theorem step_of_cases {s t : State} (hr : s.run = .decoding) (hc : StepCase s t) : step s = .next t := by
  rw [step_decoding hr]
  unfold cycle
  cases hc with
  | malformed n hd ht => rw [hd, ht]
  | truncated hd ht => rw [hd, ht]
  | executed i rest u hd he hu ht =>
    unfold decodedState at hu
    simp [hd, execute, he, hu, ht, stepRecord, decodedState]
  | listed i rest hd he ht => simp [hd, execute, he, ht, stepRecord, decodedState]

/-! ### Another `TRACE_IP` and other lines -/

/-- The state with `b` for `TRACE_IP` and `ls` for the lines emitted: all that R43 lets differ. -/
def State.withText (b : Bool) (ls : List Text) (s : State) : State :=
  { s with params := { s.params with traceIp := b }, lines := ls }

section
variable {b : Bool} {ls : List Text}

@[simp] theorem withText_reg (s : State) (r : Reg) : (s.withText b ls).reg r = s.reg r := rfl

@[simp] theorem withText_reg8 (s : State) : (s.withText b ls).params.reg8 = s.params.reg8 := rfl

@[simp] theorem withText_run (s : State) : (s.withText b ls).run = s.run := rfl

@[simp] theorem setReg_withText (s : State) (r : Reg) (v : Word) :
    (s.withText b ls).setReg r v = (s.setReg r v).withText b ls := rfl

@[simp] theorem advance_withText (s : State) : advance (s.withText b ls) = (advance s).withText b ls := rfl

/-! ### Operands -/

@[simp] theorem operandsRefused_withText (w : Width) (dst : Place) (src : Source) (s : State) :
    operandsRefused w dst src (s.withText b ls) = operandsRefused w dst src s := rfl

theorem regWrite_withText (w : Width) (r : Reg) (v : BitVec w.bits) (s : State) :
    regWrite w r v (s.withText b ls) = (regWrite w r v s).withText b ls := by
  cases w with
  | byte =>
    show writeByteReg r v (s.withText b ls) = (writeByteReg r v s).withText b ls
    cases hm : s.params.reg8 <;> cases hh : byteIsHigh (byteReg r) <;> simp [writeByteReg, hm, hh]
  | word => rfl

@[simp] theorem placeValue_withText (w : Width) (p : Place) (s : State) :
    placeValue w p (s.withText b ls) = placeValue w p s := by
  cases p <;> rfl

@[simp] theorem readPlace_withText (w : Width) (p : Place) (s : State) :
    readPlace w p (s.withText b ls) = ((readPlace w p s).1, (readPlace w p s).2.withText b ls) := by
  cases p <;> rfl

@[simp] theorem readSource_withText (w : Width) (src : Source) (s : State) :
    readSource w src (s.withText b ls) = ((readSource w src s).1, (readSource w src s).2.withText b ls) := by
  cases src with
  | place p => exact readPlace_withText w p s
  | imm data => rfl

@[simp] theorem writePlace_withText (w : Width) (p : Place) (v : BitVec w.bits) (s : State) :
    writePlace w p v (s.withText b ls) = (writePlace w p v s).withText b ls := by
  cases p with
  | reg r => exact regWrite_withText w r v s
  | mem base disp => rfl
  | direct a => rfl

/-! ### Instructions -/

theorem mov_withText {w : Width} {dst : Place} {src : Source} {s t : State} (h : mov w dst src s = .next t) :
    mov w dst src (s.withText b ls) = .next (t.withText b ls) := by
  cases hr : operandsRefused w dst src s with
  | true =>
    rw [mov_refused hr] at h
    cases h
    exact mov_refused hr
  | false =>
    rw [mov_runs hr] at h
    cases h
    rw [mov_runs (by simpa using hr)]
    simp

@[simp] theorem aluValue_withText (op : AluOp) (w : Width) (dst : Place) (src : Source) (s : State) :
    aluValue op w dst src (s.withText b ls) = aluValue op w dst src s := by
  simp [aluValue]

@[simp] theorem aluBefore_withText (op : AluOp) (w : Width) (dst : Place) (src : Source) (s : State) :
    aluBefore op w dst src (s.withText b ls) = (aluBefore op w dst src s).withText b ls := by
  simp only [aluBefore, placeValue_withText, readPlace_withText, readSource_withText]
  rfl

theorem arith_withText {op : AluOp} {w : Width} {dst : Place} {src : Source} {s t : State}
    (h : arith op w dst src s = .next t) :
    arith op w dst src (s.withText b ls) = .next (t.withText b ls) := by
  cases hr : operandsRefused w dst src s with
  | true =>
    rw [arith_refused hr] at h
    cases h
    exact arith_refused hr
  | false =>
    rw [arith_runs hr] at h
    cases h
    rw [arith_runs (by simpa using hr)]
    cases writesResult op <;> simp

theorem jump_withText {k : Int} {c : Bool} {d s t : State} (h : jump k c d s = .next t) :
    jump k c (d.withText b ls) (s.withText b ls) = .next (t.withText b ls) := by
  cases hb : s.params.branch with
  | linear =>
    rw [jump_linear hb] at h
    cases h
    exact jump_linear hb
  | taken =>
    cases c with
    | false =>
      rw [jump_notTaken hb] at h
      cases h
      exact jump_notTaken hb
    | true =>
      cases ht : targetInBuffer k s with
      | true =>
        rw [jump_inBuffer hb ht] at h
        cases h
        exact jump_inBuffer hb ht
      | false =>
        rw [jump_outOfBuffer hb ht] at h
        cases h
        exact jump_outOfBuffer hb ht

theorem loopJump_withText {k : Int} {c : Bool} {s t : State} (h : loopJump k c s = .next t) :
    loopJump k c (s.withText b ls) = .next (t.withText b ls) :=
  jump_withText (d := s.setReg .cx (loopCount s)) h

/-- An instruction neither reads `TRACE_IP` nor the lines, nor writes them. -/
theorem exec_withText {i : Instr} {s t : State} (h : exec i s = .next t) :
    exec i (s.withText b ls) = .next (t.withText b ls) := by
  cases i with
  | movRegMemToReg | movImmToRegMem | movImmToReg | movMemToAcc | movAccToMem => exact mov_withText h
  | add | addImmToRegMem | addImmToAcc | sub | subImmToRegMem | subImmToAcc | cmp | cmpImmToRegMem | cmpImmToAcc =>
    exact arith_withText h
  | jo | jno | jb | jnb | je | jne | jbe | ja | js | jns | jp | jnp | jl | jnl | jle | jg | jcxz =>
    exact jump_withText h
  | loopnz | loopz | loop => exact loopJump_withText h

/-! ### The step -/

@[simp] theorem haltAtEnd_withText (s : State) : haltAtEnd (s.withText b ls) = (haltAtEnd s).withText b ls :=
  (apply_ite (State.withText b ls) (s.fetchPos = s.buf.length) { s with run := .halted } s).symm

/-- A step that completes appends a line, which is where `TRACE_IP` counts. -/
theorem finish_withText (rec : Record) (s t : State) :
    ∃ ls', finish rec (s.withText b ls) (t.withText b ls) = (finish rec s t).withText b ls' :=
  ⟨ls ++ [emittedLine rec.instr (s.withText b ls) (t.withText b ls)],
    haltAtEnd_withText
      { t with records := t.records ++ [rec], lines := t.lines ++ [emittedLine rec.instr s t] }⟩

theorem finishExec_withText (rec : Record) (s t : State) :
    ∃ ls', finishExec rec (s.withText b ls) (t.withText b ls) = (finishExec rec s t).withText b ls' := by
  simp only [finishExec, withText_run]
  split
  · exact ⟨ls, rfl⟩
  · exact finish_withText rec s t

/-- A step from another `TRACE_IP` and other lines ends in the same state but for the two (10_state.md R43). -/
theorem step_withText {s t : State} (h : step s = .next t) :
    ∃ ls', step (s.withText b ls) = .next (t.withText b ls') := by
  obtain ⟨hr, hc⟩ := step_cases h
  suffices hcase : ∃ ls', StepCase (s.withText b ls) (t.withText b ls') from
    hcase.imp fun ls' hc' => step_of_cases hr hc'
  cases hc with
  | malformed n hd ht => exact ⟨ls, .malformed n hd (ht ▸ rfl)⟩
  | truncated hd ht => exact ⟨ls, .truncated hd (ht ▸ rfl)⟩
  | executed i rest u hd he hu ht =>
    exact (finishExec_withText (stepRecord s i rest) (decodedState s rest) u).imp fun ls' hls =>
      .executed i rest (u.withText b ls) hd he (exec_withText hu) (ht ▸ hls.symm)
  | listed i rest hd he ht =>
    exact (finish_withText (stepRecord s i rest) (decodedState s rest) (advance (decodedState s rest))).imp fun ls' hls =>
      .listed i rest hd he (ht ▸ hls.symm)

end

/-- The state that the host creates has the launch parameters (70_reset_and_hazards.md R361). -/
theorem create_params {l : Launch} {t : State} (h : create l = .next t) : t.params = l.params := by
  unfold create at h
  split at h
  · cases h
    rfl
  · cases h

/-- Settles O25: creation and every step keep the parameters, and a step commutes with replacing `TRACE_IP`. -/
theorem traceIpChangesOnlyText : Obligations.TraceIpChangesOnlyText := by
  unfold Obligations.TraceIpChangesOnlyText
  refine ⟨fun l t h => by rw [create_params h], fun s t b h => ⟨by rw [step_params h], ?_⟩⟩
  obtain ⟨ls', hu⟩ := step_withText (b := b) (ls := s.lines) h
  exact ⟨t.withText b ls', hu, rfl⟩

end Sys2Proof.Machine
end

section
/-!
PROOFS. 20_memory.md R71 (O21): the buffer of a created core is the launch input, and no case of `exec` or `step` writes it.
-/

namespace Sys2Proof.Machine

/-! ### No step writes the buffer -/

@[simp] theorem aluBefore_buf (op : AluOp) (w : Width) (dst : Place) (src : Source) (s : State) :
    (aluBefore op w dst src s).buf = s.buf := by
  simp [aluBefore]

@[simp] theorem jumpDone_buf (j : JumpOp) (s : State) : (jumpDone j s).buf = s.buf := by
  unfold jumpDone
  split <;> rfl

/-- An instruction does not write the buffer, which is no operand's place (20_memory.md R71). -/
theorem exec_buf {i : Instr} {s t : State} (h : exec i s = .next t) : t.buf = s.buf := by
  cases exec_cases h with
  | refused href ht => simp [ht]
  | outOfBuffer j k hi hb hc hin ht => simp [ht]
  | moved w dst src href hdst halu hloop hrep hone ht => simp [ht]
  | computed op w dst src href hdst halu hloop hrep hone ht => cases hw : writesResult op <;> simp [ht, hw]
  | linear j k hi hb ht => simp [ht]
  | fellThrough j k hi hb hc ht => simp [ht]
  | jumped j k hi hb hc hin ht => simp [ht]

@[simp] theorem finishExec_buf (rec : Record) (s t : State) : (finishExec rec s t).buf = t.buf := by
  unfold finishExec
  split <;> simp

@[simp] theorem decodedState_buf (s : State) (rest : List Byte) : (decodedState s rest).buf = s.buf := rfl

/-- A step does not write the buffer (20_memory.md R71). -/
theorem step_buf {s t : State} (h : step s = .next t) : t.buf = s.buf := by
  obtain ⟨-, hc⟩ := step_cases h
  cases hc with
  | malformed n hd ht => simp [ht]
  | truncated hd ht => simp [ht]
  | executed i rest u hd he hu ht => simp [ht, exec_buf hu]
  | listed i rest hd he ht => simp [ht]

/-! ### The buffer at creation -/

/-- The inversion of `create`: a core that the host creates has a buffer within the limit of 00_scope.md R13 and starts in
the launch state. -/
theorem create_cases {l : Launch} {t : State} (h : create l = .next t) :
    l.buf.length ≤ Config.maxBuffer ∧ t = launched l := by
  unfold create at h
  split at h
  · rename_i hle
    exact ⟨hle, by simpa using h.symm⟩
  · cases h

/-- Settles O21: creation loads the launch buffer, and no step writes it. -/
theorem bufferIsNeverWritten : Obligations.BufferIsNeverWritten := by
  unfold Obligations.BufferIsNeverWritten
  refine ⟨fun l t h => ?_, fun s t h => step_buf h⟩
  obtain ⟨-, rfl⟩ := create_cases h
  rfl

end Sys2Proof.Machine
end

section
/-!
PROOFS. 30_encoding.md R106 (O7): the equations of `ReadData`, one for each number of bytes that w and s call for and one
for each fetch at the end of the buffer.
-/

namespace Sys2Proof.Machine

/-! ### One and two bytes of data -/

@[simp] theorem readData_word_false (lo hi : Byte) (rest : List Byte) :
    readData .word false (lo :: hi :: rest) = some (wordOfBytes lo hi, rest) := rfl

@[simp] theorem readData_word_true (lo : Byte) (rest : List Byte) :
    readData .word true (lo :: rest) = some (lo.signExtend 16, rest) := rfl

/-- With w = 0 there is one byte and no extension of its sign, whatever s is. -/
@[simp] theorem readData_byte (s : Bool) (lo : Byte) (rest : List Byte) :
    readData .byte s (lo :: rest) = some (lo.setWidth 16, rest) := by
  cases s <;> rfl

/-- The low byte of a zero-extended byte is the byte. -/
theorem setWidth_byte_word_byte (lo : Byte) : (lo.setWidth 16).setWidth Width.byte.bits = lo :=
  (BitVec.setWidth_setWidth_of_le lo (by decide)).trans (BitVec.setWidth_eq lo)

/-! ### A missing byte -/

@[simp] theorem readData_nil (w : Width) (s : Bool) : readData w s [] = none := by
  cases w <;> cases s <;> rfl

@[simp] theorem readData_word_false_singleton (lo : Byte) : readData .word false [lo] = none := rfl

/-- Settles O7: each clause is an equation of `ReadData`; the byte form's witness is the zero-extended byte. -/
theorem immediateAssembly : Obligations.ImmediateAssembly := by
  unfold Obligations.ImmediateAssembly
  exact fun lo hi rest => ⟨readData_word_false lo hi rest, readData_word_true lo rest,
    fun s => ⟨lo.setWidth 16, readData_byte s lo rest, setWidth_byte_word_byte lo⟩,
    readData_nil, readData_word_false_singleton lo⟩

end Sys2Proof.Machine
end

section
/-!
PROOFS. 60_exceptions.md R335 (O12): an instruction leaves the run state as it was or is the entry of an error, and a step
that ends in `failed` is such an entry after the decode's move of the cursor.
-/

namespace Sys2Proof.Machine

/-! ### What an instruction does to the run state -/

@[simp] theorem aluBefore_run (op : AluOp) (w : Width) (dst : Place) (src : Source) (s : State) :
    (aluBefore op w dst src s).run = s.run := by
  simp [aluBefore]

@[simp] theorem jumpDone_run (j : JumpOp) (s : State) : (jumpDone j s).run = s.run := by
  unfold jumpDone
  split <;> rfl

/-- An instruction does one of two things: it enters an error and writes nothing else, or it leaves the run state alone
(60_exceptions.md R333, R335). -/
theorem exec_fails_or_keeps_run {i : Instr} {s t : State} (h : exec i s = .next t) :
    (∃ k, t = fail k s.pc.toNat s) ∨ t.run = s.run := by
  cases exec_cases h with
  | refused href ht => exact .inl ⟨_, ht⟩
  | outOfBuffer j k hi hb hc hin ht => exact .inl ⟨_, ht⟩
  | moved w dst src href hdst halu hloop hrep hone ht => exact .inr (by simp [ht])
  | computed op w dst src href hdst halu hloop hrep hone ht =>
    exact .inr (by cases hw : writesResult op <;> simp [ht, hw])
  | linear j k hi hb ht => exact .inr (by simp [ht])
  | fellThrough j k hi hb hc ht => exact .inr (by simp [ht])
  | jumped j k hi hb hc hin ht => exact .inr (by simp [ht])

/-! ### The end of a step -/

@[simp] theorem decodedState_run (s : State) (rest : List Byte) : (decodedState s rest).run = s.run := rfl

/-- A step that completes goes on decoding or halts (40_execute.md R201). -/
theorem finish_not_failed {rec : Record} {s t : State} (h : t.run = .decoding) (e : RunError) :
    (finish rec s t).run ≠ .failed e := by
  rw [finish_run]
  split <;> simp [h]

/-- After a failed instruction nothing is handed over (60_exceptions.md R333). -/
@[simp] theorem finishExec_fail (rec : Record) (s t : State) (k : ErrorKind) (o : Nat) :
    finishExec rec s (fail k o t) = fail k o t := rfl

theorem finishExec_decoding {rec : Record} {s t : State} (h : t.run = .decoding) :
    finishExec rec s t = finish rec s t := by
  simp [finishExec, h]

/-! ### A failing step -/

/-- A step that ends in `failed` is the entry of an error after the fetches of the decode, whatever raised it
(60_exceptions.md R335, log 8). -/
theorem step_failed_eq_fail {s t : State} {e : RunError} (h : step s = .next t) (hf : t.run = .failed e) :
    ∃ k o n, t = fail k o (fetched n s) := by
  obtain ⟨hr, hc⟩ := step_cases h
  cases hc with
  | malformed n hd ht => exact ⟨_, _, n, ht⟩
  | truncated hd ht => exact ⟨_, _, _, ht⟩
  | listed i rest hd he ht => exact absurd (ht ▸ hf) (finish_not_failed (by simp [hr]) e)
  | executed i rest u hd he hu ht =>
    obtain ⟨k, rfl⟩ | hrun := exec_fails_or_keeps_run hu
    · exact ⟨k, _, _, ht.trans (finishExec_fail ..)⟩
    · have hdec : u.run = .decoding := by simp [hrun, hr]
      rw [ht, finishExec_decoding hdec] at hf
      exact absurd hf (finish_not_failed hdec e)

/-- Settles O12: the failing step is `fail` after `fetched`, which write the run state and the cursor. -/
theorem failureWritesNothing : Obligations.FailureWritesNothing := by
  unfold Obligations.FailureWritesNothing
  intro s t e h hf
  obtain ⟨k, o, n, rfl⟩ := step_failed_eq_fail h hf
  rw [← hf]
  rfl

end Sys2Proof.Machine
end

section
/-!
PROOFS. The decoder (O1 to O6, O8, O9): the encoder's formats and their opcode bytes, the inversion of each reader of
30_encoding.md R121, and the round trip of R126, from which the facts about length, cut and continuation follow.
-/

namespace Sys2Proof

open Machine

/-! ### The opcode map -/

/-- The bits of the opcode byte of an RM-format ALU kind (30_encoding.md R116). -/
def AluOp.rmPattern : AluOp → BitVec 6
  | .add => 0b000000
  | .sub => 0b001010
  | .cmp => 0b001110

/-- The bits of the opcode byte of an immediate-to-accumulator kind (30_encoding.md R116). -/
def AluOp.accPattern : AluOp → BitVec 7
  | .add => 0b0000010
  | .sub => 0b0010110
  | .cmp => 0b0011110

/-- The opcode byte of `MovImmToReg` (30_encoding.md R116). -/
def movImmToRegByte (w : Width) (reg : BitVec 3) : Byte := 0b1011#4 ++ BitVec.ofBool w.bit ++ reg

/-- The opcode byte that the encoder writes for a class, with the fields of `b`. -/
def OpClass.byteWithFieldsOf (b : Byte) : OpClass → Byte
  | .rmMov => opcodeDw 0b100010 (bit1Of b) (widthOf b)
  | .rmAlu op => opcodeDw op.rmPattern (bit1Of b) (widthOf b)
  | .accImm op => opcodeW op.accPattern (widthOf b)
  | .group => opcodeDw 0b100000 (bit1Of b) (widthOf b)
  | .movMemToAcc => opcodeW 0b1010000 (widthOf b)
  | .movAccToMem => opcodeW 0b1010001 (widthOf b)
  | .movImmToReg => movImmToRegByte (regImmWidthOf b) (rmOf b)
  | .movImmToRegMem => opcodeW 0b1100011 (widthOf b)
  | .jmp j => j.opcode

/-- A classified byte is the encoder's opcode byte of its class. -/
theorem byteWithFieldsOf_of_classify : ∀ {b : Byte}, ∀ c ∈ classify b, c.byteWithFieldsOf b = b := by
  decide

/-- The bytes that no row of the map matches are those of 30_encoding.md R122. -/
theorem classify_eq_none : ∀ b : Byte, classify b = none ↔ malformedFirst b = true := by
  decide

@[simp] theorem classify_rmMov (d : Bool) (w : Width) : classify (opcodeDw 0b100010 d w) = some .rmMov := by
  cases d <;> cases w <;> decide

@[simp] theorem classify_rmAlu (op : AluOp) (d : Bool) (w : Width) :
    classify (opcodeDw op.rmPattern d w) = some (.rmAlu op) := by
  cases op <;> cases d <;> cases w <;> decide

@[simp] theorem classify_accImm (op : AluOp) (w : Width) : classify (opcodeW op.accPattern w) = some (.accImm op) := by
  cases op <;> cases w <;> decide

@[simp] theorem classify_group (s : Bool) (w : Width) : classify (opcodeDw 0b100000 s w) = some .group := by
  cases s <;> cases w <;> decide

@[simp] theorem classify_movMemToAcc (w : Width) : classify (opcodeW 0b1010000 w) = some .movMemToAcc := by
  cases w <;> decide

@[simp] theorem classify_movAccToMem (w : Width) : classify (opcodeW 0b1010001 w) = some .movAccToMem := by
  cases w <;> decide

@[simp] theorem classify_movImmToRegMem (w : Width) : classify (opcodeW 0b1100011 w) = some .movImmToRegMem := by
  cases w <;> decide

@[simp] theorem classify_jump (j : JumpOp) : classify j.opcode = some (.jmp j) := by
  cases j <;> decide

theorem movImmToRegByte_fields (w : Width) (reg : BitVec 3) :
    classify (movImmToRegByte w reg) = some .movImmToReg ∧ regImmWidthOf (movImmToRegByte w reg) = w ∧
      rmOf (movImmToRegByte w reg) = reg := by
  cases w <;> revert reg <;> decide

/-- The bytes of the group are 0x80 to 0x83 (30_encoding.md R117). -/
theorem classify_eq_group : ∀ b : Byte, classify b = some .group ↔ 0x80 ≤ b.toNat ∧ b.toNat ≤ 0x83 := by
  decide

/-- Two rows that ask a shared bit for different values match no byte in common. -/
theorem OpRow.disjoint_of_bit {r q : OpRow} (h : r.mask &&& q.mask &&& (r.pattern ^^^ q.pattern) ≠ 0) (b : Byte) :
    ¬ (r.matchesByte b = true ∧ q.matchesByte b = true) := by
  rintro ⟨hr, hq⟩
  have hr : b &&& r.mask = r.pattern := by simpa [matchesByte] using hr
  have hq : b &&& q.mask = q.pattern := by simpa [matchesByte] using hq
  apply h
  rw [← hr, ← hq]
  ext i hi
  simp only [BitVec.getElem_and, BitVec.getElem_xor]
  cases b[i] <;> cases r.mask[i] <;> cases q.mask[i] <;> simp

/-- Settles O2: any two rows of the map ask some bit that both look at for different values. -/
theorem opcodeRowsDisjoint : Obligations.OpcodeRowsDisjoint := by
  unfold Obligations.OpcodeRowsDisjoint
  have hbits : opcodeMap.Pairwise fun r q => r.mask &&& q.mask &&& (r.pattern ^^^ q.pattern) ≠ 0 := by decide
  exact hbits.imp fun h b => OpRow.disjoint_of_bit h b

/-! ### The formats -/

/-- The nine formats of an instruction (30_encoding.md R112): what holds of each holds of all 34 kinds. -/
theorem Instr.byFormat {P : Instr → Prop} (movRm : ∀ d w reg rm, P (.movRegMemToReg d w reg rm))
    (movImmRm : ∀ w rm data, P (.movImmToRegMem w rm data)) (movImmReg : ∀ w reg data, P (.movImmToReg w reg data))
    (memToAcc : ∀ w addr, P (.movMemToAcc w addr)) (accToMem : ∀ w addr, P (.movAccToMem w addr))
    (aluRm : ∀ (op : AluOp) d w reg rm, P (op.rmInstr d w reg rm))
    (aluGroup : ∀ (op : AluOp) s w rm data, P (op.groupInstr s w rm data))
    (aluAcc : ∀ (op : AluOp) w data, P (op.accInstr w data)) (jump : ∀ (j : JumpOp) k, P (j.instr k)) : ∀ i, P i
  | .movRegMemToReg d w reg rm => movRm d w reg rm
  | .movImmToRegMem w rm data => movImmRm w rm data
  | .movImmToReg w reg data => movImmReg w reg data
  | .movMemToAcc w addr => memToAcc w addr
  | .movAccToMem w addr => accToMem w addr
  | .add d w reg rm => aluRm .add d w reg rm
  | .addImmToRegMem s w rm data => aluGroup .add s w rm data
  | .addImmToAcc w data => aluAcc .add w data
  | .sub d w reg rm => aluRm .sub d w reg rm
  | .subImmToRegMem s w rm data => aluGroup .sub s w rm data
  | .subImmToAcc w data => aluAcc .sub w data
  | .cmp d w reg rm => aluRm .cmp d w reg rm
  | .cmpImmToRegMem s w rm data => aluGroup .cmp s w rm data
  | .cmpImmToAcc w data => aluAcc .cmp w data
  | .jo k => jump .jo k
  | .jno k => jump .jno k
  | .jb k => jump .jb k
  | .jnb k => jump .jnb k
  | .je k => jump .je k
  | .jne k => jump .jne k
  | .jbe k => jump .jbe k
  | .ja k => jump .ja k
  | .js k => jump .js k
  | .jns k => jump .jns k
  | .jp k => jump .jp k
  | .jnp k => jump .jnp k
  | .jl k => jump .jl k
  | .jnl k => jump .jnl k
  | .jle k => jump .jle k
  | .jg k => jump .jg k
  | .loopnz k => jump .loopnz k
  | .loopz k => jump .loopz k
  | .loop k => jump .loop k
  | .jcxz k => jump .jcxz k

@[simp] theorem wf_rmInstr (op : AluOp) (d : Bool) (w : Width) (reg : Reg) (rm : RmOp) :
    (op.rmInstr d w reg rm).wf = rm.wf := by
  cases op <;> rfl

@[simp] theorem wf_groupInstr (op : AluOp) (s : Bool) (w : Width) (rm : RmOp) (data : Word) :
    (op.groupInstr s w rm data).wf = (rm.wf && groupDataWf s w data) := by
  cases op <;> rfl

@[simp] theorem wf_accInstr (op : AluOp) (w : Width) (data : Word) :
    (op.accInstr w data).wf = groupDataWf false w data := by
  cases op <;> exact dataWf_eq w data

@[simp] theorem wf_jump (j : JumpOp) (k : Int) : (j.instr k).wf = ipIncWf k := by
  cases j <;> rfl

@[simp] theorem encode_rmInstr (op : AluOp) (d : Bool) (w : Width) (reg : Reg) (rm : RmOp) :
    encode (op.rmInstr d w reg rm) = opcodeDw op.rmPattern d w :: rm.encode reg.code := by
  cases op <;> rfl

@[simp] theorem encode_groupInstr (op : AluOp) (s : Bool) (w : Width) (rm : RmOp) (data : Word) :
    encode (op.groupInstr s w rm data) = opcodeDw 0b100000 s w :: rm.encode op.groupCode ++ encodeData w s data := by
  cases op <;> rfl

@[simp] theorem encode_accInstr (op : AluOp) (w : Width) (data : Word) :
    encode (op.accInstr w data) = opcodeW op.accPattern w :: encodeData w false data := by
  cases op <;> rfl

@[simp] theorem encode_movImmToReg (w : Width) (reg : Reg) (data : Word) :
    encode (.movImmToReg w reg data) = movImmToRegByte w reg.code :: encodeData w false data := rfl

@[simp] theorem encode_jump (j : JumpOp) (k : Int) : encode (j.instr k) = [j.opcode, BitVec.ofInt 8 (k - 2)] := by
  cases j <;> rfl

/-! ### One equation for each class of first byte -/

section
variable {b0 : Byte} (tl : List Byte)

theorem decode_rmMov (h : classify b0 = some .rmMov) :
    decode (b0 :: tl) = decodeRmFormat .movRegMemToReg b0 tl := by
  simp [decode, h]

theorem decode_rmAlu {op : AluOp} (h : classify b0 = some (.rmAlu op)) :
    decode (b0 :: tl) = decodeRmFormat op.rmInstr b0 tl := by
  simp [decode, h]

theorem decode_movImmToRegMem (h : classify b0 = some .movImmToRegMem) :
    decode (b0 :: tl) = decodeMovImmToRegMem b0 tl := by
  simp [decode, h]

theorem decode_group (h : classify b0 = some .group) : decode (b0 :: tl) = decodeGroup b0 tl := by
  simp [decode, h]

theorem decode_movImmToReg (h : classify b0 = some .movImmToReg) :
    decode (b0 :: tl) = .ofFields ((readData (regImmWidthOf b0) false tl).map fun x =>
      (.movImmToReg (regImmWidthOf b0) (Reg.ofCode (rmOf b0)) x.1, x.2)) := by
  simp [decode, h]

theorem decode_movMemToAcc (h : classify b0 = some .movMemToAcc) :
    decode (b0 :: tl) = .ofFields ((readWord tl).map fun x => (.movMemToAcc (widthOf b0) x.1, x.2)) := by
  simp [decode, h]

theorem decode_movAccToMem (h : classify b0 = some .movAccToMem) :
    decode (b0 :: tl) = .ofFields ((readWord tl).map fun x => (.movAccToMem (widthOf b0) x.1, x.2)) := by
  simp [decode, h]

theorem decode_accImm {op : AluOp} (h : classify b0 = some (.accImm op)) :
    decode (b0 :: tl) = .ofFields ((readData (widthOf b0) false tl).map fun x =>
      (op.accInstr (widthOf b0) x.1, x.2)) := by
  simp [decode, h]

theorem decode_jmp {j : JumpOp} (h : classify b0 = some (.jmp j)) : decode (b0 :: tl) = decodeJump j tl := by
  simp [decode, h]

theorem decode_unclassified (h : classify b0 = none) : decode (b0 :: tl) = .malformed 1 := by
  simp [decode, h]

end

@[simp] theorem ofFields_some (i : Instr) (rest : List Byte) : Decoded.ofFields (some (i, rest)) = .ok i rest := rfl

@[simp] theorem ofFields_eq_ok (x : Option (Instr × List Byte)) (i : Instr) (rest : List Byte) :
    Decoded.ofFields x = .ok i rest ↔ x = some (i, rest) := by
  rcases x with _ | ⟨i', rest'⟩ <;> simp [Decoded.ofFields]

@[simp] theorem ofFields_ne_malformed (x : Option (Instr × List Byte)) (n : Nat) :
    Decoded.ofFields x ≠ .malformed n := by
  rcases x with _ | ⟨i', rest'⟩ <;> simp [Decoded.ofFields]

@[simp] theorem groupOp_groupCode (op : AluOp) : groupOp op.groupCode = some op := by cases op <;> rfl

theorem groupCode_of_groupOp : ∀ {c : BitVec 3}, ∀ op ∈ groupOp c, op.groupCode = c := by decide

/-- The `reg` values that no operation has are those of 30_encoding.md R117. -/
theorem groupOp_eq_none : ∀ c : BitVec 3, groupOp c = none ↔ malformedGroupReg c = true := by decide

/-! ### Decoding what was encoded -/

theorem decodeRmFormat_encode (mk : Bool → Width → Reg → RmOp → Instr) (p : BitVec 6) (d : Bool) (w : Width) (reg : Reg)
    {o : RmOp} (h : o.wf = true) (rest : List Byte) :
    decodeRmFormat mk (opcodeDw p d w) (o.encode reg.code ++ rest) = .ok (mk d w reg o) rest := by
  simp [decodeRmFormat, RmOp.encode, decodeRm_encode h]

theorem decodeRmData_encode {s : Bool} {w : Width} {o : RmOp} {data : Word} (ho : o.wf = true)
    (hd : groupDataWf s w data = true) (mid : BitVec 3) (rest : List Byte) :
    decodeRmData w s (modRm o.modField mid o.rmField) (o.dispBytes ++ (encodeData w s data ++ rest)) =
      some (o, data, rest) := by
  simp [decodeRmData, decodeRm_encode ho, readData_encode hd]

theorem decodeGroup_encode (op : AluOp) {s : Bool} {w : Width} {o : RmOp} {data : Word} (ho : o.wf = true)
    (hd : groupDataWf s w data = true) (rest : List Byte) :
    decodeGroup (opcodeDw 0b100000 s w) (o.encode op.groupCode ++ encodeData w s data ++ rest) =
      .ok (op.groupInstr s w o data) rest := by
  simp [decodeGroup, RmOp.encode, decodeRmData_encode ho hd]

theorem decodeMovImmToRegMem_encode {w : Width} {o : RmOp} {data : Word} (ho : o.wf = true)
    (hd : groupDataWf false w data = true) (mid : BitVec 3) (rest : List Byte) :
    decodeMovImmToRegMem (opcodeW 0b1100011 w) (o.encode mid ++ encodeData w false data ++ rest) =
      .ok (.movImmToRegMem w o data) rest := by
  simp [decodeMovImmToRegMem, RmOp.encode, decodeRmData_encode ho hd]

/-- `ip_inc - 2` is a signed byte (30_encoding.md R111). -/
theorem toInt_ipInc {k : Int} (h : ipIncWf k = true) : (BitVec.ofInt 8 (k - 2)).toInt + 2 = k := by
  have hk : -126 ≤ k ∧ k ≤ 129 := by simpa [ipIncWf] using h
  rw [BitVec.toInt_ofInt_eq_self] <;> omega

/-- Decoding reads back what the encoder wrote, whatever follows (30_encoding.md R126). -/
theorem decode_encode {i : Instr} (h : i.wf = true) (rest : List Byte) : decode (encode i ++ rest) = .ok i rest := by
  induction i using Instr.byFormat with
  | movRm d w reg rm =>
    exact (decode_rmMov _ (classify_rmMov d w)).trans (decodeRmFormat_encode _ _ d w reg h rest)
  | movImmRm w rm data =>
    obtain ⟨ho, hd⟩ : rm.wf = true ∧ groupDataWf false w data = true := by simpa [Instr.wf, dataWf_eq] using h
    exact (decode_movImmToRegMem _ (classify_movImmToRegMem w)).trans (decodeMovImmToRegMem_encode ho hd 0 rest)
  | movImmReg w reg data =>
    have hd : groupDataWf false w data = true := by simpa [Instr.wf, dataWf_eq] using h
    obtain ⟨hc, hw, hreg⟩ := movImmToRegByte_fields w reg.code
    rw [encode_movImmToReg, List.cons_append, decode_movImmToReg _ hc, hw, hreg]
    simp [readData_encode hd]
  | memToAcc w addr =>
    refine (decode_movMemToAcc _ (classify_movMemToAcc w)).trans ?_
    simp
  | accToMem w addr =>
    refine (decode_movAccToMem _ (classify_movAccToMem w)).trans ?_
    simp
  | aluRm op d w reg rm =>
    rw [wf_rmInstr] at h
    rw [encode_rmInstr, List.cons_append, decode_rmAlu _ (classify_rmAlu op d w), decodeRmFormat_encode _ _ _ _ _ h]
  | aluGroup op s w rm data =>
    obtain ⟨ho, hd⟩ : rm.wf = true ∧ groupDataWf s w data = true := by simpa using h
    rw [encode_groupInstr]
    exact (decode_group _ (classify_group s w)).trans (decodeGroup_encode op ho hd rest)
  | aluAcc op w data =>
    rw [wf_accInstr] at h
    rw [encode_accInstr, List.cons_append, decode_accImm _ (classify_accImm op w)]
    simp [readData_encode h]
  | jump j k =>
    rw [wf_jump] at h
    rw [encode_jump, List.cons_append, decode_jmp _ (classify_jump j)]
    show Decoded.ok (j.instr _) rest = _
    rw [toInt_ipInc h]

/-! ### Encoding what was decoded -/

theorem decodeRmFormat_eq_ok {mk : Bool → Width → Reg → RmOp → Instr} {b0 : Byte} {bs rest : List Byte} {i : Instr}
    (h : decodeRmFormat mk b0 bs = .ok i rest) :
    ∃ reg o, i = mk (bit1Of b0) (widthOf b0) reg o ∧ o.wf = true ∧ bs = o.encode reg.code ++ rest := by
  cases bs with
  | nil => cases h
  | cons m tl =>
    obtain ⟨⟨o, tl'⟩, ho, hi⟩ := Option.map_eq_some_iff.1 ((ofFields_eq_ok ..).1 h)
    obtain ⟨rfl, rfl⟩ := Prod.mk.inj hi
    obtain ⟨hwf, hmod, hrm, rfl⟩ := decodeRm_eq_some ho
    refine ⟨_, o, rfl, hwf, ?_⟩
    rw [RmOp.encode, hmod, hrm, Reg.code_ofCode, modRm_of_fields]
    rfl

theorem decodeRmData_eq_some {w : Width} {s : Bool} {m : Byte} {bs rest : List Byte} {o : RmOp} {data : Word}
    (h : decodeRmData w s m bs = some (o, data, rest)) :
    o.wf = true ∧ groupDataWf s w data = true ∧ m :: bs = o.encode (regOf m) ++ encodeData w s data ++ rest := by
  obtain ⟨⟨o', tl⟩, ho, h⟩ := Option.bind_eq_some_iff.1 h
  obtain ⟨⟨data', rest'⟩, hd, h⟩ := Option.map_eq_some_iff.1 h
  obtain ⟨rfl, rfl, rfl⟩ : o' = o ∧ data' = data ∧ rest' = rest := by simpa using h
  obtain ⟨hwf, hmod, hrm, rfl⟩ := decodeRm_eq_some ho
  obtain ⟨hdwf, rfl⟩ := readData_eq_some hd
  refine ⟨hwf, hdwf, ?_⟩
  rw [RmOp.encode, hmod, hrm, modRm_of_fields]
  simp

theorem decodeGroup_eq_ok {b0 : Byte} {bs rest : List Byte} {i : Instr} (h : decodeGroup b0 bs = .ok i rest) :
    ∃ (op : AluOp) (o : RmOp) (data : Word), i = op.groupInstr (bit1Of b0) (widthOf b0) o data ∧ o.wf = true ∧
      groupDataWf (bit1Of b0) (widthOf b0) data = true ∧
      bs = o.encode op.groupCode ++ encodeData (widthOf b0) (bit1Of b0) data ++ rest := by
  cases bs with
  | nil => cases h
  | cons m tl =>
    cases hop : groupOp (regOf m) with
    | none => simp [decodeGroup, hop] at h
    | some op =>
      simp only [decodeGroup, hop] at h
      obtain ⟨⟨o, data, tl'⟩, ho, hi⟩ := Option.map_eq_some_iff.1 ((ofFields_eq_ok ..).1 h)
      obtain ⟨rfl, rfl⟩ := Prod.mk.inj hi
      obtain ⟨hwf, hdwf, hbs⟩ := decodeRmData_eq_some ho
      exact ⟨op, o, data, rfl, hwf, hdwf, by rw [hbs, groupCode_of_groupOp op hop]⟩

theorem decodeMovImmToRegMem_eq_ok {b0 : Byte} {bs rest : List Byte} {i : Instr}
    (h : decodeMovImmToRegMem b0 bs = .ok i rest) :
    ∃ (o : RmOp) (data : Word) (mid : BitVec 3), i = .movImmToRegMem (widthOf b0) o data ∧ o.wf = true ∧
      groupDataWf false (widthOf b0) data = true ∧
      bs = o.encode mid ++ encodeData (widthOf b0) false data ++ rest := by
  cases bs with
  | nil => cases h
  | cons m tl =>
    obtain ⟨⟨o, data, tl'⟩, ho, hi⟩ := Option.map_eq_some_iff.1 ((ofFields_eq_ok ..).1 h)
    obtain ⟨rfl, rfl⟩ := Prod.mk.inj hi
    obtain ⟨hwf, hdwf, hbs⟩ := decodeRmData_eq_some ho
    exact ⟨o, data, regOf m, rfl, hwf, hdwf, hbs⟩

/-- The bias of 30_encoding.md R111, undone. -/
theorem ipInc_of_byte (b : Byte) : ipIncWf (b.toInt + 2) = true ∧ BitVec.ofInt 8 (b.toInt + 2 - 2) = b := by
  have hlo := b.le_toInt
  have hhi := b.toInt_lt
  refine ⟨by simp [ipIncWf]; omega, ?_⟩
  rw [Int.add_sub_cancel, BitVec.ofInt_toInt]

/-- Only the opcode bytes 0xC6 and 0xC7 have an ignored field (30_encoding.md R118). -/
theorem classify_eq_movImmToRegMem : ∀ b : Byte, classify b = some .movImmToRegMem ↔ b = 0xC6 ∨ b = 0xC7 := by
  decide

theorem ignoredRegCleared_of_class {b0 : Byte} {c : OpClass} (hc : classify b0 = some c) (h : c ≠ .movImmToRegMem)
    (tl : List Byte) : ignoredRegCleared (b0 :: tl) = b0 :: tl := by
  have hb : ¬ (b0 = 0xC6 ∨ b0 = 0xC7) := by
    rw [← classify_eq_movImmToRegMem, hc]
    simpa using h
  cases tl with
  | nil => rfl
  | cons m tl => exact if_neg hb

/-- Clearing bits 5:3 of a ModRM byte (30_encoding.md R102). -/
theorem and_modRm (md : BitVec 2) (mid rm : BitVec 3) : modRm md mid rm &&& 0xC7 = modRm md 0 rm := by
  revert md mid rm
  decide

theorem ignoredRegCleared_encode {b0 : Byte} (h : classify b0 = some .movImmToRegMem) (o : RmOp) (mid : BitVec 3)
    (tl : List Byte) : ignoredRegCleared (b0 :: (o.encode mid ++ tl)) = b0 :: (o.encode 0 ++ tl) := by
  have hb := (classify_eq_movImmToRegMem b0).1 h
  exact (if_pos hb).trans (congrArg (b0 :: · :: (o.dispBytes ++ tl)) (and_modRm ..))

/-- What decodes is well-formed, and its encoding is the bytes it was decoded from, the ignored field apart
(30_encoding.md R126). -/
theorem encode_of_decode {bs rest : List Byte} {i : Instr} (h : decode bs = .ok i rest) :
    i.wf = true ∧ encode i ++ rest = ignoredRegCleared bs := by
  obtain _ | ⟨b0, tl⟩ := bs
  · cases h
  obtain hc | ⟨c, hc⟩ := (classify b0).eq_none_or_eq_some
  · rw [decode_unclassified tl hc] at h
    cases h
  have hb0 := byteWithFieldsOf_of_classify c hc
  cases c with
  | rmMov =>
    rw [decode_rmMov tl hc] at h
    obtain ⟨reg, o, rfl, hwf, rfl⟩ := decodeRmFormat_eq_ok h
    rw [ignoredRegCleared_of_class hc (by decide)]
    exact ⟨hwf, congrArg (· :: _) hb0⟩
  | rmAlu op =>
    rw [decode_rmAlu tl hc] at h
    obtain ⟨reg, o, rfl, hwf, rfl⟩ := decodeRmFormat_eq_ok h
    rw [ignoredRegCleared_of_class hc (by simp), wf_rmInstr, encode_rmInstr]
    exact ⟨hwf, congrArg (· :: _) hb0⟩
  | accImm op =>
    rw [decode_accImm tl hc, ofFields_eq_ok, Option.map_eq_some_iff] at h
    obtain ⟨⟨data, rest'⟩, hd, h⟩ := h
    obtain ⟨rfl, rfl⟩ := Prod.mk.inj h
    obtain ⟨hwf, rfl⟩ := readData_eq_some hd
    rw [ignoredRegCleared_of_class hc (by simp), wf_accInstr, encode_accInstr]
    exact ⟨hwf, congrArg (· :: _) hb0⟩
  | group =>
    rw [decode_group tl hc] at h
    obtain ⟨op, o, data, rfl, hwf, hdwf, rfl⟩ := decodeGroup_eq_ok h
    rw [ignoredRegCleared_of_class hc (by decide), wf_groupInstr, encode_groupInstr, hwf, hdwf]
    exact ⟨rfl, congrArg (· :: _) hb0⟩
  | movMemToAcc =>
    rw [decode_movMemToAcc tl hc, ofFields_eq_ok, Option.map_eq_some_iff] at h
    obtain ⟨⟨addr, rest'⟩, hd, h⟩ := h
    obtain ⟨rfl, rfl⟩ := Prod.mk.inj h
    rw [ignoredRegCleared_of_class hc (by decide), readWord_eq_some hd]
    exact ⟨rfl, congrArg (· :: _) hb0⟩
  | movAccToMem =>
    rw [decode_movAccToMem tl hc, ofFields_eq_ok, Option.map_eq_some_iff] at h
    obtain ⟨⟨addr, rest'⟩, hd, h⟩ := h
    obtain ⟨rfl, rfl⟩ := Prod.mk.inj h
    rw [ignoredRegCleared_of_class hc (by decide), readWord_eq_some hd]
    exact ⟨rfl, congrArg (· :: _) hb0⟩
  | movImmToReg =>
    rw [decode_movImmToReg tl hc, ofFields_eq_ok, Option.map_eq_some_iff] at h
    obtain ⟨⟨data, rest'⟩, hd, h⟩ := h
    obtain ⟨rfl, rfl⟩ := Prod.mk.inj h
    obtain ⟨hwf, rfl⟩ := readData_eq_some hd
    rw [ignoredRegCleared_of_class hc (by decide), encode_movImmToReg, Reg.code_ofCode, Instr.wf, dataWf_eq]
    exact ⟨hwf, congrArg (· :: _) hb0⟩
  | movImmToRegMem =>
    rw [decode_movImmToRegMem tl hc] at h
    obtain ⟨o, data, mid, rfl, hwf, hdwf, rfl⟩ := decodeMovImmToRegMem_eq_ok h
    rw [List.append_assoc, ignoredRegCleared_encode hc, ← List.append_assoc, Instr.wf, dataWf_eq, hwf, hdwf]
    exact ⟨rfl, congrArg (· :: _) hb0⟩
  | jmp j =>
    rw [decode_jmp tl hc] at h
    cases tl with
    | nil => cases h
    | cons b1 tl =>
      obtain ⟨rfl, rfl⟩ : j.instr (b1.toInt + 2) = i ∧ tl = rest := by simpa [decodeJump] using h
      obtain ⟨hwf, hbyte⟩ := ipInc_of_byte b1
      rw [ignoredRegCleared_of_class hc (by simp), wf_jump, encode_jump, hbyte]
      exact ⟨hwf, congrArg (· :: _) hb0⟩

/-- Settles O1: the encoder's formats are read back, and what each format reads is its encoding. -/
theorem encodeDecodeRoundTrip : Obligations.EncodeDecodeRoundTrip := by
  unfold Obligations.EncodeDecodeRoundTrip
  exact ⟨fun i rest h => decode_encode h rest, fun bs i rest h => encode_of_decode h⟩

/-! ### How far a decoding reads -/

theorem encode_length (i : Instr) : 2 ≤ (encode i).length ∧ (encode i).length ≤ 6 := by
  induction i using Instr.byFormat with
  | movRm d w reg rm => exact Laws.EncodeLength.movRegMemToReg d w reg rm
  | movImmRm w rm data => exact Laws.EncodeLength.movImmToRegMem w rm data
  | movImmReg w reg data => exact Laws.EncodeLength.movImmToReg w reg data
  | memToAcc w addr => exact Laws.EncodeLength.movMemToAcc w addr
  | accToMem w addr => exact Laws.EncodeLength.movAccToMem w addr
  | aluRm op d w reg rm =>
    have hrm := Laws.EncodeLength.rm_length rm reg.code
    rw [encode_rmInstr, List.length_cons]
    omega
  | aluGroup op s w rm data =>
    have hrm := Laws.EncodeLength.rm_length rm op.groupCode
    have hdata := Laws.EncodeLength.data_length w s data
    rw [encode_groupInstr, List.length_append, List.length_cons]
    omega
  | aluAcc op w data =>
    have hdata := Laws.EncodeLength.data_length w false data
    rw [encode_accInstr, List.length_cons]
    omega
  | jump j k => simp

@[simp] theorem length_ignoredRegCleared (bs : List Byte) : (ignoredRegCleared bs).length = bs.length := by
  unfold ignoredRegCleared
  split
  · split <;> rfl
  · rfl

/-- The ignored field is in the second byte. -/
theorem drop_ignoredRegCleared (bs : List Byte) {n : Nat} (h : 2 ≤ n) :
    (ignoredRegCleared bs).drop n = bs.drop n := by
  obtain ⟨n, rfl⟩ := Nat.exists_eq_add_of_le' h
  unfold ignoredRegCleared
  split
  · split <;> rfl
  · rfl

/-- What a decoding leaves is what follows the instruction's bytes (30_encoding.md R100, R121). -/
theorem decode_rest {bs rest : List Byte} {i : Instr} (h : decode bs = .ok i rest) :
    bs.drop (encode i).length = rest ∧ bs.length = (encode i).length + rest.length := by
  obtain ⟨-, he⟩ := encode_of_decode h
  constructor
  · rw [← drop_ignoredRegCleared bs (encode_length i).1, ← he, List.drop_left]
  · rw [← length_ignoredRegCleared bs, ← he, List.length_append]

/-- Settles O6: the bytes taken are as many as the encoding has. -/
theorem decodedLengthTwoToSix : Obligations.DecodedLengthTwoToSix := by
  unfold Obligations.DecodedLengthTwoToSix
  intro bs i rest h
  obtain ⟨hdrop, hlen⟩ := decode_rest h
  have htake : (bs.take (encode i).length).length = (encode i).length := List.length_take_of_le (by omega)
  refine ⟨bs.take (encode i).length, ?_, by rw [htake]; exact encode_length i⟩
  rw [← hdrop, List.take_append_drop]

/-! ### The ignored field -/

/-- After 0xC6 and 0xC7 the decoder looks at `mod` and `r/m` only (30_encoding.md R118). -/
theorem decode_movImm_congr {b0 m m' : Byte} (hb : b0 = 0xC6 ∨ b0 = 0xC7) (hmod : modOf m = modOf m')
    (hrm : rmOf m = rmOf m') (tl : List Byte) : decode (b0 :: m :: tl) = decode (b0 :: m' :: tl) := by
  have hc := (classify_eq_movImmToRegMem b0).2 hb
  rw [decode_movImmToRegMem _ hc, decode_movImmToRegMem _ hc]
  simp only [decodeMovImmToRegMem, decodeRmData, hmod, hrm]

/-- Settles O8: `decodeMovImmToRegMem` reads no `reg` field, answers no malformed opcode and makes one kind. -/
theorem movImmIgnoresRegField : Obligations.MovImmIgnoresRegField := by
  unfold Obligations.MovImmIgnoresRegField
  intro b0 m m' tl hb hmod hrm
  have hc := (classify_eq_movImmToRegMem b0).2 hb
  refine ⟨decode_movImm_congr hb hmod hrm tl, ?_⟩
  rw [decode_movImmToRegMem _ hc]
  refine ⟨fun n => ofFields_ne_malformed _ n, fun i rest h => ?_⟩
  obtain ⟨o, data, mid, rfl, -⟩ := decodeMovImmToRegMem_eq_ok h
  exact ⟨_, o, data, rfl⟩

theorem decode_ignoredRegCleared (bs : List Byte) : decode (ignoredRegCleared bs) = decode bs := by
  match bs with
  | [] => rfl
  | [_] => rfl
  | b0 :: m :: tl =>
    by_cases hb : b0 = 0xC6 ∨ b0 = 0xC7
    · have hm : m &&& 0xC7 = modRm (modOf m) 0 (rmOf m) := by rw [← and_modRm _ (regOf m), modRm_of_fields]
      rw [ignoredRegCleared, if_pos hb]
      exact decode_movImm_congr hb (by rw [hm, modOf_modRm]) (by rw [hm, rmOf_modRm]) tl
    · rw [ignoredRegCleared, if_neg hb]

/-! ### More bytes, and fewer -/

theorem ignoredRegCleared_append {bs : List Byte} (h : 2 ≤ bs.length) (ext : List Byte) :
    ignoredRegCleared (bs ++ ext) = ignoredRegCleared bs ++ ext := by
  match bs, h with
  | b0 :: m :: tl, _ =>
    simp only [List.cons_append, ignoredRegCleared]
    split <;> rfl

/-- A decoding that succeeds is the same whatever follows its bytes (30_encoding.md R121). -/
theorem decode_append {bs rest : List Byte} {i : Instr} (h : decode bs = .ok i rest) (ext : List Byte) :
    decode (bs ++ ext) = .ok i (rest ++ ext) := by
  obtain ⟨hwf, he⟩ := encode_of_decode h
  have hlen : 2 ≤ bs.length := by have := (decode_rest h).2; have := encode_length i; omega
  rw [← decode_ignoredRegCleared, ignoredRegCleared_append hlen, ← he, List.append_assoc]
  exact decode_encode hwf _

/-- Settles O5: the bytes are an encoding up to the ignored field, and an encoding is read back whatever follows. -/
theorem decodeReadsOnlyItsBytes : Obligations.DecodeReadsOnlyItsBytes := by
  unfold Obligations.DecodeReadsOnlyItsBytes
  exact fun bs ext i rest h => decode_append h ext

/-! ### Malformed opcodes -/

theorem decodeGroup_eq_malformed (b0 : Byte) (tl : List Byte) (n : Nat) :
    decodeGroup b0 tl = .malformed n ↔
      n = 2 ∧ ∃ m rest, tl = m :: rest ∧ malformedGroupReg (regOf m) = true := by
  cases tl with
  | nil => simp [decodeGroup]
  | cons m tl =>
    cases hop : groupOp (regOf m) with
    | none => simpa [decodeGroup, hop, (groupOp_eq_none _).1 hop] using eq_comm
    | some op => simp [decodeGroup, hop, ← groupOp_eq_none]

/-- The formats without a `reg` field to check end in no malformed opcode (60_exceptions.md R331). -/
theorem decode_ne_malformed {b0 : Byte} {c : OpClass} (hc : classify b0 = some c) (h : c ≠ .group) (tl : List Byte)
    (n : Nat) : decode (b0 :: tl) ≠ .malformed n := by
  cases c with
  | rmMov => rw [decode_rmMov tl hc]; cases tl <;> simp [decodeRmFormat]
  | rmAlu op => rw [decode_rmAlu tl hc]; cases tl <;> simp [decodeRmFormat]
  | accImm op => rw [decode_accImm tl hc]; exact ofFields_ne_malformed _ n
  | group => exact absurd rfl h
  | movMemToAcc => rw [decode_movMemToAcc tl hc]; exact ofFields_ne_malformed _ n
  | movAccToMem => rw [decode_movAccToMem tl hc]; exact ofFields_ne_malformed _ n
  | movImmToReg => rw [decode_movImmToReg tl hc]; exact ofFields_ne_malformed _ n
  | movImmToRegMem => rw [decode_movImmToRegMem tl hc]; cases tl <;> simp [decodeMovImmToRegMem]
  | jmp j => rw [decode_jmp tl hc]; cases tl <;> simp [decodeJump]

/-- Settles O3: the map leaves a first byte out, or the group's `reg` field names no operation. -/
theorem malformedOpcodeCauses : Obligations.MalformedOpcodeCauses := by
  unfold Obligations.MalformedOpcodeCauses
  intro b0 tl n
  rw [← classify_eq_none, ← and_assoc (a := 0x80 ≤ b0.toNat), ← classify_eq_group]
  obtain hc | ⟨c, hc⟩ := (classify b0).eq_none_or_eq_some
  · simpa [decode_unclassified tl hc, hc] using eq_comm
  · by_cases hg : c = .group
    · subst hg
      simp [decode_group tl hc, hc, decodeGroup_eq_malformed]
    · simp [decode_ne_malformed hc hg, hc, hg]

/-- Bytes after the ones that made an opcode malformed do not change that (60_exceptions.md R331). -/
theorem decode_append_malformed {bs : List Byte} {n : Nat} (h : decode bs = .malformed n) (ext : List Byte) :
    decode (bs ++ ext) = .malformed n := by
  cases bs with
  | nil => cases h
  | cons b0 tl =>
    refine (malformedOpcodeCauses b0 (tl ++ ext) n).2 (((malformedOpcodeCauses b0 tl n).1 h).imp_right ?_)
    rintro ⟨hn, hlo, hhi, m, rest, rfl, hm⟩
    exact ⟨hn, hlo, hhi, m, rest ++ ext, rfl, hm⟩

/-- Settles O4: were a proper front of an encoding to decode or to be malformed, so would the whole, with bytes
left over. -/
theorem cutInstructionIsTruncated : Obligations.CutInstructionIsTruncated := by
  unfold Obligations.CutInstructionIsTruncated
  rintro i p hwf ⟨ext, hext⟩ hne
  have hwhole : decode (p ++ ext) = .ok i [] := by rw [hext]; simpa using decode_encode hwf []
  cases hp : decode p with
  | truncated => rfl
  | malformed n =>
    rw [decode_append_malformed hp] at hwhole
    cases hwhole
  | ok i' rest =>
    obtain ⟨-, hrest⟩ : i' = i ∧ rest ++ ext = [] := by simpa [decode_append hp] using hwhole
    exact absurd (by simpa [List.append_eq_nil_iff.1 hrest] using hext) hne

/-- Settles O9, by evaluating the decoder on the nine words. -/
theorem sampleEncodingsDecode : Obligations.SampleEncodingsDecode := by
  unfold Obligations.SampleEncodingsDecode
  decide

end Sys2Proof
end

section
/-!
PROOFS. What an instruction does, part by part (O29, O45, O46, O49, O51 to O57): for each part of the state one lemma
read off the inversion `exec_cases`, and the frames that follow.
-/

namespace Sys2Proof.Machine

/-! ### Reads and writes of one instruction -/

/-- The value `ReadOp` gives for a source (40_execute.md R204). -/
def sourceValue (w : Width) (src : Source) (s : State) : BitVec w.bits :=
  match src with
  | .place p => placeValue w p s
  | .imm data => data.setWidth w.bits

/-- The events of a source read. -/
def sourceReads (w : Width) (src : Source) (s : State) : List Event :=
  match src with
  | .place p => placeReads w p s
  | .imm _ => []

@[simp] theorem readSource_value (w : Width) (src : Source) (s : State) :
    (readSource w src s).1 = sourceValue w src s := by
  cases src with
  | place p => exact readPlace_value w p s
  | imm data => rfl

/-- Two accesses in a row, of which only the last one writes. -/
theorem Accessed.trans {rs rs' ws : List Event} {s t u : State} (h : Accessed rs [] s t) (h' : Accessed rs' ws t u)
    (hp : t.params = s.params) : Accessed (rs ++ rs') ws s u := by
  obtain ⟨he, hd⟩ := h
  obtain ⟨he', hd'⟩ := h'
  refine ⟨by simp [he', he], ?_⟩
  rw [hd', hd, hp]
  split
  · rw [List.length_append, Nat.add_assoc]
  · rfl

theorem readSource_accessed (w : Width) (src : Source) (s : State) :
    Accessed (sourceReads w src s) [] s (readSource w src s).2 := by
  cases src with
  | place p => exact readPlace_accessed w p s
  | imm data => exact ⟨by simp [sourceReads], by simp [sourceReads]⟩

/-- A place write with the registers and the `pc` of `s` is an access whose events are those `s` gives. -/
theorem writePlace_accessed (w : Width) (p : Place) (v : BitVec w.bits) {s t : State} (hr : t.regs = s.regs)
    (hpc : t.pc = s.pc) : Accessed [] (placeWrites w p v s) t (writePlace w p v t) :=
  ⟨by simp [placeWrites_congr w p v hr hpc], by simp⟩

/-- An operand outside memory is read without an event and without a change of state. -/
theorem readPlace_of_no_addr {p : Place} {s : State} (h : placeAddr p s = none) (w : Width) (t : State) :
    (readPlace w p t).2 = t ∧ placeReads w p t = [] := by
  cases p with
  | reg r => exact ⟨rfl, rfl⟩
  | mem b disp => cases h
  | direct a => cases h

/-- A source outside memory reads alike in two states with the same registers, without an event. -/
theorem readSource_of_no_addr {src : Source} {s t : State} (h : ∀ p, src = .place p → placeAddr p s = none)
    (hr : t.regs = s.regs) (w : Width) :
    sourceValue w src t = sourceValue w src s ∧ sourceReads w src t = [] := by
  cases src with
  | imm data => exact ⟨rfl, rfl⟩
  | place p =>
    cases p with
    | reg r => exact ⟨regRead_congr w r hr, rfl⟩
    | mem b disp => cases h _ rfl
    | direct a => cases h _ rfl

section
variable {w : Width} {dst : Place} {src : Source} {s : State}

/-- Where at most one operand is in memory, reading the destination first changes nothing for the source. -/
theorem sourceRead_after_dst (hone : placeAddr dst s = none ∨ ∀ p, src = .place p → placeAddr p s = none) :
    sourceValue w src (readPlace w dst s).2 = sourceValue w src s ∧
      sourceReads w src (readPlace w dst s).2 = sourceReads w src s := by
  rcases hone with hdst | hsrc
  · rw [(readPlace_of_no_addr hdst w s).1]
    exact ⟨rfl, rfl⟩
  · obtain ⟨hv, he⟩ := readSource_of_no_addr hsrc (readPlace_regs w dst s) w
    exact ⟨hv, he.trans (readSource_of_no_addr hsrc rfl w).2.symm⟩

/-- The accesses of a `mov` that runs: its source's read, then its destination's write (41_mov.md R220 to R224). -/
theorem mov_accessed : Accessed (sourceReads w src s) (placeWrites w dst (sourceValue w src s) s) s
    (advance (writePlace w dst (readSource w src s).1 (readSource w src s).2)) := by
  have h := (readSource_accessed w src s).trans (writePlace_accessed w dst (readSource w src s).1
    (readSource_regs w src s) (readSource_pc w src s)) (readSource_params w src s)
  simp only [List.append_nil, readSource_value] at h ⊢
  exact h

@[simp] theorem aluBefore_regs (op : AluOp) : (aluBefore op w dst src s).regs = s.regs := by simp [aluBefore]

@[simp] theorem aluBefore_pc (op : AluOp) : (aluBefore op w dst src s).pc = s.pc := by simp [aluBefore]

@[simp] theorem aluBefore_cur (op : AluOp) : (aluBefore op w dst src s).cur = s.cur := by simp [aluBefore]

@[simp] theorem aluBefore_mem (op : AluOp) : (aluBefore op w dst src s).mem = s.mem := by simp [aluBefore]

@[simp] theorem aluBefore_records (op : AluOp) : (aluBefore op w dst src s).records = s.records := by simp [aluBefore]

@[simp] theorem aluBefore_lines (op : AluOp) : (aluBefore op w dst src s).lines = s.lines := by simp [aluBefore]

/-- The flags of an ALU instruction are those of its operands and its result (42_arith.md R240). -/
@[simp] theorem aluBefore_flags (op : AluOp) : (aluBefore op w dst src s).flags =
    aluFlags s.params.flagModel op (placeValue w dst s) (readSource w src (readPlace w dst s).2).1
      (aluValue op w dst src s) s.flags := rfl

theorem aluValue_eq (op : AluOp) (hone : placeAddr dst s = none ∨ ∀ p, src = .place p → placeAddr p s = none) :
    aluValue op w dst src s = aluResult op (placeValue w dst s) (sourceValue w src s) := by
  rw [aluValue, readSource_value, (sourceRead_after_dst hone).1]

/-- The accesses of an ALU instruction that runs: its operands' reads, then a write of its result but for `cmp`
(42_arith.md R245 to R253). -/
theorem arith_accessed (op : AluOp) (hone : placeAddr dst s = none ∨ ∀ p, src = .place p → placeAddr p s = none) :
    Accessed (placeReads w dst s ++ sourceReads w src s)
      (if writesResult op then placeWrites w dst (aluValue op w dst src s) s else []) s
      (advance (if writesResult op then writePlace w dst (aluValue op w dst src s) (aluBefore op w dst src s)
        else aluBefore op w dst src s)) := by
  have hreads : Accessed (placeReads w dst s ++ sourceReads w src s) [] s (aluBefore op w dst src s) := by
    rw [← (sourceRead_after_dst hone).2]
    exact (readPlace_accessed w dst s).trans (readSource_accessed w src _) (readPlace_params w dst s)
  cases writesResult op with
  | false => exact hreads
  | true =>
    have hwrite := writePlace_accessed w dst (aluValue op w dst src s) (t := aluBefore op w dst src s) (s := s)
      (by simp) (by simp)
    have h := hreads.trans hwrite (by simp)
    rw [List.append_nil] at h
    exact h

end

/-! ### A jump's own writes -/

/-- A jump under `taken` writes CX in a loop and no other register (43_jumps.md R309 to R312). -/
theorem jumpDone_reg (j : JumpOp) (s : State) :
    (jumpDone j s).reg .cx = cxAfter j s ∧ ∀ r, r ≠ .cx → (jumpDone j s).reg r = s.reg r := by
  unfold jumpDone cxAfter
  split
  · exact ⟨setReg_reg_same .., fun r hr => setReg_reg_ne _ _ _ _ hr⟩
  · exact ⟨rfl, fun r _ => rfl⟩

/-- The register file is all that a jump's own writes change. -/
theorem jumpDone_eq (j : JumpOp) (s : State) : jumpDone j s = { s with regs := (jumpDone j s).regs } := by
  unfold jumpDone
  split <;> rfl

@[simp] theorem jumpDone_flags (j : JumpOp) (s : State) : (jumpDone j s).flags = s.flags := by rw [jumpDone_eq]

@[simp] theorem jumpDone_cur (j : JumpOp) (s : State) : (jumpDone j s).cur = s.cur := by rw [jumpDone_eq]

@[simp] theorem jumpDone_mem (j : JumpOp) (s : State) : (jumpDone j s).mem = s.mem := by rw [jumpDone_eq]

@[simp] theorem jumpDone_records (j : JumpOp) (s : State) : (jumpDone j s).records = s.records := by rw [jumpDone_eq]

@[simp] theorem jumpDone_lines (j : JumpOp) (s : State) : (jumpDone j s).lines = s.lines := by rw [jumpDone_eq]

@[simp] theorem jumpDone_events (j : JumpOp) (s : State) : (jumpDone j s).events = s.events := by rw [jumpDone_eq]

@[simp] theorem jumpDone_draws (j : JumpOp) (s : State) : (jumpDone j s).draws = s.draws := by rw [jumpDone_eq]

/-! ### A jump among the instructions -/

section
variable {i : Instr} {j : JumpOp} {k : Int}

theorem isAlu_jump (h : i = j.instr k) : isAlu i = false := by
  obtain ⟨halu, -, -, -⟩ := jump_static h
  exact halu

theorem destination_jump (h : i = j.instr k) : destination i = none := by
  obtain ⟨-, hdst, -, -⟩ := jump_static h
  exact hdst

theorem refusedIn_jump (h : i = j.instr k) (s : State) : refusedIn i s = false := by
  obtain ⟨-, -, -, href⟩ := jump_static h
  exact href s

end

/-! ### The run state -/

/-- The inversion of `exec` for the run state: a refused byte register, a branch out of the buffer, or no change. -/
inductive ExecRun (i : Instr) (s t : State) : Prop where
  | refused (href : refusedIn i s = true) (ht : t = fail .unmodelledReg8High s.pc.toNat s)
  | outOfBuffer (j : JumpOp) (k : Int) (hi : i = j.instr k) (hb : s.params.branch = .taken) (hc : jumpCond j s = true)
      (hin : targetInBuffer k s = false) (ht : t = fail .branchOutOfBuffer s.pc.toNat s)
  | kept (href : refusedIn i s = false) (hrun : t.run = s.run)

theorem exec_run {i : Instr} {s t : State} (h : exec i s = .next t) : ExecRun i s t := by
  cases exec_cases h with
  | refused href ht => exact .refused href ht
  | outOfBuffer j k hi hb hc hin ht => exact .outOfBuffer j k hi hb hc hin ht
  | moved w dst src href hdst halu hloop hrep hone ht => exact .kept href (by simp [ht])
  | computed op w dst src href hdst halu hloop hrep hone ht =>
    exact .kept href (by cases hw : writesResult op <;> simp [ht, hw])
  | linear j k hi hb ht => exact .kept (refusedIn_jump hi s) (by simp [ht])
  | fellThrough j k hi hb hc ht => exact .kept (refusedIn_jump hi s) (by simp [ht])
  | jumped j k hi hb hc hin ht => exact .kept (refusedIn_jump hi s) (by simp [ht])

/-- A refused instruction enters the error and does nothing else (40_execute.md R208). -/
theorem exec_of_refusedIn {i : Instr} {s : State} (h : refusedIn i s = true) :
    exec i s = .next (fail .unmodelledReg8High s.pc.toNat s) := by
  obtain ⟨t, ht⟩ := exec_answers_next i s
  cases exec_run ht with
  | refused href he => rw [ht, he]
  | outOfBuffer j k hi hb hc hin he => cases h.symm.trans (refusedIn_jump hi s)
  | kept href hrun => cases h.symm.trans href

/-- Settles O29: `exec_run` raises `Unmodelled` for a refused instruction and for no other. -/
theorem highByteRefused : Obligations.HighByteRefused := by
  unfold Obligations.HighByteRefused
  refine fun i s => ⟨fun h => exec_of_refusedIn h, fun h hdec t o ht => ?_⟩
  cases exec_run ht with
  | refused href he => cases h.symm.trans href
  | outOfBuffer j k hi hb hc hin he => simp [he]
  | kept href hrun => simp [hrun, hdec]

/-- Settles O55: the operations of an instruction keep each of the five fields, and `exec_run` gives the run state. -/
theorem controlFrame : Obligations.ControlFrame := by
  unfold Obligations.ControlFrame
  intro i s t h
  have hrun : t.run = s.run ∨ ∃ e, t.run = .failed e := by
    cases exec_run h with
    | refused href ht => exact .inr ⟨_, by rw [ht, fail_run]⟩
    | outOfBuffer j k hi hb hc hin ht => exact .inr ⟨_, by rw [ht, fail_run]⟩
    | kept href hrun => exact .inl hrun
  suffices hkept : t.cur = s.cur ∧ t.records = s.records ∧ t.lines = s.lines by
    obtain ⟨hcur, hrecords, hlines⟩ := hkept
    exact ⟨exec_params h, hcur, exec_buf h, hrecords, hlines, hrun⟩
  cases exec_cases h with
  | refused href ht => simp [ht]
  | outOfBuffer j k hi hb hc hin ht => simp [ht]
  | moved w dst src href hdst halu hloop hrep hone ht => simp [ht]
  | computed op w dst src href hdst halu hloop hrep hone ht => cases hw : writesResult op <;> simp [ht, hw]
  | linear j k hi hb ht => simp [ht]
  | fellThrough j k hi hb hc ht => simp [ht]
  | jumped j k hi hb hc hin ht => simp [ht]

/-! ### Flags -/

/-- Only the ALU writes flags (10_state.md R41). -/
theorem exec_flags {i : Instr} {s t : State} (hi : isAlu i = false) (h : exec i s = .next t) : t.flags = s.flags := by
  cases exec_cases h with
  | refused href ht => simp [ht]
  | outOfBuffer j k hi hb hc hin ht => simp [ht]
  | moved w dst src href hdst halu hloop hrep hone ht => simp [ht]
  | computed op w dst src href hdst halu hloop hrep hone ht => cases hi.symm.trans halu
  | linear j k hi hb ht => simp [ht]
  | fellThrough j k hi hb hc ht => simp [ht]
  | jumped j k hi hb hc hin ht => simp [ht]

@[simp] theorem aluFlags_legacy_o {n : Nat} (op : AluOp) (a b r : BitVec n) (f : Flags) :
    (aluFlags .legacy op a b r f).o = f.o := rfl

/-- `F.O` is not written under `legacy` (42_arith.md R243). -/
theorem exec_legacy_o {i : Instr} {s t : State} (hm : s.params.flagModel = .legacy) (h : exec i s = .next t) :
    t.flags.o = s.flags.o := by
  cases hi : isAlu i with
  | false => rw [exec_flags hi h]
  | true =>
    cases exec_cases h with
    | refused href ht => simp [ht]
    | outOfBuffer j k hj hb hc hin ht => cases hi.symm.trans (isAlu_jump hj)
    | moved w dst src href hdst halu hloop hrep hone ht => cases hi.symm.trans halu
    | computed op w dst src href hdst halu hloop hrep hone ht => cases hw : writesResult op <;> simp [ht, hw, hm]
    | linear j k hj hb ht => cases hi.symm.trans (isAlu_jump hj)
    | fellThrough j k hj hb hc ht => cases hi.symm.trans (isAlu_jump hj)
    | jumped j k hj hb hc hin ht => cases hi.symm.trans (isAlu_jump hj)

/-! ### Data memory -/

/-- A place write leaves memory alone, or stores to the operand's address, under `array64k` only
(20_memory.md R77, R78). -/
theorem writePlace_mem_cases {s t : State} (w : Width) (p : Place) (v : BitVec w.bits) (hr : t.regs = s.regs)
    (hp : t.params = s.params) (hm : t.mem = s.mem) :
    (writePlace w p v t).mem = s.mem ∨ ∃ a, placeAddr p s = some a ∧ s.params.memModel ≠ .oracle ∧
      (writePlace w p v t).mem = s.mem.store w a v := by
  rw [writePlace_mem, placeAddr_congr p hr, hp, hm]
  cases ha : placeAddr p s with
  | none => exact .inl rfl
  | some a =>
    by_cases ho : s.params.memModel = .oracle
    · exact .inl (if_pos ho)
    · exact .inr ⟨a, rfl, ho, if_neg ho⟩

/-- An instruction leaves data memory alone, or stores to the address of its destination, under `array64k` only
(20_memory.md R77, R78). -/
theorem exec_mem {i : Instr} {s t : State} (h : exec i s = .next t) :
    t.mem = s.mem ∨ ∃ w p a, ∃ v : BitVec w.bits, destination i = some (w, p) ∧ placeAddr p s = some a ∧
      s.params.memModel ≠ .oracle ∧ t.mem = s.mem.store w a v := by
  cases exec_cases h with
  | refused href ht => exact .inl (by simp [ht])
  | outOfBuffer j k hi hb hc hin ht => exact .inl (by simp [ht])
  | moved w dst src href hdst halu hloop hrep hone ht =>
    rw [ht]
    exact (writePlace_mem_cases w dst _ (readSource_regs ..) (readSource_params ..) (readSource_mem ..)).imp_right
      fun ⟨a, ha, ho, hm⟩ => ⟨w, dst, a, _, hdst, ha, ho, hm⟩
  | computed op w dst src href hdst halu hloop hrep hone ht =>
    cases hw : writesResult op with
    | false => exact .inl (by simp [ht, hw])
    | true =>
      simp only [hw, if_true] at ht hdst
      rw [ht]
      exact (writePlace_mem_cases w dst _ (aluBefore_regs op) (aluBefore_params ..) (aluBefore_mem op)).imp_right
        fun ⟨a, ha, ho, hm⟩ => ⟨w, dst, a, _, hdst, ha, ho, hm⟩
  | linear j k hi hb ht => exact .inl (by simp [ht])
  | fellThrough j k hi hb hc ht => exact .inl (by simp [ht])
  | jumped j k hi hb hc hin ht => exact .inl (by simp [ht])

/-- Under `oracle` no instruction changes the data memory (20_memory.md R77). -/
theorem exec_mem_oracle {i : Instr} {s t : State} (ho : s.params.memModel = .oracle) (h : exec i s = .next t) :
    t.mem = s.mem :=
  (exec_mem h).elim id fun ⟨_, _, _, _, _, _, hne, _⟩ => absurd ho hne

/-- An instruction keeps the canonical form of memory. -/
theorem exec_mem_wf {i : Instr} {s t : State} (hwf : s.mem.wf) (h : exec i s = .next t) : t.mem.wf := by
  obtain hm | ⟨w, p, a, v, -, -, -, hm⟩ := exec_mem h
  · rwa [hm]
  · rw [hm]
    exact Memory.store_wf hwf w a v

/-- Settles O49: `memWrite` writes memory under `array64k` only, and so does every instruction. -/
theorem oracleWriteOnlyRecords : Obligations.OracleWriteOnlyRecords := by
  unfold Obligations.OracleWriteOnlyRecords
  refine ⟨fun w addr v s ho => ?_, fun i s t ho h => exec_mem_oracle ho h⟩
  simp only [memWrite, ho]

/-- Settles O54: the bytes outside a store are those before it. -/
theorem memoryFrame : Obligations.MemoryFrame := by
  unfold Obligations.MemoryFrame
  intro i s t c h hout
  obtain hm | ⟨w, p, a, v, hd, ha, -, hm⟩ := exec_mem h
  · rw [hm]
  · rw [hm]
    exact Memory.read_store_ne _ _ _ _ _ (hout w p a hd ha)

/-! ### Registers -/

/-- The report of a step names the register that the instruction's rule writes (40_execute.md R209). -/
theorem reportedReg_eq_writtenReg (i : Instr) (s : State) : reportedReg s.params.branch i = writtenReg i s := by
  have hholder : ∀ w p, destination i = some (w, p) → writtenReg i s = placeHolder w p := by
    intro w p hd
    cases p <;> simp [writtenReg, hd, placeHolder]
  rcases exec_shape i s with ⟨w, dst, src, he, hd, ha, hl, hr, hrep, hone⟩ |
    ⟨op, w, dst, src, he, hd, ha, hl, hr, hrep, hone⟩ | ⟨j, k, rfl⟩
  · rw [hrep, hholder w dst hd]
  · rw [hrep]
    cases hw : writesResult op with
    | true => exact (hholder w dst (by simp [hd, hw])).symm
    | false => simp [writtenReg, hd, hw, hl]
  · cases hb : s.params.branch <;> cases j <;> simp [JumpOp.instr, reportedReg, reportedLoop, writtenReg, destination,
      isLoop, hb]

/-- The register that a jump reports under `taken` is the one its own writes change. -/
theorem jumpDone_reg_ne {j : JumpOp} {k : Int} {r : Reg} (s : State)
    (hr : reportedReg .taken (j.instr k) ≠ some r) : (jumpDone j s).reg r = s.reg r := by
  have hrep : reportedReg .taken (j.instr k) = if jumpIsLoop j then some .cx else none := by cases j <;> rfl
  rw [hrep] at hr
  cases hl : jumpIsLoop j with
  | true => exact (jumpDone_reg j s).2 r fun hcx => hr (by simp [hl, hcx])
  | false => simp [jumpDone, hl]

/-- An instruction leaves every register but the one it reports. -/
theorem exec_reg_ne {i : Instr} {s t : State} (h : exec i s = .next t) {r : Reg}
    (hr : reportedReg s.params.branch i ≠ some r) : t.reg r = s.reg r := by
  cases exec_cases h with
  | refused href ht => exact reg_congr (by simp [ht]) r
  | outOfBuffer j k hi hb hc hin ht => exact reg_congr (by simp [ht]) r
  | moved w dst src href hdst halu hloop hrep hone ht =>
    rw [hrep] at hr
    rw [ht, reg_congr (advance_regs _), writePlace_reg_ne _ _ _ _ _ hr]
    exact reg_congr (by simp) r
  | computed op w dst src href hdst halu hloop hrep hone ht =>
    rw [hrep] at hr
    cases hw : writesResult op with
    | false => exact reg_congr (by simp [ht, hw]) r
    | true =>
      simp only [hw, if_true] at ht hr
      rw [ht, reg_congr (advance_regs _), writePlace_reg_ne _ _ _ _ _ hr]
      exact reg_congr (by simp) r
  | linear j k hi hb ht => exact reg_congr (by simp [ht]) r
  | fellThrough j k hi hb hc ht =>
    rw [hb, hi] at hr
    rw [ht, reg_congr (advance_regs _), jumpDone_reg_ne s hr]
  | jumped j k hi hb hc hin ht =>
    rw [hb, hi] at hr
    rw [ht]
    exact jumpDone_reg_ne s hr

/-- Settles O57: the report is the written register, and `exec_reg_ne` says that no other changes. -/
theorem changedRegisterIsReported : Obligations.ChangedRegisterIsReported := by
  unfold Obligations.ChangedRegisterIsReported
  exact fun i s => ⟨reportedReg_eq_writtenReg i s, fun t r h hne => by_contra fun hr => hne (exec_reg_ne h hr)⟩

/-- An instruction that is not refused and has a register destination leaves the register file that a register write
leaves (40_execute.md R205). -/
theorem exec_regs_of_destination {i : Instr} {s t : State} {w : Width} {q : Reg} (h : exec i s = .next t)
    (hd : destination i = some (w, .reg q)) (href : refusedIn i s = false) :
    ∃ v, t.regs = (regWrite w q v s).regs := by
  have hjump : ∀ {j k}, i = JumpOp.instr j k → False := fun hi => by simp [destination_jump hi] at hd
  cases exec_cases h with
  | refused hr ht => cases hr.symm.trans href
  | outOfBuffer j k hi hb hc hin ht => exact (hjump hi).elim
  | moved w' dst src hr hdst halu hloop hrep hone ht =>
    obtain ⟨rfl, rfl⟩ : w' = w ∧ dst = .reg q := by simpa [hdst] using hd
    exact ⟨_, by rw [ht]; exact regWrite_regs_congr _ q _ (readSource_regs ..) (readSource_params ..)⟩
  | computed op w' dst src hr hdst halu hloop hrep hone ht =>
    cases hw : writesResult op with
    | false => simp [hdst, hw] at hd
    | true =>
      obtain ⟨rfl, rfl⟩ : w' = w ∧ dst = .reg q := by simpa [hdst, hw] using hd
      simp only [hw, if_true] at ht
      exact ⟨_, by rw [ht]; exact regWrite_regs_congr _ q _ (aluBefore_regs op) (aluBefore_params ..)⟩
  | linear j k hi hb ht => exact (hjump hi).elim
  | fellThrough j k hi hb hc ht => exact (hjump hi).elim
  | jumped j k hi hb hc hin ht => exact (hjump hi).elim

/-! ### Halves of a register -/

theorem toNat_append_byte (h l : Byte) : (h ++ l : Word).toNat = h.toNat * 256 + l.toNat := by
  rw [BitVec.toNat_append, Nat.shiftLeft_eq, Nat.mul_comm, ← Nat.two_pow_add_eq_or_of_lt l.isLt, Nat.mul_comm]

theorem toNat_lowByte (v : Word) : (lowByte v).toNat = v.toNat % 256 := by
  simp [lowByte]

theorem toNat_highByte (v : Word) : (highByte v).toNat = v.toNat / 256 := by
  have := v.isLt
  simp only [highByte, BitVec.extractLsb'_toNat, Nat.shiftRight_eq_div_pow]
  omega

/-- The written register after a byte write, in numbers (10_state.md R34, R35). -/
theorem regWrite_byte_holder (q : Reg) (v : Byte) (s : State) :
    let old := (s.reg (regHolder .byte q)).toNat
    let new := ((regWrite .byte q v s).reg (regHolder .byte q)).toNat
    (s.params.reg8 = .i8086 → highCode q = false → new = old / 256 * 256 + v.toNat) ∧
    (s.params.reg8 = .i8086 → highCode q = true → new = v.toNat * 256 + old % 256) ∧
    (s.params.reg8 = .legacy → highCode q = false → new = v.toNat) := by
  have hset (x : Word) : (s.setReg (byteHolder (byteReg q)) x).reg (byteHolder (byteReg q)) = x := setReg_reg_same ..
  simp only [highCode_eq, regHolder, regWrite]
  refine ⟨fun hm hb => ?_, fun hm hb => ?_, fun hm hb => ?_⟩
  · rw [writeByteReg_i8086 hm, hb, hset, if_neg (by decide), toNat_append_byte, toNat_highByte]
  · rw [writeByteReg_i8086 hm, hb, hset, if_pos rfl, toNat_append_byte, toNat_lowByte]
  · rw [writeByteReg_legacy hm q v hb, hset]
    exact BitVec.toNat_setWidth_of_le (by decide)

/-- A byte read, in numbers (10_state.md R34, R35). -/
theorem regRead_byte_toNat (q : Reg) (s : State) :
    (regRead .byte q s).toNat =
      if highCode q then (s.reg (regHolder .byte q)).toNat / 256 else (s.reg (regHolder .byte q)).toNat % 256 := by
  show (readByteReg q s).toNat = _
  rw [highCode_eq, readByteReg, apply_ite BitVec.toNat, toNat_highByte, toNat_lowByte]
  rfl

/-- Settles O46: a byte write replaces the register, and a byte read takes the low byte. -/
theorem legacyByteWriteReplaces : Obligations.LegacyByteWriteReplaces := by
  unfold Obligations.LegacyByteWriteReplaces
  intro r v s hm hr
  obtain ⟨hlow, hholder⟩ : highCode r = false ∧ regHolder .byte r = r := by
    rcases hr with rfl | rfl | rfl | rfl <;> exact ⟨rfl, rfl⟩
  obtain ⟨-, -, hwrite⟩ := regWrite_byte_holder r v s
  replace hwrite := hwrite hm hlow
  have hread := regRead_byte_toNat r s
  rw [hholder] at hwrite hread
  exact ⟨hwrite, fun q hq => regWrite_reg_ne _ _ _ _ _ (hholder.symm ▸ hq), by rw [hread, hlow]; rfl⟩

/-- Settles O45: the codes of the two halves of a register have that register as holder, one low and one high. -/
theorem byteRegistersAliasHalves : Obligations.ByteRegistersAliasHalves := by
  unfold Obligations.ByteRegistersAliasHalves
  intro s v hm halves
  have hhalves : ∀ x hi, regHolder .byte x = x → regHolder .byte hi = x → highCode x = false → highCode hi = true →
      halves x hi := by
    intro x hi hx hhi hlow hhigh
    obtain ⟨hwx, -, -⟩ := regWrite_byte_holder x v s
    obtain ⟨-, hwhi, -⟩ := regWrite_byte_holder hi v s
    replace hwx := hwx hm hlow
    replace hwhi := hwhi hm hhigh
    rw [hx] at hwx
    rw [hhi] at hwhi
    exact ⟨by rw [regRead_byte_toNat, hx, hlow]; rfl, by rw [regRead_byte_toNat, hhi, hhigh]; rfl, hwx, hwhi,
      fun q hq => ⟨regWrite_reg_ne _ _ _ _ _ (hx.symm ▸ hq), regWrite_reg_ne _ _ _ _ _ (hhi.symm ▸ hq)⟩⟩
  exact ⟨hhalves _ _ rfl rfl rfl rfl, hhalves _ _ rfl rfl rfl rfl, hhalves _ _ rfl rfl rfl rfl,
    hhalves _ _ rfl rfl rfl rfl⟩

/-- An instruction that is not refused has no refused register as its destination (40_execute.md R208). -/
theorem regRefused_of_destination {i : Instr} {s : State} {w : Width} {q : Reg} (hd : destination i = some (w, .reg q))
    (href : refusedIn i s = false) : regRefused w q s = false := by
  rcases exec_shape i s with ⟨w', dst, src, -, hdst, -, -, hr, -, -⟩ | ⟨op, w', dst, src, -, hdst, -, -, hr, -, -⟩ |
    ⟨j, k, hi⟩
  · obtain ⟨rfl, rfl⟩ : w' = w ∧ dst = .reg q := by simpa [hdst] using hd
    exact (Bool.or_eq_false_iff.1 (hr.trans href)).1
  · cases hw : writesResult op with
    | false => simp [hdst, hw] at hd
    | true =>
      obtain ⟨rfl, rfl⟩ : w' = w ∧ dst = .reg q := by simpa [hdst, hw] using hd
      exact (Bool.or_eq_false_iff.1 (hr.trans href)).1
  · simp [destination_jump hi] at hd

/-- Settles O52: `exec_reg_ne` for the other registers; the halves of a byte destination are those of a byte write. -/
theorem registerFrame : Obligations.RegisterFrame := by
  unfold Obligations.RegisterFrame
  intro i s t h
  constructor
  · intro r hdst hloop
    refine exec_reg_ne h ?_
    rw [reportedReg_eq_writtenReg]
    unfold writtenReg
    split
    · rename_i w q hd
      exact fun hr => hdst w q hd (Option.some.inj hr).symm
    · simp
    · simp
    · split
      · rename_i hl
        exact fun hr => hloop hl.1 hl.2 (Option.some.inj hr).symm
      · simp
  · intro q hd
    cases href : refusedIn i s with
    | true =>
      obtain rfl : fail .unmodelledReg8High s.pc.toNat s = t := by simpa [exec_of_refusedIn href] using h
      exact ⟨fun _ _ => rfl, fun _ _ => rfl, fun _ hne => by cases hne⟩
    | false =>
      obtain ⟨v, hv⟩ := exec_regs_of_destination h hd href
      obtain ⟨hlow, hhigh, hlegacy⟩ := regWrite_byte_holder q v s
      have hvlt : v.toNat < 256 := v.isLt
      rw [reg_congr hv]
      refine ⟨fun hm hb => ?_, fun hm hb => ?_, fun hm _ => ?_⟩
      · rw [hlow hm hb]
        omega
      · rw [hhigh hm hb]
        omega
      · have hb : highCode q = false := by
          simpa [regRefused_eq, hm] using regRefused_of_destination hd href
        rw [hlegacy hm hb]
        omega

/-! ### The instruction pointer -/

/-- Settles O56: every instruction that is no jump, and is not refused, ends in `advance`. -/
theorem nonJumpFollowsCursor : Obligations.NonJumpFollowsCursor := by
  unfold Obligations.NonJumpFollowsCursor
  intro i s t hi href h
  cases exec_cases h with
  | refused hr ht => cases hr.symm.trans href
  | outOfBuffer j k hj hb hc hin ht => exact absurd hj (hi j k)
  | moved w dst src hr hdst halu hloop hrep hone ht => simp [ht]
  | computed op w dst src hr hdst halu hloop hrep hone ht => cases hw : writesResult op <;> simp [ht, hw]
  | linear j k hj hb ht => exact absurd hj (hi j k)
  | fellThrough j k hj hb hc ht => exact absurd hj (hi j k)
  | jumped j k hj hb hc hin ht => exact absurd hj (hi j k)

/-! ### Data accesses -/

/-- At most one read, then at most one write, both of width `w` at one address (20_memory.md R81). -/
def SingleAccess (rs ws : List Event) : Prop :=
  ∃ w a, rs.length ≤ 1 ∧ ws.length ≤ 1 ∧ (∀ e ∈ rs, ∃ p v, e = .read p a w v) ∧ ∀ e ∈ ws, ∃ q y, e = .write q a w y

theorem singleAccess_nil : SingleAccess [] [] := ⟨.byte, 0, by simp, by simp, by simp, by simp⟩

/-- One place read, and no write elsewhere, is a single access; so is one place written. -/
theorem singleAccess_place (w : Width) (p : Place) (v : BitVec w.bits) (s : State) (rs ws : List Event)
    (hrs : rs = [] ∨ rs = placeReads w p s) (hws : ws = [] ∨ ws = placeWrites w p v s) : SingleAccess rs ws := by
  cases ha : placeAddr p s with
  | none =>
    have hr : placeReads w p s = [] := by simp [placeReads, ha]
    have hw : placeWrites w p v s = [] := by simp [placeWrites, ha]
    obtain rfl : rs = [] := by simpa [hr] using hrs
    obtain rfl : ws = [] := by simpa [hw] using hws
    exact singleAccess_nil
  | some a =>
    have hr : placeReads w p s = [.read s.pc.toNat a w ((memValue w a s).setWidth 16)] := by simp [placeReads, ha]
    have hw : placeWrites w p v s = [.write s.pc.toNat a w (v.setWidth 16)] := by simp [placeWrites, ha]
    rw [hr] at hrs
    rw [hw] at hws
    refine ⟨w, a, ?_, ?_, ?_, ?_⟩
    · rcases hrs with rfl | rfl <;> simp
    · rcases hws with rfl | rfl <;> simp
    · rcases hrs with rfl | rfl <;> simp
    · rcases hws with rfl | rfl <;> simp

/-- Where at most one operand is in memory, its read and its write are a single access. -/
theorem singleAccess_operands {w : Width} {dst : Place} {src : Source} {s : State} (v : BitVec w.bits)
    (hone : placeAddr dst s = none ∨ ∀ p, src = .place p → placeAddr p s = none) {rs ws : List Event}
    (hrs : rs = sourceReads w src s ∨ rs = placeReads w dst s ++ sourceReads w src s)
    (hws : ws = [] ∨ ws = placeWrites w dst v s) : SingleAccess rs ws := by
  rcases hone with hdst | hsrc
  · obtain ⟨p, hp⟩ : ∃ p, sourceReads w src s = placeReads w p s := by
      cases src with
      | place p => exact ⟨p, rfl⟩
      | imm data => exact ⟨.reg .ax, rfl⟩
    have hw : placeWrites w dst v s = [] := by simp [placeWrites, hdst]
    rw [(readPlace_of_no_addr hdst w s).2, List.nil_append, or_self, hp] at hrs
    rw [hw, or_self] at hws
    exact singleAccess_place w p v s rs ws (.inr hrs) (.inl hws)
  · rw [(readSource_of_no_addr hsrc rfl w).2, List.append_nil] at hrs
    exact singleAccess_place w dst v s rs ws hrs hws

/-- The data accesses of every instruction (20_memory.md R81). -/
theorem exec_accessed {i : Instr} {s t : State} (h : exec i s = .next t) :
    ∃ rs ws, Accessed rs ws s t ∧ SingleAccess rs ws := by
  have hnone : t.events = s.events → t.draws = s.draws → ∃ rs ws, Accessed rs ws s t ∧ SingleAccess rs ws :=
    fun he hd => ⟨[], [], ⟨by simp [he], by simp [hd]⟩, singleAccess_nil⟩
  cases exec_cases h with
  | refused href ht => exact hnone (by simp [ht]) (by simp [ht])
  | outOfBuffer j k hi hb hc hin ht => exact hnone (by simp [ht]) (by simp [ht])
  | moved w dst src href hdst halu hloop hrep hone ht =>
    exact ⟨_, _, ht ▸ mov_accessed, singleAccess_operands _ hone (.inl rfl) (.inr rfl)⟩
  | computed op w dst src href hdst halu hloop hrep hone ht =>
    refine ⟨_, _, ht ▸ arith_accessed op hone, singleAccess_operands (aluValue op w dst src s) hone (.inr rfl) ?_⟩
    cases writesResult op with
    | true => exact .inr rfl
    | false => exact .inl rfl
  | linear j k hi hb ht => exact hnone (by simp [ht]) (by simp [ht])
  | fellThrough j k hi hb hc ht => exact hnone (by simp [ht]) (by simp [ht])
  | jumped j k hi hb hc hin ht => exact hnone (by simp [ht]) (by simp [ht])

/-! ### Decode-only steps -/

/-- A decode-only step touches no register, flag or memory and records no access (40_execute.md R202). -/
theorem decodeOnly_step_frame {s t : State} (he : s.params.execute = false) (h : step s = .next t) :
    t.regs = s.regs ∧ t.flags = s.flags ∧ t.mem = s.mem ∧ t.events = s.events := by
  obtain ⟨-, hc⟩ := step_cases h
  cases hc with
  | malformed n hd ht => simp [ht]
  | truncated hd ht => simp [ht]
  | executed i rest u hd he' hu ht => cases he.symm.trans he'
  | listed i rest hd he' ht => simp [ht, decodedState]

/-- Settles O51: the single access of each instruction, and none in decode-only mode. -/
theorem oneReadThenOneWrite : Obligations.OneReadThenOneWrite := by
  unfold Obligations.OneReadThenOneWrite
  constructor
  · intro i s t h
    obtain ⟨rs, ws, ⟨hevents, hdraws⟩, w, a, hrs, hws, hread, hwrite⟩ := exec_accessed h
    refine ⟨rs, ws, hevents, hrs, hws, ?_, ?_, hdraws, ?_⟩
    · intro e he
      obtain ⟨p, v, rfl⟩ := hread e he
      rfl
    · intro e he
      obtain ⟨q, y, rfl⟩ := hwrite e he
      rfl
    · intro p a' w' v q b x y hr hw
      obtain ⟨_, _, hre⟩ := hread _ hr
      obtain ⟨_, _, hwe⟩ := hwrite _ hw
      obtain ⟨-, rfl, rfl, -⟩ := Event.read.inj hre
      obtain ⟨-, rfl, rfl, -⟩ := Event.write.inj hwe
      exact ⟨rfl, rfl⟩
  · intro s t he h
    obtain ⟨-, -, hmem, hevents⟩ := decodeOnly_step_frame he h
    exact ⟨hevents, hmem⟩

/-- Settles O53: only the ALU writes flags, and a decode-only step executes nothing. -/
theorem flagFrame : Obligations.FlagFrame := by
  unfold Obligations.FlagFrame
  refine ⟨fun i s t hi h => exec_flags hi h, fun s t he h => ?_⟩
  obtain ⟨-, hflags, -, -⟩ := decodeOnly_step_frame he h
  exact hflags

end Sys2Proof.Machine
end

section
/-!
PROOFS. What an instruction computes (O30 to O33, O35 to O40, O48): one lemma for each of the three shapes of a
meaning, and each kind as its case.
-/

namespace Sys2Proof.Machine

/-! ### Jumps -/

/-- Settles O30: under `linear` a jump is `advance`. -/
theorem linearJumpWritesNothing : Obligations.LinearJumpWritesNothing := by
  unfold Obligations.LinearJumpWritesNothing
  intro j k s hb
  rw [exec_jump, jump_linear hb]
  rfl

/-- A target in the buffer, as a word (43_jumps.md R291). -/
theorem toNat_jumpTarget {k : Int} {s : State} (hbuf : s.buf.length ≤ 65535) (h : targetInBuffer k s = true) :
    ((BitVec.ofInt 16 (jumpTarget k s)).toNat : Int) = s.pc.toNat + k := by
  obtain ⟨hlo, hhi⟩ := (targetInBuffer_iff k s).1 h
  rw [BitVec.toNat_ofInt, jumpTarget]
  omega

/-- A target outside the buffer is below 0 or above L (60_exceptions.md R339). -/
theorem targetInBuffer_eq_false (k : Int) (s : State) :
    targetInBuffer k s = false ↔ (s.pc.toNat : Int) + k < 0 ∨ (s.buf.length : Int) < s.pc.toNat + k := by
  rw [← Bool.not_eq_true, targetInBuffer_iff]
  omega

/-- Settles O31: a taken jump in the buffer is its own writes and the target. -/
theorem takenJumpReachesTarget : Obligations.TakenJumpReachesTarget := by
  unfold Obligations.TakenJumpReachesTarget
  intro j k s hb hbuf hc hlo hhi
  have hin := (targetInBuffer_iff k s).2 ⟨hlo, hhi⟩
  obtain ⟨hcx, hreg⟩ := jumpDone_reg j s
  refine ⟨{ jumpDone j s with pc := BitVec.ofInt 16 (jumpTarget k s) }, by rw [exec_jump, hc, jump_inBuffer hb hin],
    toNat_jumpTarget hbuf hin, hcx, hreg, ?_⟩
  rw [jumpDone_eq]

/-- Settles O32: an untaken jump is its own writes and `advance`. -/
theorem untakenJumpFallsThrough : Obligations.UntakenJumpFallsThrough := by
  unfold Obligations.UntakenJumpFallsThrough
  intro j k s hb hc
  obtain ⟨hcx, hreg⟩ := jumpDone_reg j s
  refine ⟨advance (jumpDone j s), by rw [exec_jump, hc, jump_notTaken hb], by simp, hcx, hreg, ?_⟩
  rw [jumpDone_eq]
  rfl

/-- Settles O33: the equations of `jump`, of which one alone enters the error. -/
theorem branchOutOfBufferExactly : Obligations.BranchOutOfBufferExactly := by
  unfold Obligations.BranchOutOfBufferExactly
  intro j k s
  rw [exec_jump, ← targetInBuffer_eq_false]
  constructor
  · intro hb hc hin
    rw [hc, jump_outOfBuffer hb hin]
    rfl
  · intro t o hdec h hrun
    cases hb : s.params.branch with
    | linear =>
      rw [jump_linear hb] at h
      cases h
      simp [hdec] at hrun
    | taken =>
      cases hc : jumpCond j s with
      | false =>
        rw [hc, jump_notTaken hb] at h
        cases h
        simp [hdec] at hrun
      | true =>
        cases hin : targetInBuffer k s with
        | false => exact ⟨rfl, rfl, rfl⟩
        | true =>
          rw [hc, jump_inBuffer hb hin] at h
          cases h
          simp [hdec] at hrun

/-! ### Moves -/

section
variable {w : Width} {dst : Place} {v : BitVec w.bits} {s t u : State}

/-- What a write left, seen in a later state with the same registers and memory. -/
theorem Stored.congr (h : Stored w dst v s t) (hr : u.regs = t.regs) (hm : u.mem = t.mem) : Stored w dst v s u := by
  obtain ⟨hreg, hmem⟩ := h
  refine ⟨fun r hd => ?_, fun a ha => ?_⟩
  · rw [hr, hm, regRead_congr w r hr]
    exact hreg r hd
  · rw [hr, hm]
    exact hmem a ha

/-- What a write leaves; the memory's form counts for a memory destination only. -/
theorem writePlace_stored_of (hwf : placeAddr dst s = none ∨ s.mem.wf) (hok : placeRefused w dst s = false)
    (hr : t.regs = s.regs) (hp : t.params = s.params) (hm : t.mem = s.mem) :
    Stored w dst v s (writePlace w dst v t) := by
  have hok' : placeRefused w dst t = false := by
    cases dst with
    | reg r => simpa [placeRefused, regRefused, hp] using hok
    | mem b disp => rfl
    | direct a => rfl
  rcases hwf with hnone | hwf
  · refine ⟨?_, fun a ha => by simp [hnone] at ha⟩
    rintro r rfl
    exact ⟨regWrite_regs_congr w r v hr hp, regRead_regWrite w r v t hok', by simp [writePlace, hm]⟩
  · exact writePlace_stored v (hm ▸ hwf) hok' hr hp hm

end

section
variable {w : Width} {dst : Place} {src : Source} {s : State}

/-- A move that is not refused completes with its source's value in its destination (41_mov.md R220 to R224). -/
theorem mov_completes (hok : operandsRefused w dst src s = false) :
    ∃ t, mov w dst src s = .next t ∧
      (placeAddr dst s = none ∨ s.mem.wf → Stored w dst (sourceValue w src s) s t) ∧
      Accessed (sourceReads w src s) (placeWrites w dst (sourceValue w src s) s) s t ∧
      t.flags = s.flags ∧ t.pc = BitVec.ofNat 16 s.cur ∧ t.run = s.run := by
  obtain ⟨hdst, -⟩ := Bool.or_eq_false_iff.1 hok
  refine ⟨_, mov_runs hok, fun hwf => ?_, mov_accessed, by simp, by simp, by simp⟩
  rw [readSource_value]
  exact (writePlace_stored_of hwf hdst (readSource_regs ..) (readSource_params ..) (readSource_mem ..)).congr rfl rfl

/-- The operands of the RM format are refused when the instruction is (40_execute.md R206, R208). -/
theorem operandsRefused_rmDst (d : Bool) (w : Width) (reg : Reg) (rm : RmOp) (s : State) :
    operandsRefused w (rmDst d reg rm) (.place (rmSrc d reg rm)) s =
      (decide (s.params.reg8 = .legacy) && (decide (w = .byte) && (highCode reg || rmHighCode rm))) := by
  rw [← rmOperands_fst, ← rmOperands_snd, operandsRefused_rm]

theorem exec_movRegMemToReg (d : Bool) (w : Width) (reg : Reg) (rm : RmOp) (s : State) :
    exec (.movRegMemToReg d w reg rm) s = mov w (rmDst d reg rm) (.place (rmSrc d reg rm)) s := by
  rw [← rmOperands_fst, ← rmOperands_snd]
  rfl

/-- Settles O35: a move from the source of the RM format to its destination. -/
theorem movRegMemToRegCopies : Obligations.MovRegMemToRegCopies := by
  unfold Obligations.MovRegMemToRegCopies
  intro d w reg rm s hwf href v
  rw [exec_movRegMemToReg]
  obtain ⟨t, ht, hst, hrest⟩ := mov_completes ((operandsRefused_rmDst d w reg rm s).trans href)
  exact ⟨t, ht, hst (.inr hwf), hrest⟩

/-- Settles O36: a move of an immediate, which is read without an access. -/
theorem movImmediateLoads : Obligations.MovImmediateLoads := by
  unfold Obligations.MovImmediateLoads
  intro w rm reg data s hwf v
  refine ⟨fun href => ?_, fun href => ?_⟩
  · obtain ⟨t, ht, hst, hrest⟩ := mov_completes ((operandsRefused_rmImm w rm data s).trans href)
    exact ⟨t, ht, hst (.inr hwf), hrest⟩
  · obtain ⟨t, ht, hst, hrest⟩ := mov_completes ((operandsRefused_regImm w reg data s).trans href)
    exact ⟨t, ht, hst (.inr hwf), hrest⟩

/-- The accumulator is never refused: its codes are AX and AL (10_state.md R33). -/
@[simp] theorem regRefused_ax (w : Width) (s : State) : regRefused w .ax s = false := by
  simp [regRefused_eq, highCode, Reg.code]

/-- Settles O37: moves between the accumulator and a direct address, of which neither is refused. -/
theorem movAccumulatorMemory : Obligations.MovAccumulatorMemory := by
  unfold Obligations.MovAccumulatorMemory
  intro w addr s hwf
  constructor
  · obtain ⟨t, ht, hst, hrest⟩ := mov_completes (w := w) (dst := .reg .ax) (src := .place (.direct addr)) (s := s)
      (by simp [operandsRefused, sourceRefused, placeRefused])
    exact ⟨t, ht, hst (.inr hwf), hrest⟩
  · obtain ⟨t, ht, hst, hrest⟩ := mov_completes (w := w) (dst := .direct addr) (src := .place (.reg .ax)) (s := s)
      (by simp [operandsRefused, sourceRefused, placeRefused])
    exact ⟨t, ht, hst (.inr hwf), hrest⟩

/-! ### The ALU -/

theorem writesResult_eq (op : AluOp) : writesResult op = decide (op ≠ .cmp) := by cases op <;> rfl

/-- An ALU operation that is not refused completes with its result and its flags (42_arith.md R245 to R253). -/
theorem arith_completes (op : AluOp) (hok : operandsRefused w dst src s = false)
    (hone : placeAddr dst s = none ∨ ∀ p, src = .place p → placeAddr p s = none) :
    let a := placeValue w dst s
    let b := sourceValue w src s
    let r := if op = .add then a + b else a - b
    ∃ t, arith op w dst src s = .next t ∧
      (placeAddr dst s = none ∨ s.mem.wf → op ≠ .cmp → Stored w dst r s t) ∧
      (op = .cmp → t.regs = s.regs ∧ t.mem = s.mem) ∧
      Accessed (placeReads w dst s ++ sourceReads w src s) (if op = .cmp then [] else placeWrites w dst r s) s t ∧
      t.flags = aluFlags s.params.flagModel op a b r s.flags ∧ t.pc = BitVec.ofNat 16 s.cur ∧ t.run = s.run := by
  intro a b r
  obtain ⟨hdst, -⟩ := Bool.or_eq_false_iff.1 hok
  have hr : aluValue op w dst src s = r := (aluValue_eq op hone).trans (aluResult_eq op a b)
  have hflags : (aluBefore op w dst src s).flags = aluFlags s.params.flagModel op a b r s.flags := by
    rw [aluBefore_flags, hr, readSource_value, (sourceRead_after_dst hone).1]
  have hacc := arith_accessed op hone (w := w)
  refine ⟨_, arith_runs hok, ?_⟩
  rw [hr] at hacc ⊢
  by_cases hop : op = .cmp
  · subst hop
    exact ⟨fun _ h => absurd rfl h, fun _ => ⟨aluBefore_regs .cmp, aluBefore_mem .cmp⟩, hacc, hflags,
      congrArg (BitVec.ofNat 16) (aluBefore_cur .cmp), aluBefore_run .cmp w dst src s⟩
  · simp only [writesResult_eq, hop, ne_eq, not_false_eq_true, decide_true, if_false, if_true] at hacc ⊢
    refine ⟨fun hwf _ => ?_, fun h => h.elim, hacc, ?_, by simp, by simp⟩
    · exact (writePlace_stored_of hwf hdst (aluBefore_regs _) (aluBefore_params ..) (aluBefore_mem _)).congr rfl rfl
    · rw [advance_flags, writePlace_flags, hflags]

end

/-- The RM format reads its register without an access, so all its reads are of its `r/m` operand. -/
theorem rm_reads (d : Bool) (w : Width) (reg : Reg) (rm : RmOp) (s : State) :
    placeReads w (rmDst d reg rm) s ++ sourceReads w (.place (rmSrc d reg rm)) s = placeReads w rm.place s := by
  have hreg : placeReads w (.reg reg) s = [] := rfl
  cases d
  · exact (congrArg (placeReads w rm.place s ++ ·) hreg).trans (List.append_nil _)
  · exact congrArg (· ++ placeReads w rm.place s) hreg

theorem exec_rmInstr (op : AluOp) (d : Bool) (w : Width) (reg : Reg) (rm : RmOp) (s : State) :
    exec (op.rmInstr d w reg rm) s = arith op w (rmDst d reg rm) (.place (rmSrc d reg rm)) s := by
  rw [← rmOperands_fst, ← rmOperands_snd]
  cases op <;> rfl

theorem exec_groupInstr (op : AluOp) (x : Bool) (w : Width) (rm : RmOp) (data : Word) (s : State) :
    exec (op.groupInstr x w rm data) s = arith op w rm.place (.imm data) s := by
  cases op <;> rfl

theorem exec_accInstr (op : AluOp) (w : Width) (data : Word) (s : State) :
    exec (op.accInstr w data) s = arith op w (.reg .ax) (.imm data) s := by
  cases op <;> rfl

theorem operandsRefused_rmInstr (op : AluOp) (d : Bool) (w : Width) (reg : Reg) (rm : RmOp) (s : State) :
    operandsRefused w (rmDst d reg rm) (.place (rmSrc d reg rm)) s = refusedIn (op.rmInstr d w reg rm) s := by
  rw [operandsRefused_rmDst]
  cases op <;> rfl

theorem operandsRefused_groupInstr (op : AluOp) (x : Bool) (w : Width) (rm : RmOp) (data : Word) (s : State) :
    operandsRefused w rm.place (.imm data) s = refusedIn (op.groupInstr x w rm data) s := by
  rw [operandsRefused_rmImm]
  cases op <;> rfl

theorem rmDst_one_memory (d : Bool) (reg : Reg) (rm : RmOp) (s : State) :
    placeAddr (rmDst d reg rm) s = none ∨
      ∀ p, Source.place (rmSrc d reg rm) = .place p → placeAddr p s = none := by
  simpa only [rmOperands_fst, rmOperands_snd] using rm_one_memory d reg rm s

theorem imm_one_memory (dst : Place) (data : Word) (s : State) :
    placeAddr dst s = none ∨ ∀ p, Source.imm data = .place p → placeAddr p s = none :=
  .inr fun _ h => by cases h

/-- Settles O38: the ALU on the two operands of the RM format. -/
theorem aluRegMemResult : Obligations.AluRegMemResult := by
  unfold Obligations.AluRegMemResult
  intro op d w reg rm s hwf href dst a b r
  obtain ⟨t, ht, hst, hcmp, hacc, hrest⟩ :=
    arith_completes op ((operandsRefused_rmInstr op d w reg rm s).trans href) (rmDst_one_memory d reg rm s)
  rw [rm_reads] at hacc
  exact ⟨t, (exec_rmInstr ..).trans ht, hst (.inr hwf), hcmp, hacc, hrest⟩

/-- Settles O39: the ALU on the `r/m` operand and an immediate. -/
theorem aluImmToRegMemResult : Obligations.AluImmToRegMemResult := by
  unfold Obligations.AluImmToRegMemResult
  intro op x w rm data s hwf href a b r
  obtain ⟨t, ht, hst, hcmp, hacc, hrest⟩ :=
    arith_completes op ((operandsRefused_groupInstr op x w rm data s).trans href) (imm_one_memory rm.place data s)
  rw [sourceReads, List.append_nil] at hacc
  exact ⟨t, (exec_groupInstr ..).trans ht, hst (.inr hwf), hcmp, hacc, hrest⟩

/-- Settles O40: the ALU on the accumulator and an immediate, neither of which is in memory. -/
theorem aluImmToAccResult : Obligations.AluImmToAccResult := by
  unfold Obligations.AluImmToAccResult
  intro op w data s a b r
  obtain ⟨t, ht, hst, hcmp, hacc, hrest⟩ :=
    arith_completes op (operandsRefused_acc w data s) (imm_one_memory (.reg .ax) data s)
  have hacc : Accessed [] (if op = .cmp then [] else []) s t := hacc
  rw [ite_self] at hacc
  exact ⟨t, (exec_accInstr ..).trans ht, hst (.inl rfl), hcmp, hacc, hrest⟩

/-! ### Oracle reads -/

section
variable {w : Width} {p : Place} {s t : State} {addr : Word}

/-- An operand in memory reads as the value at its effective address, with one event. -/
theorem place_of_addr (ha : placeAddr p s = some addr) (w : Width) :
    placeValue w p s = memValue w addr s ∧
      placeReads w p s = [.read s.pc.toNat addr w ((memValue w addr s).setWidth 16)] := by
  refine ⟨?_, by simp only [placeReads, ha]⟩
  cases p with
  | reg r => cases ha
  | mem b disp => cases ha; rfl
  | direct a => cases ha; rfl

theorem memValue_oracle (ho : s.params.memModel = .oracle) (w : Width) (addr : Word) :
    memValue w addr s = (Config.draw s.draws).setWidth w.bits := by
  simp only [memValue, ho]

/-- One read under `oracle` takes one draw (20_memory.md R76). -/
theorem Accessed.one_draw {e : Event} {ws : List Event} (h : Accessed [e] ws s t) (ho : s.params.memModel = .oracle) :
    t.draws = s.draws + 1 ∧ t.events = s.events ++ [e] ++ ws := by
  obtain ⟨hevents, hdraws⟩ := h
  exact ⟨by rw [hdraws, if_pos ho]; rfl, hevents⟩

/-- A move from memory to a register under `oracle`. -/
theorem mov_oracle {reg : Reg} (ho : s.params.memModel = .oracle) (ha : placeAddr p s = some addr)
    (hok : regRefused w reg s = false) :
    let v := (Config.draw s.draws).setWidth w.bits
    ∃ t, mov w (.reg reg) (.place p) s = .next t ∧ t.regs = (regWrite w reg v s).regs ∧ t.draws = s.draws + 1 ∧
      t.mem = s.mem ∧ t.events = s.events ++ [.read s.pc.toNat addr w (v.setWidth 16)] := by
  intro v
  have hok' : operandsRefused w (.reg reg) (.place p) s = false := by
    cases p with
    | reg r => cases ha
    | mem b disp => simpa [operandsRefused, sourceRefused, placeRefused] using hok
    | direct a => simpa [operandsRefused, sourceRefused, placeRefused] using hok
  obtain ⟨hvalue, hreads⟩ := place_of_addr ha w
  obtain ⟨t, ht, hst, hacc, -⟩ := mov_completes hok'
  rw [sourceReads, hreads, memValue_oracle ho] at hacc
  rw [sourceValue, hvalue, memValue_oracle ho] at hst
  obtain ⟨hdraws, hevents⟩ := hacc.one_draw ho
  obtain ⟨hregs, -, hmem⟩ := (hst (.inl rfl)).1 reg rfl
  exact ⟨t, ht, hregs, hdraws, hmem, hevents.trans (List.append_nil _)⟩

end

/-- Settles O48: the two moves by `mov_oracle`, the ALU's two forms by `arith_completes` with the one read of `r/m`. -/
theorem oracleReadTakesDraw : Obligations.OracleReadTakesDraw := by
  unfold Obligations.OracleReadTakesDraw
  intro w rm addr s ho ha v rd
  obtain ⟨hvalue, hreads⟩ := place_of_addr ha w
  rw [memValue_oracle ho] at hvalue hreads
  have hwrites : ∀ r, placeWrites w rm.place r s = [.write s.pc.toNat addr w (r.setWidth 16)] := fun r => by
    simp only [placeWrites, ha]
  have hrm : rmHighCode rm = false := by
    cases rm with
    | reg r => cases ha
    | mem b disp => rfl
    | direct a => rfl
  refine ⟨mov_oracle ho rfl (regRefused_ax w s), fun reg href => ?_, fun op d reg href => ?_, fun op x data => ?_⟩
  · rw [exec_movRegMemToReg]
    refine mov_oracle ho ha ?_
    rw [regRefused_eq]
    simpa [refusedIn, usesHighByte, hrm] using href
  · intro a b r
    obtain ⟨t, ht, -, -, hacc, hflags, -⟩ :=
      arith_completes op ((operandsRefused_rmInstr op d w reg rm s).trans href) (rmDst_one_memory d reg rm s)
    have hmem := exec_mem_oracle ho ((exec_rmInstr ..).trans ht)
    rw [rm_reads, hreads] at hacc
    obtain ⟨hdraws, hevents⟩ := hacc.one_draw ho
    have hdst : placeValue w (rmDst d reg rm) s = a := by
      cases d
      · exact hvalue
      · rfl
    have hsrc : sourceValue w (.place (rmSrc d reg rm)) s = b := by
      cases d
      · rfl
      · exact hvalue
    rw [hdst, hsrc] at hflags hevents
    refine ⟨t, (exec_rmInstr ..).trans ht, hflags, hdraws, hmem, hevents.trans (congrArg _ ?_)⟩
    cases d with
    | false => simp [rmDst, hwrites, r]
    | true => simp [rmDst, placeWrites, placeAddr]
  · intro b r
    obtain ⟨t, ht, -, -, hacc, hflags, -⟩ := arith_completes op (w := w) (dst := rm.place) (src := .imm data) (s := s)
      (by simp [operandsRefused_rmImm, hrm]) (imm_one_memory rm.place data s)
    have hmem := exec_mem_oracle ho ((exec_groupInstr op x ..).trans ht)
    rw [sourceReads, List.append_nil, hreads] at hacc
    obtain ⟨hdraws, hevents⟩ := hacc.one_draw ho
    rw [hvalue] at hflags hevents
    rw [hwrites] at hevents
    exact ⟨t, (exec_groupInstr ..).trans ht, hflags, hdraws, hmem, hevents⟩

end Sys2Proof.Machine
end

section
/-!
PROOFS. The step and the run (O10, O11, O13 to O20, O22 to O24, O26 to O28, O34): a step that answers a next state enters
an error after its fetches, or completes one instruction; every invariant and every bound is read off these two cases.
-/

namespace Sys2Proof.Machine

/-! ### Where a decoding ends -/

@[simp] theorem length_fetchBytes (s : State) : (fetchBytes s).length = s.buf.length - s.fetchPos := List.length_drop

/-- A decoding that succeeds ends at the position past the instruction's bytes, inside the buffer. -/
theorem decoded_position {s : State} {i : Instr} {rest : List Byte} (hd : decode (fetchBytes s) = .ok i rest) :
    s.fetchPos + (encode i).length + rest.length = s.buf.length ∧ rest = s.buf.drop (s.fetchPos + (encode i).length) ∧
      (fetchBytes s).length - rest.length = (encode i).length := by
  obtain ⟨hdrop, hlen⟩ := decode_rest hd
  have hsize := encode_length i
  have hbytes := length_fetchBytes s
  refine ⟨by omega, ?_, by omega⟩
  rw [← hdrop, fetchBytes, List.drop_drop]

theorem decodedState_cur {s : State} {i : Instr} {rest : List Byte} (hd : decode (fetchBytes s) = .ok i rest) :
    (decodedState s rest).cur = s.fetchPos + (encode i).length := by
  obtain ⟨-, -, hlen⟩ := decoded_position hd
  rw [decodedState, hlen, fetched_cur]

/-- The state after decoding differs from the one before by the cursor (00_scope.md R17). -/
theorem decodedState_eq {s : State} {i : Instr} {rest : List Byte} (hd : decode (fetchBytes s) = .ok i rest) :
    decodedState s rest = { s with cur := s.buf.length - rest.length } := by
  have hcur : s.fetchPos + ((fetchBytes s).length - rest.length) = s.buf.length - rest.length := by
    obtain ⟨hpos, -, hlen⟩ := decoded_position hd
    omega
  rw [decodedState, fetched, hcur]

/-- A malformed opcode is found within the bytes that remain. -/
theorem malformed_length {bs : List Byte} {n : Nat} (h : decode bs = .malformed n) : n ≤ bs.length := by
  cases bs with
  | nil => cases h
  | cons b0 tl =>
    obtain ⟨rfl, -⟩ | ⟨rfl, -, -, m, rest, rfl, -⟩ := (malformedOpcodeCauses b0 tl n).1 h <;> simp

/-! ### The end of a step -/

theorem haltAtEnd_eq (s : State) :
    haltAtEnd s = { s with run := if s.fetchPos = s.buf.length then .halted else s.run } := by
  unfold haltAtEnd
  split <;> rfl

/-- `finish` written out (40_execute.md R201). -/
theorem finish_eq (rec : Record) (s t : State) : finish rec s t =
    { t with
      records := t.records ++ [rec]
      lines := t.lines ++ [emittedLine rec.instr s t]
      run := if t.fetchPos = t.buf.length then .halted else t.run } :=
  haltAtEnd_eq _

theorem finishExec_not_failed {rec : Record} {s t : State} (h : ∀ e, t.run ≠ .failed e) :
    finishExec rec s t = finish rec s t := by
  unfold finishExec
  split
  · rename_i e he
    exact absurd he (h e)
  · rfl

theorem finishExec_failed {rec : Record} {s t : State} {e : RunError} (h : t.run = .failed e) :
    finishExec rec s t = t := by
  simp only [finishExec, h]

/-- Settles O10: the equation of an executed step, with `finish` written out. -/
theorem stepRunsDecodedInstruction : Obligations.StepRunsDecodedInstruction := by
  unfold Obligations.StepRunsDecodedInstruction
  intro s i rest hr he hd s1
  obtain ⟨u, hu⟩ := exec_answers_next i s1
  have hs1 : decodedState s rest = s1 := decodedState_eq hd
  have hstep := step_of_cases hr (.executed i rest u hd he (hs1 ▸ hu) rfl)
  rw [hs1] at hstep
  refine ⟨u, hu, fun ⟨e, hf⟩ => hstep.trans (by rw [finishExec_failed hf]), fun hf => hstep.trans ?_⟩
  have hlen : (fetchBytes s).length - rest.length = s.buf.length - rest.length - s.fetchPos := by
    rw [length_fetchBytes, Nat.sub_right_comm]
  have hline : emittedLine i s1 u = traceLine i s1 u := if_pos he
  rw [finishExec_not_failed hf, finish_eq, stepRecord, hlen, hline]

theorem fetchPos_of_linear {s : State} (h : s.branching = false) : s.fetchPos = s.cur := by simp [State.fetchPos, h]

theorem branching_of_decodeOnly {s : State} (h : s.params.execute = false) : s.branching = false := by
  simp [State.branching, h]

/-- Settles O11: the equation of a decode-only step, with `finish` written out. -/
theorem decodeOnlyStepChangesNothing : Obligations.DecodeOnlyStepChangesNothing := by
  unfold Obligations.DecodeOnlyStepChangesNothing
  intro s i rest hr he hd past
  have hb := branching_of_decodeOnly he
  have hpos : s.fetchPos = s.cur := fetchPos_of_linear hb
  rw [← hpos] at hd
  have hcur : decodedState s rest = { s with cur := past } := decodedState_eq hd
  have hlen : (fetchBytes s).length - rest.length = past - s.cur := by
    rw [length_fetchBytes, Nat.sub_right_comm, hpos]
  have hline : emittedLine i (decodedState s rest) (advance (decodedState s rest)) = instrText i :=
    if_neg (by simp [he])
  have hfetch : (advance (decodedState s rest)).fetchPos = past := 
    (fetchPos_of_linear (s := advance (decodedState s rest)) hb).trans (by rw [hcur]; rfl)
  rw [step_of_cases hr (.listed i rest hd he rfl), finish_eq, stepRecord, hline, hfetch, hlen, hpos, hcur, ← hr]
  rfl

/-! ### When a step is enabled -/

/-- Settles O14: the equations of a step that is not enabled. -/
theorem endedRunTakesNoStep : Obligations.EndedRunTakesNoStep := by
  unfold Obligations.EndedRunTakesNoStep
  refine fun s => ⟨step_halted, fun o h => step_failed h, fun e h hk => ?_⟩
  rw [step_failed h, stepFailed]
  split
  · rename_i hk'
    exact absurd hk' hk
  · rfl
  · rfl
  · rfl

/-- A decoding run takes a step, whatever the decoder and the instruction answer (40_execute.md R201). -/
theorem step_answers_next {s : State} (hr : s.run = .decoding) : ∃ t, step s = .next t := by
  cases hd : decode (fetchBytes s) with
  | malformed n => exact ⟨_, step_of_cases hr (.malformed n hd rfl)⟩
  | truncated => exact ⟨_, step_of_cases hr (.truncated hd rfl)⟩
  | ok i rest =>
    cases he : s.params.execute with
    | false => exact ⟨_, step_of_cases hr (.listed i rest hd he rfl)⟩
    | true =>
      obtain ⟨u, hu⟩ := exec_answers_next i (decodedState s rest)
      exact ⟨_, step_of_cases hr (.executed i rest u hd he hu rfl)⟩

/-- Settles O15: a step answers a next state while decoding, and `step_cases` says only then. -/
theorem stepEnabledWhileDecoding : Obligations.StepEnabledWhileDecoding := by
  unfold Obligations.StepEnabledWhileDecoding
  exact fun s => ⟨fun ⟨t, h⟩ => (step_cases h).1, step_answers_next⟩

/-- Settles O22. -/
theorem paramsAreFixed : Obligations.ParamsAreFixed := by
  unfold Obligations.ParamsAreFixed
  exact fun s t h => step_params h

/-! ### Failed and completed steps -/

/-- The state after the instruction of a step and before its end: executed, or listed with `pc` past it
(40_execute.md R201, R202). -/
def Ran (i : Instr) (rest : List Byte) (s u : State) : Prop :=
  (s.params.execute = true ∧ exec i (decodedState s rest) = .next u) ∨
  (s.params.execute = false ∧ u = advance (decodedState s rest))

/-- A step enters an error after its fetches, or completes an instruction. -/
inductive StepEnd (s t : State) : Prop where
  | failed (k : ErrorKind) (o n : Nat) (ht : t = fail k o (fetched n s))
  | completed (i : Instr) (rest : List Byte) (u : State) (hd : decode (fetchBytes s) = .ok i rest)
      (hran : Ran i rest s u) (hrun : u.run = .decoding)
      (ht : t = finish (stepRecord s i rest) (decodedState s rest) u)

theorem step_end {s t : State} (h : step s = .next t) : StepEnd s t := by
  obtain ⟨hr, hc⟩ := step_cases h
  cases hc with
  | malformed n hd ht => exact .failed _ _ n ht
  | truncated hd ht => exact .failed _ _ _ ht
  | listed i rest hd he ht => exact .completed i rest _ hd (.inr ⟨he, rfl⟩) (by simp [hr]) ht
  | executed i rest u hd he hu ht =>
    obtain ⟨k, rfl⟩ | hrun := exec_fails_or_keeps_run hu
    · exact .failed k _ _ ht
    · have hdec : u.run = .decoding := by simp [hrun, hr]
      exact .completed i rest u hd (.inl ⟨he, hu⟩) hdec (ht.trans (finishExec_decoding hdec))

/-- What is left alone between the decode and the end of a step (40_execute.md R201). -/
theorem Ran.frame {i : Instr} {rest : List Byte} {s u : State} (h : Ran i rest s u)
    (hd : decode (fetchBytes s) = .ok i rest) :
    u.params = s.params ∧ u.buf = s.buf ∧ u.cur = s.fetchPos + (encode i).length ∧ u.records = s.records ∧
      u.lines = s.lines := by
  rw [← decodedState_cur hd]
  obtain ⟨-, hu⟩ | ⟨-, rfl⟩ := h
  · obtain ⟨hparams, hcur, hbuf, hrecords, hlines, -⟩ := controlFrame i _ u hu
    exact ⟨hparams, hbuf, hcur, hrecords, hlines⟩
  · exact ⟨rfl, rfl, rfl, rfl, rfl⟩

theorem branching_congr {s t : State} (hp : s.params = t.params) : s.branching = t.branching := by
  simp only [State.branching, hp]

/-! ### Records, lines and the cursor -/

/-- Settles O20: a step that completes hands over what it decoded where it fetched, and the buffer does not change. -/
theorem stepKeepsRecordsDecode : Obligations.StepKeepsRecordsDecode := by
  unfold Obligations.StepKeepsRecordsDecode
  intro s t hs h
  unfold RecordsDecode
  rw [step_buf h]
  cases step_end h with
  | failed k o n ht =>
    rw [ht]
    exact hs
  | completed i rest u hd hran hrun ht =>
    obtain ⟨-, -, -, hrecords, -⟩ := hran.frame hd
    obtain ⟨-, hrest, hlen⟩ := decoded_position hd
    rw [ht, finish_records, hrecords]
    intro r hr
    obtain hr | rfl := List.mem_append.1 hr |>.imp_right List.mem_singleton.1
    · exact hs r hr
    · simp only [stepRecord, hlen, ← hrest]
      exact hd

/-- Settles O26: a decode-only step that completes adds a record and its listing line. -/
theorem listingIsTextOfRecords : Obligations.ListingIsTextOfRecords := by
  unfold Obligations.ListingIsTextOfRecords
  intro s t he hs h
  cases step_end h with
  | failed k o n ht => simpa [ht] using hs
  | completed i rest u hd hran hrun ht =>
    obtain ⟨-, -, -, hrecords, hlines⟩ := hran.frame hd
    have hline : emittedLine i (decodedState s rest) u = instrText i := if_neg (by simp [he])
    simp [ht, hrecords, hlines, hs, stepRecord, hline]

/-- Settles O23: a step that completes moves the cursor by the length of its instruction. -/
theorem linearStepMovesCursor : Obligations.LinearStepMovesCursor := by
  unfold Obligations.LinearStepMovesCursor
  intro s t hb h
  cases step_end h with
  | failed k o n ht => exact .inl ⟨_, by rw [ht, fail_run]⟩
  | completed i rest u hd hran hrun ht =>
    obtain ⟨-, -, hcur, -, -⟩ := hran.frame hd
    obtain ⟨hpos, -, -⟩ := decoded_position hd
    have hsize := encode_length i
    have htcur : t.cur = s.cur + (encode i).length := by rw [ht, finish_cur, hcur, fetchPos_of_linear hb]
    rw [fetchPos_of_linear hb] at hpos
    exact .inr (by omega)

/-! ### Legal states -/

/-- Where a legal run decodes, `pc` stands (10_state.md R37). -/
theorem State.Inv.pc_eq_fetchPos {s : State} (h : s.Inv) (hr : s.run = .decoding) : s.pc.toNat = s.fetchPos := by
  cases hb : s.branching with
  | true => simp [State.fetchPos, hb]
  | false => rw [fetchPos_of_linear hb, h.pcEqCur hb (by simp [hr])]

/-- A legal state that enters an error after its fetches is legal (60_exceptions.md R335). -/
theorem State.Inv.fail_fetched {s : State} (h : s.Inv) (hr : s.run = .decoding) {n : Nat}
    (hn : s.fetchPos + n ≤ s.buf.length) {k : ErrorKind}
    (hreg8 : k = .unmodelledReg8High → s.params.execute = true ∧ s.params.reg8 = .legacy)
    (hbranch : k = .branchOutOfBuffer → s.branching = true) : (fail k s.fetchPos (fetched n s)).Inv where
  bufLe := h.bufLe
  curLe := hn
  pcLe := h.pcLe
  pcEqCur := fun _ hne => absurd rfl (hne _)
  decodingAt := fun hrun => by cases hrun
  haltedAt := fun hrun => by cases hrun
  failedAt := fun e hrun => by
    cases hrun
    exact ⟨(h.pc_eq_fetchPos hr).symm, h.decodingAt hr⟩
  reg8HighIn := fun o hrun => by
    cases hrun
    exact hreg8 rfl
  branchOutIn := fun o hrun => by
    cases hrun
    exact hbranch rfl
  memWf := h.memWf
  memOracle := h.memOracle
  linesEq := h.linesEq
  decodeOnlyEvents := h.decodeOnlyEvents

/-- Where an instruction that does not fail leaves `pc`: at the cursor, or under `taken` at a target in the buffer
(10_state.md R37, R38; 43_jumps.md R291). -/
theorem exec_pc {i : Instr} {s t : State} (h : exec i s = .next t) (hrun : t.run = .decoding) :
    t.pc = BitVec.ofNat 16 s.cur ∨
      s.params.branch = .taken ∧ ∃ k, targetInBuffer k s = true ∧ t.pc = BitVec.ofInt 16 (jumpTarget k s) := by
  cases exec_cases h with
  | refused href ht => simp [ht] at hrun
  | outOfBuffer j k hi hb hc hin ht => simp [ht] at hrun
  | moved w dst src href hdst halu hloop hrep hone ht => exact .inl (by simp [ht])
  | computed op w dst src href hdst halu hloop hrep hone ht =>
    exact .inl (by cases hw : writesResult op <;> simp [ht, hw])
  | linear j k hi hb ht => exact .inl (by simp [ht])
  | fellThrough j k hi hb hc ht => exact .inl (by simp [ht])
  | jumped j k hi hb hc hin ht => exact .inr ⟨hb, k, hin, by rw [ht]⟩

/-- An offset in the buffer, as a word (00_scope.md R13). -/
theorem State.Inv.toNat_ofNat {s : State} (h : s.Inv) {n : Nat} (hn : n ≤ s.buf.length) :
    (BitVec.ofNat 16 n).toNat = n := by
  have hbuf := h.bufLe
  rw [BitVec.toNat_ofNat, Nat.mod_eq_of_lt]
  unfold Config.maxBuffer at hbuf
  omega

/-- After the instruction of a legal state `pc` is in the buffer, and equals the cursor where the run does not follow
branches (10_state.md R37). -/
theorem Ran.pc {i : Instr} {rest : List Byte} {s u : State} (h : Ran i rest s u) (hs : s.Inv)
    (hrun : u.run = .decoding) (hd : decode (fetchBytes s) = .ok i rest) :
    u.pc.toNat ≤ s.buf.length ∧ (s.branching = false → u.pc.toNat = u.cur) := by
  obtain ⟨-, -, hcur, -, -⟩ := h.frame hd
  have hle : u.cur ≤ s.buf.length := by
    obtain ⟨hpos, -, -⟩ := decoded_position hd
    omega
  suffices hpc : u.pc = BitVec.ofNat 16 u.cur ∨ s.branching = true ∧ u.pc.toNat ≤ s.buf.length by
    obtain hpc | ⟨hb, hpc⟩ := hpc
    · rw [hpc, hs.toNat_ofNat hle]
      exact ⟨hle, fun _ => rfl⟩
    · exact ⟨hpc, fun hb' => by cases hb.symm.trans hb'⟩
  rw [hcur, ← decodedState_cur hd]
  obtain ⟨he, hu⟩ | ⟨-, rfl⟩ := h
  · obtain hpc | ⟨hb, k, hin, hpc⟩ := exec_pc hu hrun
    · exact .inl hpc
    · have htarget := toNat_jumpTarget (s := decodedState s rest) hs.bufLe hin
      have hin' := (targetInBuffer_iff k _).1 hin
      rw [← hpc] at htarget
      refine .inr ⟨by simp [State.branching, he, show s.params.branch = .taken from hb], ?_⟩
      have hle' : (u.pc.toNat : Int) ≤ s.buf.length := htarget ▸ hin'.2
      omega
  · exact .inl rfl

/-- A completed step of a legal state ends in a legal state. -/
theorem State.Inv.completed {i : Instr} {rest : List Byte} {s u : State} (h : s.Inv)
    (hd : decode (fetchBytes s) = .ok i rest) (hran : Ran i rest s u) (hrun : u.run = .decoding) :
    (finish (stepRecord s i rest) (decodedState s rest) u).Inv := by
  obtain ⟨hparams, hbuf, hcur, hrecords, hlines⟩ := hran.frame hd
  obtain ⟨hpos, -, -⟩ := decoded_position hd
  obtain ⟨hpcLe, hpcEq⟩ := hran.pc h hrun hd
  have hfetchLe : u.fetchPos ≤ s.buf.length := by
    unfold State.fetchPos
    split
    · exact hpcLe
    · omega
  have hmem : u.mem.wf ∧ (s.params.memModel = .oracle → u.mem = s.mem) ∧
      (s.params.execute = false → u.events = s.events) := by
    obtain ⟨he, hu⟩ | ⟨he, rfl⟩ := hran
    · exact ⟨exec_mem_wf (s := decodedState s rest) h.memWf hu,
        fun ho => exec_mem_oracle (s := decodedState s rest) ho hu, fun he' => by cases he.symm.trans he'⟩
    · exact ⟨h.memWf, fun _ => rfl, fun _ => rfl⟩
  obtain ⟨hwf, horacle, hevents⟩ := hmem
  have hdone (e : RunError) := finish_not_failed (rec := stepRecord s i rest) (s := decodedState s rest) hrun e
  rw [finish_eq] at hdone ⊢
  rw [hrun, hbuf] at hdone ⊢
  constructor
  case bufLe => exact h.bufLe
  case curLe => show u.cur ≤ s.buf.length; omega
  case pcLe => exact hpcLe
  case pcEqCur => exact fun hb _ => hpcEq ((branching_congr hparams).symm.trans hb)
  case decodingAt =>
    intro hnot
    have hne : u.fetchPos ≠ s.buf.length := by simpa using hnot
    exact lt_of_le_of_ne hfetchLe hne
  case haltedAt =>
    intro hhalt
    by_contra hne
    exact absurd (hhalt.symm.trans (if_neg hne)) (by decide)
  case failedAt => exact fun e hf => absurd hf (hdone e)
  case reg8HighIn => exact fun o hf => absurd hf (hdone _)
  case branchOutIn => exact fun o hf => absurd hf (hdone _)
  case memWf => exact hwf
  case memOracle => exact fun ho => (horacle (hparams ▸ ho)).trans (h.memOracle (hparams ▸ ho))
  case linesEq => simp [hrecords, hlines, h.linesEq]
  case decodeOnlyEvents => exact fun he => (hevents (hparams ▸ he)).trans (h.decodeOnlyEvents (hparams ▸ he))

/-- Settles O16: each error a step enters is one that its own cause allows, and a completed step is legal. -/
theorem stepKeepsLegalState : Obligations.StepKeepsLegalState := by
  unfold Obligations.StepKeepsLegalState
  intro s t hs h
  obtain ⟨hr, hc⟩ := step_cases h
  have hstart := hs.decodingAt hr
  have hbytes := length_fetchBytes s
  cases hc with
  | malformed n hd ht =>
    have hn := malformed_length hd
    exact ht ▸ hs.fail_fetched hr (by omega) (fun hk => by cases hk) (fun hk => by cases hk)
  | truncated hd ht => exact ht ▸ hs.fail_fetched hr (by omega) (fun hk => by cases hk) (fun hk => by cases hk)
  | listed i rest hd he ht => exact ht ▸ hs.completed hd (.inr ⟨he, rfl⟩) hr
  | executed i rest u hd he hu ht =>
    obtain ⟨hpos, -, hlen⟩ := decoded_position hd
    cases exec_run hu with
    | kept href hrun =>
      have hdec : u.run = .decoding := hrun.trans hr
      rw [ht, finishExec_decoding hdec]
      exact hs.completed hd (.inl ⟨he, hu⟩) hdec
    | refused href hfail =>
      rw [ht, hfail, finishExec_fail, decodedState, fetched_pc, hs.pc_eq_fetchPos hr]
      refine hs.fail_fetched hr (by omega) (fun _ => ⟨he, ?_⟩) (fun hk => by cases hk)
      exact of_decide_eq_true (Bool.and_eq_true_iff.1 href).1
    | outOfBuffer j k hi hb hc hin hfail =>
      rw [ht, hfail, finishExec_fail, decodedState, fetched_pc, hs.pc_eq_fetchPos hr]
      refine hs.fail_fetched hr (by omega) (fun hk => by cases hk) (fun _ => ?_)
      simp [State.branching, he, show s.params.branch = .taken from hb]

/-! ### Creation -/

/-- Settles O19: no bytes are consumed and nothing is handed over at creation, and launch memory is in its form. -/
theorem createdStateIsLegal : Obligations.CreatedStateIsLegal := by
  unfold Obligations.CreatedStateIsLegal
  intro l t h
  obtain ⟨hlen, rfl⟩ := create_cases h
  have hpos : (launched l).fetchPos = 0 := by unfold State.fetchPos; split <;> rfl
  have hrun : (launched l).run = if l.buf.length = 0 then .halted else .decoding := rfl
  have hne (e : RunError) : (launched l).run ≠ .failed e := by rw [hrun]; split <;> simp
  refine ⟨?_, fun r hr => by cases hr⟩
  constructor
  case bufLe => exact hlen
  case curLe => exact Nat.zero_le _
  case pcLe => exact Nat.zero_le _
  case pcEqCur => exact fun _ _ => rfl
  case decodingAt =>
    intro hdec
    rw [hpos]
    by_contra hzero
    have hbuf : l.buf.length = 0 := Nat.le_zero.1 (Nat.not_lt.1 hzero)
    simp [hrun, hbuf] at hdec
  case haltedAt =>
    intro hhalt
    rw [hpos]
    by_contra hpos'
    have hbuf : l.buf.length ≠ 0 := Ne.symm hpos'
    simp [hrun, hbuf] at hhalt
  case failedAt => exact fun e hf => absurd hf (hne e)
  case reg8HighIn => exact fun o hf => absurd hf (hne _)
  case branchOutIn => exact fun o hf => absurd hf (hne _)
  case memWf =>
    show (launchMem l).wf
    unfold launchMem
    split
    · exact Memory.nil_wf
    · exact Memory.ofCells_wf l.cells
  case memOracle =>
    intro ho
    have ho : l.params.memModel = .oracle := ho
    show launchMem l = []
    simp only [launchMem, ho]
  case linesEq => rfl
  case decodeOnlyEvents => exact fun _ => rfl

/-- Settles O18: under `RESET_STATE = zero` and `MEM_MODEL = oracle` creation takes nothing from the other inputs. -/
theorem resetIsEmptyCreation : Obligations.ResetIsEmptyCreation := by
  unfold Obligations.ResetIsEmptyCreation
  exact fun g f cells => ⟨rfl, fun r => by cases r <;> rfl, rfl, rfl, rfl⟩

/-- Settles O17: the state at reset is a created one. -/
theorem resetIsLegal : Obligations.ResetIsLegal := by
  unfold Obligations.ResetIsLegal
  exact (createdStateIsLegal _ _ (resetIsEmptyCreation Regs.zero Flags.clear []).1).1

/-- The launch inputs that give each byte of data memory its own cell. -/
def fullCells (m : Nat → Byte) : List Host.Cell := (List.range 65536).map fun a => (a, m a)

/-- The last cell given for an address below 2^16 is the function's byte. -/
theorem read_ofCells_fullCells (m : Nat → Byte) {a : Nat} (ha : a < 65536) :
    (Memory.ofCells (fullCells m)).read a = m a := by
  rw [Memory.read_ofCells]
  have hmem : (a, m a) ∈ (fullCells m).reverse := by simpa [fullCells] using ha
  split
  · rename_i c hfind
    have hkey := List.find?_some hfind
    have hc := List.mem_of_find?_eq_some hfind
    obtain ⟨k, hk, rfl⟩ : ∃ k, k < 65536 ∧ (k, m k) = c := by simpa [fullCells] using hc
    have hka : k = a := by simpa [Nat.mod_eq_of_lt hk] using hkey
    exact congrArg m hka
  · rename_i hfind
    have hmiss := List.find?_eq_none.1 hfind _ hmem
    simp [Nat.mod_eq_of_lt ha] at hmiss

/-- Settles O28: the fields of the launch state, with memory read as the last cell given for each address. -/
theorem createdState : Obligations.CreatedState := by
  unfold Obligations.CreatedState
  have hcreate : ∀ l : Launch, l.buf.length ≤ 65535 → create l = .next (launched l) := fun l hl => if_pos hl
  refine ⟨fun l => ⟨fun hl => ⟨launched l, hcreate l hl, ?_, ?_, rfl, rfl, ?_, rfl, rfl, rfl, rfl, rfl, ?_, ?_⟩,
    fun hl => ?_⟩, fun l m hl hm => ⟨fullCells m, _, hcreate _ hl, fun a ha => ?_⟩⟩
  · intro hz
    have hregs : (launched l).regs = Regs.zero := by simp only [launched, launchRegs, hz]
    refine ⟨fun r => (reg_congr (t := State.reset) hregs r).trans (by cases r <;> rfl), ?_⟩
    simp only [launched, launchFlags, hz]
    rfl
  · intro hfree
    simp only [launched, launchRegs, launchFlags, hfree, and_self]
  · simp only [launched, List.length_eq_zero_iff]
  · intro ho
    simp only [launched, launchMem, ho]
  · intro harray a ha
    have hmem : (launched l).mem = Memory.ofCells l.cells := by simp only [launched, launchMem, harray]
    rw [hmem, Memory.read_ofCells]
    refine ⟨fun v hv => by rw [hv], fun hnone => ?_⟩
    have hfind : (l.cells.reverse.find? fun c => c.1 % 65536 == a) = none := by
      simpa [List.find?_eq_none] using hnone
    rw [hfind]
  · exact if_neg (Nat.not_le.2 hl)
  · have hmem : (launched { l with cells := fullCells m }).mem = Memory.ofCells (fullCells m) := by
      simp only [launched, launchMem, hm]
    rw [hmem, read_ofCells_fullCells m ha]

/-! ### Whole runs -/

/-- A run of `n + 1` steps is a step and a run of `n`. -/
theorem core_run_succ {s t : State} (h : step s = .next t) (n : Nat) : core.run (n + 1) s = core.run n t := by
  have hstep : core.step s = .next t := h
  simp only [Host.Core.run, hstep]

/-- What ends a run within a bound that counts the bytes left (70_reset_and_hazards.md R362, log 13). -/
def EndsWithin (left : Nat) (s : State) : Prop :=
  ∃ n t, core.run n s = .next t ∧
    ((t.run = .halted ∧ n ≤ left / 2) ∨ ((∃ e, t.run = .failed e) ∧ n ≤ (left + 1) / 2))

/-- A step that leaves at least two bytes fewer adds one to the bound. -/
theorem EndsWithin.of_step {s t : State} {left left' : Nat} (h : step s = .next t) (hleft : left' + 2 ≤ left)
    (hends : EndsWithin left' t) : EndsWithin left s := by
  obtain ⟨n, u, hrun, hend⟩ := hends
  refine ⟨n + 1, u, (core_run_succ h n).trans hrun, hend.imp ?_ ?_⟩
  · exact fun ⟨hhalt, hn⟩ => ⟨hhalt, by omega⟩
  · exact fun ⟨hfail, hn⟩ => ⟨hfail, by omega⟩

/-- Settles O24: by induction on the bytes left, of which each step that goes on takes at least two. -/
theorem linearRunEnds : Obligations.LinearRunEnds := by
  unfold Obligations.LinearRunEnds
  suffices hleft : ∀ left (s : State), s.buf.length - s.cur = left → s.Inv → s.run = .decoding → s.branching = false →
      EndsWithin left s from fun s hs hr hb => hleft _ s rfl hs hr hb
  intro left
  induction left using Nat.strong_induction_on with
  | _ left ih =>
    intro s hlen hs hr hb
    obtain ⟨t, h⟩ := step_answers_next hr
    have hstart := hs.decodingAt hr
    rw [fetchPos_of_linear hb] at hstart
    have hone : core.run 1 s = .next t := core_run_succ h 0
    obtain hfail | ⟨hlo, -, hhi⟩ := linearStepMovesCursor s t hb h
    · exact ⟨1, t, hone, .inr ⟨hfail, by omega⟩⟩
    · have hbuf := step_buf h
      have hbt : t.branching = false := (branching_congr (step_params h)).trans hb
      cases hrt : t.run with
      | halted => exact ⟨1, t, hone, .inl ⟨hrt, by omega⟩⟩
      | failed e => exact ⟨1, t, hone, .inr ⟨⟨e, hrt⟩, by omega⟩⟩
      | decoding =>
        have hlt : t.buf.length - t.cur + 2 ≤ left := by rw [hbuf]; omega
        exact .of_step h hlt (ih _ (by omega) t rfl (stepKeepsLegalState s t hs h) hrt hbt)

/-! ### What a linear step depends on -/

/-- The next decode of a linear run looks at the buffer and the cursor (10_state.md R45). -/
theorem fetchBytes_linear {s1 s2 : State} (hbuf : s1.buf = s2.buf) (hcur : s1.cur = s2.cur) (h1 : s1.branching = false)
    (h2 : s2.branching = false) : s1.fetchPos = s2.fetchPos ∧ fetchBytes s1 = fetchBytes s2 := by
  have hpos : s1.fetchPos = s2.fetchPos := by rw [fetchPos_of_linear h1, fetchPos_of_linear h2, hcur]
  exact ⟨hpos, by rw [fetchBytes, fetchBytes, hbuf, hpos]⟩

/-- The cursor, the run state and the record after a linear step that decodes an instruction: a refusal, or what the
buffer and the cursor give. -/
theorem linear_step {s t : State} {i : Instr} {rest : List Byte} (hb : s.branching = false)
    (hd : decode (fetchBytes s) = .ok i rest) (h : step s = .next t) :
    (s.params.execute = true ∧ refusedIn i s = true ∧
      t = fail .unmodelledReg8High s.pc.toNat (decodedState s rest)) ∨
    ((s.params.execute = true → refusedIn i s = false) ∧ t.cur = s.fetchPos + (encode i).length ∧
      t.run = (if s.fetchPos + (encode i).length = s.buf.length then .halted else .decoding) ∧
      t.records = s.records ++ [stepRecord s i rest]) := by
  have hcompleted : ∀ u, Ran i rest s u → u.run = .decoding →
      t = finish (stepRecord s i rest) (decodedState s rest) u →
      t.cur = s.fetchPos + (encode i).length ∧
      t.run = (if s.fetchPos + (encode i).length = s.buf.length then .halted else .decoding) ∧
      t.records = s.records ++ [stepRecord s i rest] := by
    intro u hran hrun ht
    obtain ⟨hparams, hbuf, hcur, hrecords, -⟩ := hran.frame hd
    have hpos : u.fetchPos = u.cur := fetchPos_of_linear ((branching_congr hparams).trans hb)
    rw [ht, finish_cur, finish_run, finish_records, hpos, hcur, hbuf, hrun, hrecords]
    exact ⟨rfl, rfl, rfl⟩
  obtain ⟨hr, hc⟩ := step_cases h
  cases hc with
  | malformed n hd' ht => cases hd.symm.trans hd'
  | truncated hd' ht => cases hd.symm.trans hd'
  | listed i' rest' hd' he ht =>
    cases hd.symm.trans hd'
    exact .inr ⟨fun he' => (by cases he.symm.trans he'), hcompleted _ (.inr ⟨he, rfl⟩) hr ht⟩
  | executed i' rest' u hd' he hu ht =>
    cases hd.symm.trans hd'
    cases exec_run hu with
    | refused href hfail => exact .inl ⟨he, href, by rw [ht, hfail, finishExec_fail]; rfl⟩
    | outOfBuffer j k hi hbr hc hin hfail =>
      have hbr : s.params.branch = .taken := hbr
      simp [State.branching, he, hbr] at hb
    | kept href hrun =>
      have hdec : u.run = .decoding := hrun.trans hr
      exact .inr ⟨fun _ => href, hcompleted u (.inl ⟨he, hu⟩) hdec (ht.trans (finishExec_decoding hdec))⟩

/-- Settles O27: one decode, and then `linear_step` for both states, which are refused alike. -/
theorem listingIgnoresData : Obligations.ListingIgnoresData := by
  unfold Obligations.ListingIgnoresData
  intro s1 s2 t1 t2 hr1 hr2 hbuf hcur hb1 hb2 hreg8 hlegacy h1 h2
  obtain ⟨hpos, hbytes⟩ := fetchBytes_linear hbuf hcur hb1 hb2
  cases hd : decode (fetchBytes s1) with
  | malformed n =>
    obtain rfl := Host.Outcome.next.inj (h1.symm.trans (step_of_cases hr1 (.malformed n hd rfl)))
    obtain rfl := Host.Outcome.next.inj (h2.symm.trans (step_of_cases hr2 (.malformed n (hbytes ▸ hd) rfl)))
    exact ⟨congrArg (· + n) hpos, by simp [hpos], [], by simp⟩
  | truncated =>
    obtain rfl := Host.Outcome.next.inj (h1.symm.trans (step_of_cases hr1 (.truncated hd rfl)))
    obtain rfl := Host.Outcome.next.inj (h2.symm.trans (step_of_cases hr2 (.truncated (hbytes ▸ hd) rfl)))
    exact ⟨by simp [hpos, hbuf], by simp [hpos], [], by simp⟩
  | ok i rest =>
    have hrefused : refusedIn i s1 = refusedIn i s2 := by simp only [refusedIn, hreg8]
    have hlegacy_of : refusedIn i s1 = true → s1.params.reg8 = .legacy := fun href =>
      of_decide_eq_true (Bool.and_eq_true_iff.1 href).1
    have hd2 : decode (fetchBytes s2) = .ok i rest := hbytes ▸ hd
    rcases linear_step hb1 hd h1 with ⟨he1, href1, ht1⟩ | ⟨hok1, hcur1, hrun1, hrec1⟩
    · obtain ⟨hexec, hs1, hs2⟩ := hlegacy (hlegacy_of href1)
      rcases linear_step hb2 hd2 h2 with ⟨he2, href2, ht2⟩ | ⟨hok2, -, -, -⟩
      · have hpc : s1.pc.toNat = s2.pc.toNat := by rw [hs1.pc_eq_fetchPos hr1, hs2.pc_eq_fetchPos hr2, hpos]
        refine ⟨?_, by simp [ht1, ht2, hpc], [], by simp [ht1, ht2, decodedState]⟩
        rw [ht1, ht2, fail_cur, fail_cur, decodedState_cur hd, decodedState_cur hd2, hpos]
      · cases (hrefused.symm.trans href1).symm.trans (hok2 (hexec.symm.trans he1))
    · rcases linear_step hb2 hd2 h2 with ⟨he2, href2, ht2⟩ | ⟨-, hcur2, hrun2, hrec2⟩
      · have href1 := hrefused.trans href2
        obtain ⟨hexec, -, -⟩ := hlegacy (hlegacy_of href1)
        cases href1.symm.trans (hok1 (hexec.trans he2))
      · have hrecord : stepRecord s1 i rest = stepRecord s2 i rest := by rw [stepRecord, stepRecord, hpos, hbytes]
        refine ⟨by rw [hcur1, hcur2, hpos], by rw [hrun1, hrun2, hpos, hbuf], [stepRecord s2 i rest], ?_, hrec2⟩
        rw [hrec1, hrecord]

/-! ### Errors and branches -/

/-- Settles O34: the jump to L completes in the buffer, and `finish` finds the next decode at L. -/
theorem branchToEndHalts : Obligations.BranchToEndHalts := by
  unfold Obligations.BranchToEndHalts
  intro s j k rest hs hr hb hd hc htarget
  obtain ⟨hbr, he⟩ : s.params.branch = .taken ∧ s.params.execute = true := by simpa [State.branching] using hb
  have hfetch : s.fetchPos = s.pc.toNat := (hs.pc_eq_fetchPos hr).symm
  rw [← hfetch] at hd
  obtain ⟨u, hu, hpc, -, -, heq⟩ := takenJumpReachesTarget j k (decodedState s rest) hbr hs.bufLe hc
    (htarget ▸ Int.natCast_nonneg _) htarget.le
  have hrun : u.run = .decoding := by rw [heq]; exact hr
  have hpcL : u.pc.toNat = s.buf.length := Int.ofNat_inj.1 (hpc.trans htarget)
  obtain ⟨hparams, hbuf, -, -, -⟩ := Ran.frame (.inl ⟨he, hu⟩) hd
  have hend : u.fetchPos = u.buf.length := by
    rw [hbuf, ← hpcL]
    exact if_pos ((branching_congr hparams).trans hb)
  refine ⟨_, step_of_cases hr (.executed _ rest u hd he hu rfl), ?_, ?_⟩
  · rw [finishExec_decoding hrun, finish_run, if_pos hend]
  · rw [finishExec_decoding hrun, finish_pc, hpcL]

/-- Settles O13: the equations of a failed decode, and `exec_run` for the errors of an executed instruction. -/
theorem failureOffsetIsStart : Obligations.FailureOffsetIsStart := by
  unfold Obligations.FailureOffsetIsStart
  intro s hr start bs
  refine ⟨fun n hd => step_of_cases hr (.malformed n hd rfl), fun hd => step_of_cases hr (.truncated hd rfl), ?_⟩
  intro t e hs h hf
  have hpc : s.pc.toNat = start := hs.pc_eq_fetchPos hr
  obtain ⟨-, hc⟩ := step_cases h
  cases hc with
  | malformed n hd ht =>
    obtain rfl : ⟨.malformedOpcode, start⟩ = e := by simpa [ht] using hf
    have hd : decode bs = .malformed n := hd
    simp [hd, ht, hpc]
  | truncated hd ht =>
    obtain rfl : ⟨.truncatedStream, start⟩ = e := by simpa [ht] using hf
    have hd : decode bs = .truncated := hd
    simp [hd, ht, hpc]
  | listed i rest hd he ht =>
    rw [ht] at hf
    exact (finish_not_failed (t := advance (decodedState s rest)) hr e hf).elim
  | executed i rest u hd he hu ht =>
    have hd : decode bs = .ok i rest := hd
    cases exec_run hu with
    | kept href hrun =>
      have hdec : u.run = .decoding := hrun.trans hr
      rw [ht, finishExec_decoding hdec] at hf
      exact absurd hf (finish_not_failed hdec e)
    | refused href hfail =>
      obtain rfl : ⟨.unmodelledReg8High, start⟩ = e := by simpa [ht, hfail, decodedState, hpc] using hf
      have href : refusedIn i s = true := href
      have hjump : ∀ j k, i ≠ JumpOp.instr j k := fun j k hi => by simp [refusedIn_jump hi s] at href
      simp [ht, hfail, decodedState, hpc, hd, he, href, hjump]
    | outOfBuffer j k hi hbr hcond hin hfail =>
      obtain rfl : ⟨.branchOutOfBuffer, start⟩ = e := by simpa [ht, hfail, decodedState, hpc] using hf
      have href := refusedIn_jump hi s
      have hb : s.branching = true := by simp [State.branching, he, show s.params.branch = .taken from hbr]
      have htarget := (targetInBuffer_eq_false k _).1 hin
      rw [decodedState, fetched_pc, hpc, fetched_buf] at htarget
      have hout : ∃ j k rest, decode bs = .ok (JumpOp.instr j k) rest ∧ jumpCond j s = true ∧
          ((start : Int) + k < 0 ∨ (s.buf.length : Int) < start + k) := ⟨j, k, rest, hi ▸ hd, hcond, htarget⟩
      refine ⟨rfl, by simp [ht, hfail, decodedState, hpc], ?_, ?_, ?_, ?_⟩
      · simp [hd]
      · simp [hd]
      · simp [hd, href]
      · simp only [hb, hout, and_self]

end Sys2Proof.Machine
end

section
/-!
PROOFS. Flags against exact integers, the laws of the ALU, and data memory byte by byte (O41 to O44, O47, O50).
-/

namespace Sys2Proof.Machine

/-! ### Flags -/

/-- Settles O41: the formulas of `aluFlagsLegacy`, with `r = 0` read as a number. -/
theorem legacyFlagFormulas : Obligations.LegacyFlagFormulas := by
  unfold Obligations.LegacyFlagFormulas
  intro n op a b r f g
  have hz : g.z = decide (r.toNat = 0) := decide_eq_decide.2 (eq_zero_iff_toNat r)
  refine ⟨rfl, hz, rfl, ?_, ?_, rfl⟩
  · cases op <;> rfl
  · cases op <;> rfl

/-- The signed sum overflows exactly when it is not the exact sum. -/
theorem toInt_add_ne_iff {n : Nat} (a b : BitVec n) :
    (a + b).toInt ≠ a.toInt + b.toInt ↔ a.msb = b.msb ∧ (a + b).msb ≠ a.msb := by
  have hmsb : a.saddOverflow b = true ↔ a.msb = b.msb ∧ (a + b).msb ≠ a.msb := by
    simp [BitVec.saddOverflow_eq]
  rw [← hmsb]
  constructor
  · exact fun hne => by_contra fun h => hne (BitVec.toInt_add_of_not_saddOverflow h)
  · intro h heq
    have hlo := (a + b).le_toInt
    have hhi := (a + b).toInt_lt
    simp only [BitVec.saddOverflow, Bool.or_eq_true, decide_eq_true_eq] at h
    omega

/-- The signed difference overflows exactly when it is not the exact difference. -/
theorem toInt_sub_ne_iff {n : Nat} (a b : BitVec n) :
    (a - b).toInt ≠ a.toInt - b.toInt ↔ a.msb ≠ b.msb ∧ (a - b).msb ≠ a.msb := by
  have hmsb : a.ssubOverflow b = true ↔ a.msb ≠ b.msb ∧ (a - b).msb ≠ a.msb := by
    rw [BitVec.ssubOverflow_eq]
    cases a.msb <;> cases b.msb <;> cases (a - b).msb <;> decide
  rw [← hmsb]
  constructor
  · exact fun hne => by_contra fun h => hne (BitVec.toInt_sub_of_not_ssubOverflow h)
  · intro h heq
    have hlo := (a - b).le_toInt
    have hhi := (a - b).toInt_lt
    simp only [BitVec.ssubOverflow, Bool.or_eq_true, decide_eq_true_eq] at h
    omega

/-- The sum carries exactly when it is not the exact sum. -/
theorem toNat_add_ne_iff {n : Nat} (a b : BitVec n) :
    (a + b).toNat ≠ a.toNat + b.toNat ↔ 2 ^ n ≤ a.toNat + b.toNat := by
  constructor
  · exact fun hne => Nat.not_lt.1 fun h => hne (BitVec.toNat_add_of_lt h)
  · have hlt := (a + b).isLt
    omega

theorem msb_iff_toInt_neg {n : Nat} (a : BitVec n) : a.msb = true ↔ a.toInt < 0 := by
  rw [BitVec.msb_eq_toInt, decide_eq_true_eq]

/-- The set bits among the low eight, counted two ways. -/
theorem onesLow8_eq {n : Nat} (r : BitVec n) :
    onesLow8 r = ((List.range 8).filter fun k => r.getLsbD k).length := by
  have hbit (b : Bool) : b.toNat = if b = true then 1 else 0 := by cases b <;> rfl
  rw [← List.countP_eq_length_filter, show List.range 8 = [0, 1, 2, 3, 4, 5, 6, 7] from rfl]
  simp only [onesLow8, List.countP_cons, List.countP_nil, hbit]
  omega

/-- Settles O42: each formula of `aluFlags8086` is a comparison of exact numbers. -/
theorem i8086FlagsAreExact : Obligations.I8086FlagsAreExact := by
  unfold Obligations.I8086FlagsAreExact
  intro w op a b f r exact g
  have hs : g.s = true ↔ r.toInt < 0 := msb_iff_toInt_neg r
  have hz : g.z = true ↔ r.toNat = 0 := decide_eq_true_iff.trans (eq_zero_iff_toNat r)
  have hp : g.p = true ↔ ((List.range 8).filter fun k => r.getLsbD k).length % 2 = 0 := by
    rw [← onesLow8_eq]
    exact decide_eq_true_iff
  cases op with
  | add =>
    refine ⟨?_, nibbleCarry_add a b, ?_, hs, hz, hp⟩
    · exact decide_eq_true_iff.trans (toNat_add_ne_iff a b).symm
    · exact decide_eq_true_iff.trans (toInt_add_ne_iff a b).symm
  | sub =>
    refine ⟨decide_eq_true_iff, nibbleCarry_borrow (op := .sub) (by decide) a b, ?_, hs, hz, hp⟩
    exact decide_eq_true_iff.trans (toInt_sub_ne_iff a b).symm
  | cmp =>
    refine ⟨decide_eq_true_iff, nibbleCarry_borrow (op := .cmp) (by decide) a b, ?_, hs, hz, hp⟩
    exact decide_eq_true_iff.trans (toInt_sub_ne_iff a b).symm

/-! ### Comparing -/

/-- Sign and overflow of the difference differ exactly when the first operand is the smaller one. -/
theorem msb_sub_xor_overflow {n : Nat} (a b : BitVec n) :
    ((a - b).msb ^^ decide (a.msb ≠ b.msb ∧ (a - b).msb ≠ a.msb)) = decide (a.toInt < b.toInt) := by
  by_cases ho : a.msb ≠ b.msb ∧ (a - b).msb ≠ a.msb
  · obtain ⟨hab, hr⟩ := ho
    have hsigns : a.toInt < 0 ↔ ¬ b.toInt < 0 := by
      rw [← msb_iff_toInt_neg, ← msb_iff_toInt_neg, Bool.eq_not.2 hab, Bool.not_eq_true', Bool.not_eq_true]
    rw [decide_eq_true ⟨hab, hr⟩, Bool.eq_not.2 hr, Bool.xor_true, Bool.not_not, BitVec.msb_eq_toInt, decide_eq_decide]
    omega
  · have hexact : (a - b).toInt = a.toInt - b.toInt := not_ne_iff.1 ((toInt_sub_ne_iff a b).not.2 ho)
    rw [decide_eq_false ho, Bool.xor_false, BitVec.msb_eq_toInt, hexact, decide_eq_decide]
    omega

/-- Settles O43: `F.Z`, `F.C` and `F.S` against `F.O` after `cmp`, from which each condition is read. -/
theorem compareThenCondition : Obligations.CompareThenCondition := by
  unfold Obligations.CompareThenCondition
  intro d w reg rm s hm href a b
  obtain ⟨t, ht, -, -, -, hflags, -⟩ :=
    arith_completes .cmp ((operandsRefused_rmInstr .cmp d w reg rm s).trans href) (rmDst_one_memory d reg rm s)
  have hflags : t.flags = aluFlags8086 .cmp a b (a - b) := by rw [hflags, hm]; rfl
  have hz : t.flags.z = decide (a = b) := by
    rw [hflags]
    exact decide_eq_decide.2 sub_eq_zero
  have hc : t.flags.c = decide (a.toNat < b.toNat) := by rw [hflags]; rfl
  have hso : (t.flags.s ^^ t.flags.o) = decide (a.toInt < b.toInt) := by
    rw [hflags]
    exact msb_sub_xor_overflow a b
  have hnat : a = b ↔ a.toNat = b.toNat := BitVec.toNat_inj.symm
  have hint : a = b ↔ a.toInt = b.toInt := BitVec.toInt_inj.symm
  refine ⟨t, (exec_rmInstr .cmp d w reg rm s).trans ht, ?_⟩
  simp only [jumpCond, hz, hc, hso, decide_eq_true_eq, Bool.not_eq_true', decide_eq_false_iff_not, Bool.or_eq_true,
    Bool.and_eq_true]
  refine ⟨trivial, trivial, trivial, Nat.not_lt, ?_, ?_, trivial, Int.not_lt, ?_, ?_⟩
  · rw [hnat]; omega
  · rw [hnat]; omega
  · rw [hint]; omega
  · rw [hint]; omega

/-! ### Laws -/

/-- A step keeps `F.O` under `legacy` (42_arith.md R243). -/
theorem step_legacy_o {s t : State} (hm : s.params.flagModel = .legacy) (h : step s = .next t) :
    t.flags.o = s.flags.o := by
  cases step_end h with
  | failed k o n ht => simp [ht]
  | completed i rest u hd hran hrun ht =>
    rw [ht, finish_flags]
    obtain ⟨-, hu⟩ | ⟨-, rfl⟩ := hran
    · exact exec_legacy_o (s := decodedState s rest) hm hu
    · rfl

/-- An ALU operation without a destination, which is `cmp`, writes no register and no memory (42_arith.md R242). -/
theorem exec_cmp_frame {i : Instr} {s t : State} (hi : isAlu i = true) (hd : destination i = none)
    (h : exec i s = .next t) : t.regs = s.regs ∧ t.mem = s.mem := by
  have hjump : ∀ {j k}, i = JumpOp.instr j k → False := fun hj => by simp [isAlu_jump hj] at hi
  cases exec_cases h with
  | refused href ht => simp [ht]
  | outOfBuffer j k hj hb hc hin ht => exact (hjump hj).elim
  | moved w dst src href hdst halu hloop hrep hone ht => cases hi.symm.trans halu
  | computed op w dst src href hdst halu hloop hrep hone ht =>
    cases hw : writesResult op with
    | true => simp [hd, hw] at hdst
    | false => simp [ht, hw]
  | linear j k hj hb ht => exact (hjump hj).elim
  | fellThrough j k hj hb hc ht => exact (hjump hj).elim
  | jumped j k hj hb hc hin ht => exact (hjump hj).elim

/-- Settles O44: the two algebraic laws, the frame of `cmp`, and `F.O` by induction on the steps. -/
theorem arithmeticLaws : Obligations.ArithmeticLaws := by
  unfold Obligations.ArithmeticLaws
  refine ⟨fun n a b => BitVec.add_comm a b, fun w m x f => ?_, fun i s t hi hd h => exec_cmp_frame hi hd h, ?_⟩
  · have hzero : aluResult .sub x x = 0 := sub_self x
    rw [hzero]
    refine ⟨rfl, ?_⟩
    cases m <;> simp [aluFlags, aluFlagsLegacy, aluFlags8086, nibbleCarry]
  · intro n
    induction n with
    | zero =>
      intro s t hm h
      cases h
      rfl
    | succ n ih =>
      intro s t hm h
      cases hs : step s with
      | next u =>
        rw [core_run_succ hs] at h
        rw [ih u t (by rw [step_params hs, hm]) h, step_legacy_o hm hs]
      | fault r =>
        have hstep : core.step s = .fault r := hs
        simp [Host.Core.run, hstep] at h
      | refused r =>
        have hstep : core.step s = .refused r := hs
        simp [Host.Core.run, hstep] at h

/-! ### Addresses and data memory -/

/-- Settles O47: sums of words, modulo 2^16. -/
theorem effectiveAddress : Obligations.EffectiveAddress := by
  unfold Obligations.EffectiveAddress
  intro s disp x ea
  have hea : ∀ b n, (baseValue b s).toNat = n % 65536 → ea b n := fun b n h =>
    ⟨_, rfl, by rw [BitVec.toNat_add, h, Nat.mod_add_mod]⟩
  have hreg : ∀ r, (s.reg r).toNat = x r % 65536 := fun r => (Nat.mod_eq_of_lt (s.reg r).isLt).symm
  exact ⟨hea _ _ (BitVec.toNat_add ..), hea _ _ (BitVec.toNat_add ..), hea _ _ (BitVec.toNat_add ..),
    hea _ _ (BitVec.toNat_add ..), hea _ _ (hreg .si), hea _ _ (hreg .di), hea _ _ (hreg .bp), hea _ _ (hreg .bx), rfl⟩

theorem toNat_addr_succ (a : Word) : (a + 1).toNat = (a.toNat + 1) % 65536 := BitVec.toNat_add ..

theorem highByte_eq_setWidth (v : Word) : highByte v = (v >>> 8).setWidth 8 := by
  apply BitVec.eq_of_toNat_eq
  simp [toNat_highByte, Nat.shiftRight_eq_div_pow]
  omega

/-- A byte after a write of one byte. -/
theorem Memory.read_write {m : Memory} (hm : m.wf) (a c : Nat) (v : Byte) :
    (m.write a v).read c = if c = a then v else m.read c := by
  split
  · rename_i h
    rw [h, Memory.read_write_same m a v hm.1]
  · rename_i h
    exact Memory.read_write_ne m a c v h

/-- Settles O50: `load` and `store` in the bytes at the address and at the next one. -/
theorem arrayMemoryAccess : Obligations.ArrayMemoryAccess := by
  unfold Obligations.ArrayMemoryAccess
  intro addr s hm hwf next
  have hnext : (addr + 1).toNat = next := toNat_addr_succ addr
  have hvalue : ∀ w, memValue w addr s = s.mem.load w addr := fun w => by simp only [memValue, hm]
  have hstore : ∀ w v, (memWrite w addr v s).mem = s.mem.store w addr v := fun w v => by simp [memWrite_mem, hm]
  refine ⟨hvalue .byte, ?_, fun w => ⟨rfl, rfl⟩, fun v c => ?_, fun v c => ?_, fun w v => rfl⟩
  · rw [memRead_value, hvalue, ← hnext]
    rfl
  · rw [hstore]
    exact Memory.read_write hwf _ c v
  · have hwf' : Memory.wf (s.mem.write addr.toNat (lowByte v)) := Memory.write_wf hwf addr.isLt
    rw [hstore, Memory.store, Memory.read_write hwf', Memory.read_write hwf, hnext, ← lowByte_eq_setWidth,
      ← highByte_eq_setWidth]
    have hne : addr.toNat ≠ next := hnext ▸ addr_succ_ne addr
    split
    · rename_i h
      rw [if_neg (h ▸ hne.symm)]
    · rfl

end Sys2Proof.Machine
end

section
/-!
PROOFS. The printed text (O58 to O60): the model's fields and lines in the spec's words, by the laws of the printed
numbers.
-/

namespace Sys2Proof.Machine

/-! ### The trace line -/

/-- The `ip` field (70_reset_and_hazards.md R367). -/
theorem ipField_eq (s t : State) : ipField s t =
    if s.params.traceIp = true then " ip:0x".toList ++ hexDigits s.pc ++ "->0x".toList ++ hexDigits t.pc else [] := by
  simp only [ipField, changeField, hex_eq]
  rfl

/-- The flags field (70_reset_and_hazards.md R366). -/
theorem flagsField_eq (s t : State) : flagsField s t =
    if s.flags = t.flags then [] else " flags:".toList ++ lettersOf s.flags ++ "->".toList ++ lettersOf t.flags := by
  simp only [flagsField, flagLetters_eq]

/-- Settles O60: the fields of `traceLine`, between states whose registers, `pc` and flags are those before and
after the step. -/
theorem traceLineFields : Obligations.TraceLineFields := by
  unfold Obligations.TraceLineFields
  intro s t i rest he hd h
  cases step_end h with
  | failed k o n ht =>
    have hrun : t.run = .failed ⟨k, o⟩ := by rw [ht, fail_run]
    exact ⟨fun _ => by rw [ht]; rfl, fun hne => absurd hrun (hne _)⟩
  | completed i' rest' u hd' hran hrun ht =>
    obtain ⟨rfl, rfl⟩ : i = i' ∧ rest = rest' := by simpa using hd.symm.trans hd'
    obtain ⟨-, -, -, -, hlines⟩ := hran.frame hd'
    refine ⟨fun ⟨e, hf⟩ => absurd (ht ▸ hf) (finish_not_failed hrun e), fun _ => ?_⟩
    have hregs : t.regs = u.regs := by rw [ht, finish_regs]
    have hpc : t.pc = u.pc := by rw [ht, finish_pc]
    have hflags : t.flags = u.flags := by rw [ht, finish_flags]
    have hreg : regFieldOf (writtenReg i s) (decodedState s rest) u = regFieldOf (writtenReg i s) s t := by
      cases writtenReg i s with
      | none => rfl
      | some r => simp only [regFieldOf, reg_congr hregs, reg_congr (s := decodedState s rest) (t := s) rfl]
    have hline : emittedLine i (decodedState s rest) u = traceLine i (decodedState s rest) u := if_pos he
    rw [hpc, hflags, ← hreg, ← reportedReg_eq_writtenReg, ← regField_eq]
    rw [ht, finish_lines, hlines, stepRecord, hline, traceLine, ipField_eq, flagsField_eq]
    rfl

/-! ### The final dump -/

theorem map_filter_eq_flatMap {α β : Type} (p : α → Prop) [DecidablePred p] (f : α → β) (l : List α) :
    (l.filter fun x => ¬ p x).map f = l.flatMap fun x => if p x then [] else [f x] := by
  induction l with
  | nil => rfl
  | cons x l ih => by_cases h : p x <;> simpa [h] using ih

/-- The dump of a halted run in execute mode (70_reset_and_hazards.md R365). -/
theorem finalDump_halted {s : State} (hr : s.run = .halted) (he : s.params.execute = true) :
    finalDump s = some (dumpLines s) := by
  simp [finalDump, hr, he]

/-- The dump in the spec's words (70_reset_and_hazards.md R368). -/
theorem dumpLines_eq (s : State) : dumpLines s =
    ["Final registers:".toList] ++
      [Reg.ax, .cx, .dx, .bx, .sp, .bp, .si, .di].flatMap
        (fun r => if s.reg r = 0 then [] else [dumpLineOf (name16 r) (s.reg r)]) ++
      (if s.params.traceIp = true ∧ s.pc ≠ 0 then [dumpLineOf "ip".toList s.pc] else []) ++
      (if lettersOf s.flags = [] then [] else ["   flags: ".toList ++ lettersOf s.flags]) := by
  have hregs : (allRegs.filter fun r => s.reg r ≠ 0).map (fun r => dumpValue (name16 r) (s.reg r)) =
      allRegs.flatMap fun r => if s.reg r = 0 then [] else [dumpValue (name16 r) (s.reg r)] :=
    map_filter_eq_flatMap (fun r => s.reg r = 0) _ allRegs
  rw [dumpLines, hregs]
  simp only [ne_eq, dumpValue_eq, flagLetters_eq, lettersOf_eq_nil, Bool.and_eq_true,
    decide_eq_true_eq]
  rfl

/-- Settles O59: `dumpLines_eq`, and the run states without a dump. -/
theorem finalDumpWhenHalted : Obligations.FinalDumpWhenHalted := by
  unfold Obligations.FinalDumpWhenHalted
  intro s
  refine ⟨fun hr he => ?_, fun hr he hzero hclear htrace => ?_, fun he => ?_, fun hr => ?_, fun e hr => ?_⟩
  · rw [finalDump_halted hr he, dumpLines_eq]
  · rw [finalDump_halted hr he, dumpLines_eq]
    simp [hzero, hclear, htrace]
  · cases hr : s.run <;> simp [finalDump, hr, he]
  · simp [finalDump, hr]
  · simp [finalDump, hr]

/-! ### Numbers of operands -/

/-- A word's signed value prints with the digits of its size (30_encoding.md R132, R133). -/
theorem decimal_toInt {w : Width} (v : BitVec w.bits) : decimal v.toInt.natAbs = decimalDigits v.toInt.natAbs := by
  apply decimal_eq
  have hlo := v.le_toInt
  have hhi := v.toInt_lt
  cases w <;> simp only [Width.bits] at hlo hhi <;> omega

/-- A displacement (30_encoding.md R132). -/
theorem dispText_eq (disp : Word) : dispText disp =
    if disp.toInt = 0 then []
    else (if 0 < disp.toInt then " + ".toList else " - ".toList) ++ decimalDigits disp.toInt.natAbs := by
  rw [dispText, decimal_toInt (w := .word) disp]
  rcases lt_trichotomy disp.toInt 0 with hneg | hzero | hpos
  · simp only [hneg, hneg.ne, hneg.le.not_gt, if_true, if_false]
  · rw [if_pos hzero, if_pos hzero]
  · simp only [hpos, hpos.ne', hpos.le.not_gt, if_true, if_false]

/-- An immediate (30_encoding.md R133). -/
theorem immText_eq (w : Width) (data : Word) : immText w data =
    (if 0 ≤ (data.setWidth w.bits).toInt then [] else "-".toList) ++
      decimalDigits (data.setWidth w.bits).toInt.natAbs := by
  rw [immText, signedDecimal, decimal_toInt]
  by_cases hneg : (data.setWidth w.bits).toInt < 0
  · rw [if_pos hneg, if_neg (Int.not_le.2 hneg)]
    rfl
  · rw [if_neg hneg, if_pos (Int.not_lt.1 hneg)]
    rfl

/-- A jump's line (30_encoding.md R135). -/
theorem jumpText_eq (name : Text) {k : Int} (hk : k.natAbs < 65536) : jumpText name k =
    name ++ " $".toList ++ (if 0 ≤ k then "+".toList else "-".toList) ++ decimalDigits k.natAbs := by
  rw [jumpText, decimal_eq hk]
  by_cases hneg : k < 0
  · rw [if_pos hneg, if_neg (Int.not_le.2 hneg)]
    simp only [List.append_assoc]
    rfl
  · rw [if_neg hneg, if_pos (Int.not_lt.1 hneg)]
    simp only [List.append_assoc]
    rfl

/-- Settles O58: the sample lines by evaluation, the numbers by the laws of their texts. -/
theorem sampleListingLines : Obligations.SampleListingLines := by
  unfold Obligations.SampleListingLines
  refine ⟨by decide, by decide, fun w b disp => ?_, fun w a => ?_, fun w data => immText_eq w data,
    fun name k hk => jumpText_eq name hk, by decide, by decide, by decide, by decide, by decide⟩
  · rw [placeText, dispText_eq]
  · rw [placeText, directText, decimal_word]

end Sys2Proof.Machine
end
